-- ==== Sys2Proof/Word.lean ====
section
/-!
DEFINITION. The value types of the block: the 32-bit command word (rule R80), exact real numbers as plain
data, times with the one non-finite value INF (rule R11), and strictly positive rationals (rules R8, R30).
-/

namespace Sys2Proof

/-- The command word of rule R80. -/
abbrev Word := BitVec 32

/-- An exact real number WRITTEN OUT, as a term over the rationals with the two transcendental functions of
rule R12 (rule R11: "exact real numbers"; rule R164: "there is no floating-point format"). A real for which
no such term is known (one that the host presents at the TIME port, or an entry of a configuration table) is
an `atom`. What a term denotes is `ExReal.val` (Machine/Exact.lean). Log entry 1. -/
inductive ExReal where
  | rat (q : Rat)
  | atom (n : Nat)
  | add (a b : ExReal)
  | mul (a b : ExReal)
  | div (a b : ExReal)
  | exp (a : ExReal)
  | ln (a : ExReal)
deriving DecidableEq, Repr, Inhabited

/-- The real number that an `atom` stands for: nothing is known of it, so what is proved of a term that holds
an atom is proved for every real in its place. A free value: no body. Log entry 1. -/
noncomputable opaque Config.atomValue : Nat → ℝ

/-- The domain `Time = Real ∪ {INF}` of rule R11. -/
inductive ETime where
  | fin (x : ExReal)
  | inf
deriving DecidableEq, Repr, Inhabited

/-- A strictly positive rational: the value of the RATIO port (rule R82) and of the register
`frequencyMultiple` ("Rat, strictly positive", rule R30). -/
structure PosRat where
  val : Rat
  pos : 0 < val
deriving DecidableEq, Repr

/-- The ratio 1/1, the reset value of `frequencyMultiple` (rule R30). -/
def PosRat.one : PosRat := ⟨1, by decide⟩

end Sys2Proof
end

