-- ==== Sys2Proof/Machine/Exact.lean ====
section
/-!
DEFINITION. Exact arithmetic on `ExReal` and `ETime` (rules R11, R12, R163, R164, R236): what a term denotes,
the operations of the rules, and the order of the real numbers. Nothing here rounds: the enclosures below
only decide WHICH of two exact reals is the smaller, and only where they are sure of it. Log entries 1 and 2.
-/

namespace Sys2Proof

namespace ExReal

/-- The real number a term denotes (rule R11; `exp` and `ln` are the real functions of rule R12). -/
noncomputable def val : ExReal → ℝ
  | rat q => (q : ℝ)
  | atom n => Config.atomValue n
  | add a b => a.val + b.val
  | mul a b => a.val * b.val
  | div a b => a.val / b.val
  | exp a => Real.exp a.val
  | ln a => Real.log a.val

/-- A term read as `k * x + p`. -/
structure Parts where
  k : Rat
  x : ExReal
  p : Rat

/-- The `k * x + p` reading of a term; a rational has `k = 0`. -/
def parts : ExReal → Parts
  | rat q => ⟨0, rat 0, q⟩
  | add (mul (rat k) x) (rat p) => ⟨k, x, p⟩
  | x => ⟨1, x, 0⟩

/-- The term `k * x + p`, a rational literal where `k = 0`. -/
def ofParts (k : Rat) (x : ExReal) (p : Rat) : ExReal :=
  if k = 0 then rat p
  else if k = 1 ∧ p = 0 then x
  else add (mul (rat k) x) (rat p)

/-- Addition; rational parts are added as rationals, and equal irrational parts are collected. -/
def plus (a b : ExReal) : ExReal :=
  let s := a.parts
  let t := b.parts
  if s.k = 0 then ofParts t.k t.x (s.p + t.p)
  else if t.k = 0 then ofParts s.k s.x (s.p + t.p)
  else if s.x = t.x then ofParts (s.k + t.k) s.x (s.p + t.p)
  else ofParts 1 (add (ofParts s.k s.x 0) (ofParts t.k t.x 0)) (s.p + t.p)

/-- Multiplication by a rational. -/
def scale (r : Rat) (a : ExReal) : ExReal :=
  let s := a.parts
  ofParts (r * s.k) s.x (r * s.p)

/-- Subtraction. -/
def minus (a b : ExReal) : ExReal := plus a (scale (-1) b)

/-- Multiplication. -/
def times (a b : ExReal) : ExReal :=
  match a, b with
  | rat p, b => scale p b
  | a, rat q => scale q a
  | a, b => mul a b

/-- Division; the rules divide by non-zero values only (rule R163). -/
def divBy (a b : ExReal) : ExReal :=
  match b with
  | rat q => scale q⁻¹ a
  | b => if a = rat 0 then rat 0 else div a b

/-- The exponential function of rule R12. -/
def expOf (a : ExReal) : ExReal := if a = rat 0 then rat 1 else exp a

/-- The natural logarithm of rule R12. -/
def lnOf (a : ExReal) : ExReal := if a = rat 1 then rat 0 else ln a

/-! ### Rational enclosures

`encl x = some (lo, hi)` says `lo ≤ x ≤ hi` (proved in Laws/Exact.lean); where the two ends settle a
comparison it is settled by computation. -/

/-- Rounded down to a multiple of `2^-160`. -/
def roundDown (r : Rat) : Rat := ((r * 2 ^ 160).floor : Rat) / 2 ^ 160

/-- Rounded up to a multiple of `2^-160`. -/
def roundUp (r : Rat) : Rat := -roundDown (-r)

/-- `n` squarings, each rounded down. -/
def squareDown : Nat → Rat → Rat
  | 0, r => r
  | n + 1, r => squareDown n (roundDown (r * r))

/-- `n` squarings, each rounded up. -/
def squareUp : Nat → Rat → Rat
  | 0, r => r
  | n + 1, r => squareUp n (roundUp (r * r))

/-- A lower bound of `exp x`: `(1 + x / 2^48) ^ 2^48`. -/
def expLower (x : Rat) : Rat :=
  if 0 ≤ 1 + x / 2 ^ 48 then squareDown 48 (1 + x / 2 ^ 48) else 0

/-- An upper bound of `exp x`, where there is one: `(1 / (1 - x / 2^48)) ^ 2^48`. -/
def expUpper (x : Rat) : Option Rat :=
  if x / 2 ^ 48 < 1 then some (squareUp 48 (roundUp (1 / (1 - x / 2 ^ 48)))) else none

/-- The sum `z + z^3/3 + z^5/5 + …` of `n` terms from the power `pw = z^m` on; an estimate only. -/
def atanhSum : Nat → Nat → Rat → Rat → Rat → Rat
  | 0, _, _, _, acc => acc
  | n + 1, m, z2, pw, acc => atanhSum n (m + 2) z2 (roundDown (pw * z2)) (roundDown (acc + pw / m))

/-- An estimate of `ln r` for `r` near 1; nothing is claimed of it. -/
def lnNear (r : Rat) : Rat :=
  let z := roundDown ((r - 1) / (r + 1))
  2 * atanhSum 60 1 (roundDown (z * z)) z 0

/-- How often `r` is halved to come below 2 (at most `fuel` times), and what is left. -/
def halvings : Nat → Nat → Rat → Nat × Rat
  | 0, k, r => (k, r)
  | fuel + 1, k, r => if 2 < r then halvings fuel (k + 1) (r / 2) else (k, r)

/-- An estimate of `ln r`; nothing is claimed of it, it is checked by `lnLower` and `lnUpper`. -/
def lnEstimate (r : Rat) : Rat :=
  let h := halvings 128 0 r
  roundDown (lnNear h.2 + h.1 * lnNear 2)

/-- How far `lnLower` and `lnUpper` step from the estimate. -/
def lnSlack (q : Rat) : Rat := (1 + q * q) / 2 ^ 40

/-- A lower bound of `ln r` for `r > 0`: the estimate where `expUpper` confirms it, else `1 - 1/r`. -/
def lnLower (r : Rat) : Rat :=
  let q := lnEstimate r
  let q := q - lnSlack q
  match expUpper q with
  | some u => if u ≤ r then q else 1 - r⁻¹
  | none => 1 - r⁻¹

/-- An upper bound of `ln r` for `r > 0`: the estimate where `expLower` confirms it, else `r - 1`. -/
def lnUpper (r : Rat) : Rat :=
  let q := lnEstimate r
  let q := q + lnSlack q
  if r ≤ expLower q then q else r - 1

/-- A rational enclosure of the term's value, where one is found. -/
def encl : ExReal → Option (Rat × Rat)
  | rat q => some (q, q)
  | atom _ => none
  | add a b =>
    match encl a, encl b with
    | some (l, h), some (m, k) => some (l + m, h + k)
    | _, _ => none
  | mul a b =>
    match encl a, encl b with
    | some (l, h), some (m, k) =>
      some (min (min (l * m) (l * k)) (min (h * m) (h * k)), max (max (l * m) (l * k)) (max (h * m) (h * k)))
    | _, _ => none
  | div a b =>
    match encl a, encl b with
    | some (l, h), some (m, k) =>
      if 0 < m ∨ k < 0 then
        some (min (min (l / m) (l / k)) (min (h / m) (h / k)), max (max (l / m) (l / k)) (max (h / m) (h / k)))
      else none
    | _, _ => none
  | exp a =>
    match encl a with
    | some (l, h) =>
      match expUpper h with
      | some u => some (expLower l, u)
      | none => none
    | none => none
  | ln a =>
    match encl a with
    | some (l, h) => if 0 < l then some (lnLower l, lnUpper h) else none
    | none => none

/-! ### Order

The order of two exact reals is a definite fact (rule R11) that no algorithm decides in every case. So the
comparison is computed where rational arithmetic or the enclosures settle it, and is otherwise the truth of
the matter, by the definitions that follow: their types leave them no other answer (the kernel does not
evaluate them, and run as programs they do not return). Log entry 2. -/

/-- Whether a term is negative, as a matter of fact. The type determines the answer. -/
def decNeg (a : ExReal) : Decidable (a.val < 0) := decNeg a
partial_fixpoint

/-- The integer part of a term's value, as a matter of fact. The type determines the answer. -/
def floorFact (a : ExReal) : Subtype (fun n : Int => n = ⌊a.val⌋) := floorFact a
partial_fixpoint

/-- Whether the term's value is below 0: by computation where that settles it. -/
def isNeg (d : ExReal) : Bool :=
  match d with
  | rat q => decide (q < 0)
  | d =>
    match encl d with
    | some (l, h) => if h < 0 then true else if 0 ≤ l then false else @decide _ (decNeg d)
    | none => @decide _ (decNeg d)

/-- `a < b` for the numbers denoted. -/
def lt (a b : ExReal) : Bool :=
  match a, b with
  | rat p, rat q => decide (p < q)
  | a, b => isNeg (minus a b)

/-- `a ≤ b` for the numbers denoted. -/
def le (a b : ExReal) : Bool := !lt b a

/-- `a = b` for the numbers denoted (two terms may denote one number). -/
def same (a b : ExReal) : Bool := le a b && le b a

/-- `floor(x)` of rule R12. -/
def floor (a : ExReal) : Int :=
  match a with
  | rat q => q.floor
  | a =>
    match encl a with
    | some (l, h) => if l.floor = h.floor then l.floor else (floorFact a).val
    | none => (floorFact a).val

/-- `round(x) = floor(x + 1/2)` of rule R12. -/
def round (a : ExReal) : Int := floor (plus a (rat (1 / 2)))

/-- `clamp(lo, hi, x) = max(lo, min(hi, x))` of rule R12. -/
def clamp (lo hi x : ExReal) : ExReal :=
  if lt x lo then lo else if lt hi x then hi else x

/-- The value lies within `tol` of the rational `q`, as far as the enclosure shows. For tests only. -/
def near (a : ExReal) (q tol : Rat) : Bool :=
  match encl a with
  | some (l, h) => decide (q - tol ≤ l ∧ h ≤ q + tol)
  | none => false

end ExReal

namespace ETime

/-- The order of rule R11: `x < INF` for every real x. -/
def lt : ETime → ETime → Bool
  | fin a, fin b => ExReal.lt a b
  | fin _, inf => true
  | inf, _ => false

/-- `a ≤ b`, with `INF <= INF` (rule R11). -/
def le (a b : ETime) : Bool := !lt b a

/-- `min` of two times. -/
def min (a b : ETime) : ETime := if lt b a then b else a

/-- `a - b` for a real b: `INF` when its minuend is INF (rule R129). -/
def minus : ETime → ExReal → ETime
  | fin a, b => fin (ExReal.minus a b)
  | inf, _ => inf

/-- `x / d` with `x / INF = 0` (rule R122, rule R129). -/
def divInto (x : ExReal) : ETime → ExReal
  | fin d => ExReal.divBy x d
  | inf => ExReal.rat 0

/-- Whether the time is finite. -/
def isFin : ETime → Bool
  | fin _ => true
  | inf => false

/-- The value in the extended reals; `INF` is the top element (rule R11). -/
noncomputable def val : ETime → EReal
  | fin x => (x.val : EReal)
  | inf => ⊤

end ETime

end Sys2Proof
end

