-- ==== Sys2Proof/Config.lean ====
section
/-!
DEFINITION. The configuration record `CFG` (rules R6 to R9): fixed before reset, written by no command. No
table's contents are in the spec (rule R6, U13), so the machine's own record is built on an opaque constant
and what is proved of the machine is proved for every valid record. The free values of the model stand here
too.
-/

namespace Sys2Proof

/-- The triple of an entry of SSG_DECODE: (inverted, jump, looping) (rule R107). -/
structure SsgShape where
  inverted : Bool
  jump : Bool
  looping : Bool
deriving DecidableEq, Repr, Inhabited

/-- An entry of ALG4: six depths for slots 2..7 and four output levels (rule R172). -/
structure Alg4 where
  d : Vector Rat 6
  out : Vector Rat 4
deriving DecidableEq, Repr, Inhabited

/-- An entry of ALG2: one depth and two output levels (rule R173). -/
structure Alg2 where
  d : Rat
  out : Vector Rat 2
deriving DecidableEq, Repr, Inhabited

/-- The fields of CFG that commands read (rules R7 to R9, R61). A table is a function of its index: an index
is exactly as wide as rule R61 says, so no read is out of range (rule R62). `PAN_LAW`, which no command reads
(rule R181), is `Config.panLaw`. -/
structure CfgData where
  /-- N_CH, 1 to 16. -/
  nCh : Nat
  /-- ENV_TICK, seconds per envelope tick. -/
  envTick : Rat
  /-- ENV_INCREMENT, level units per tick by rate code. -/
  envIncrement : BitVec 6 → Rat
  /-- ATTACK_TARGET, the attack's asymptote by rate code. -/
  attackTarget : BitVec 6 → ExReal
  /-- ATTACK_CONSTANT, the attack's time constant in ticks by rate code. -/
  attackConstant : BitVec 6 → ExReal
  /-- SSG_DECODE, by mode - 8. -/
  ssgDecode : BitVec 3 → SsgShape
  /-- FREQUENCY_STEP, Hertz per unit of full frequency number. -/
  frequencyStep : Rat
  /-- DETUNE_TABLE, by magnitude and key code. -/
  detuneTable : BitVec 2 → BitVec 5 → Nat
  /-- KEYCODE_LOW, by frequency number. -/
  keycodeLow : BitVec 11 → BitVec 2
  /-- ALG4, by algorithm number below N_ALG4 = 8. -/
  alg4 : Fin 8 → Alg4
  /-- ALG2, by algorithm number. -/
  alg2 : Fin 2 → Alg2
  /-- FEEDBACK_DEPTH, by feedback code. -/
  feedbackDepth : BitVec 3 → Rat
deriving Inhabited

/-- `N_ALG4` (rule R9: "`N_ALG4`: 8"). -/
def nAlg4 : Nat := 8

/-- The domain constraints of rules R7 to R9 and R222 (d); U9: "the model's configuration type carries the
constraints". DETUNE_TABLE has no upper bound, since rules R8, R61 and U9 give none, although rule R163 counts on
entries far below 0x1FFFF: DESIGN CHOICE, log entry 19. -/
abbrev CfgData.Valid (d : CfgData) : Prop :=
  (1 ≤ d.nCh ∧ d.nCh ≤ 16) ∧
  0 < d.envTick ∧
  (∀ c, 0 ≤ d.envIncrement c) ∧
  (∀ c, ExReal.lt (.rat 1023) (d.attackTarget c) = true) ∧
  (∀ c, ExReal.lt (.rat 0) (d.attackConstant c) = true) ∧
  d.ssgDecode 0 = ⟨false, false, true⟩ ∧
  0 < d.frequencyStep ∧
  (∀ kc, d.detuneTable 0 kc = 0) ∧
  d.feedbackDepth 0 = 0

/-- A configuration record that meets its constraints. -/
structure Cfg where
  data : CfgData
  valid : data.Valid

namespace Config

/-! ### The defaults of rules R107, R152, R154, R172, R173, R179 and the fixture CFG_TEST (95, section 1)

For tests only ("a claim may quantify over it or fix it", rule R6). -/

/-- Default SSG_DECODE: `inverted = m[2]`, `jump = m[1]`, `looping = NOT m[0]` (rule R107). -/
def defaultSsgDecode (m : BitVec 3) : SsgShape := ⟨m[2], m[1], !m[0]⟩

/-- Default KEYCODE_LOW (rule R152). -/
def defaultKeycodeLow (fn : BitVec 11) : BitVec 2 :=
  let n4 := fn[10]
  let n3 := (fn[10] && (fn[9] || fn[8] || fn[7])) || (!fn[10] && fn[9] && fn[8] && fn[7])
  BitVec.ofNat 2 (2 * n4.toNat + n3.toNat)

/-- Rows 1 to 3 of the default DETUNE_TABLE (rule R154). -/
def detuneRow1 : Vector Nat 32 :=
  #v[0,0,0,0, 1,1,1,1, 1,1,1,1, 2,2,2,2, 2,3,3,3, 4,4,4,5, 5,6,6,7, 8,8,8,8]

def detuneRow2 : Vector Nat 32 :=
  #v[1,1,1,1, 2,2,2,2, 2,3,3,3, 4,4,4,5, 5,6,6,7, 8,8,9,10, 11,12,13,14, 16,16,16,16]

def detuneRow3 : Vector Nat 32 :=
  #v[2,2,2,2, 2,3,3,3, 4,4,4,5, 5,6,6,7, 8,8,9,10, 11,12,13,14, 16,17,19,20, 22,22,22,22]

/-- Default DETUNE_TABLE (rule R154). -/
def defaultDetune (mag : BitVec 2) (kc : BitVec 5) : Nat :=
  match mag.toNat with
  | 0 => 0
  | 1 => detuneRow1[kc.toFin]
  | 2 => detuneRow2[kc.toFin]
  | _ => detuneRow3[kc.toFin]

/-- Default ALG4 (rule R172). -/
def defaultAlg4 (n : Fin 8) : Alg4 :=
  match n with
  | 0 => ⟨#v[1,0,0,1,0,1], #v[0,0,0,1]⟩
  | 1 => ⟨#v[0,1,0,1,0,1], #v[0,0,0,1]⟩
  | 2 => ⟨#v[0,0,1,1,0,1], #v[0,0,0,1]⟩
  | 3 => ⟨#v[1,0,0,0,1,1], #v[0,0,0,1]⟩
  | 4 => ⟨#v[1,0,0,0,0,1], #v[0,1,0,1]⟩
  | 5 => ⟨#v[1,1,1,0,0,0], #v[0,1,1,1]⟩
  | 6 => ⟨#v[1,0,0,0,0,0], #v[0,1,1,1]⟩
  | 7 => ⟨#v[0,0,0,0,0,0], #v[1,1,1,1]⟩

/-- Default ALG2 (rule R173). -/
def defaultAlg2 (n : Fin 2) : Alg2 :=
  match n with
  | 0 => ⟨1, #v[0, 1]⟩
  | 1 => ⟨0, #v[1, 1]⟩

/-- Default FEEDBACK_DEPTH: 0, then `2^(k - 7)` (rule R179). -/
def defaultFeedback (k : BitVec 3) : Rat := if k = 0 then 0 else 2 ^ k.toNat / 128

/-- The fields of the fixture CFG_TEST (95_test_vectors.md section 1). -/
def testData : CfgData where
  nCh := 2
  envTick := 1 / 1000
  envIncrement c := c.toNat
  attackTarget _ := .rat 2046
  attackConstant c := .rat (64 - c.toNat)
  ssgDecode := defaultSsgDecode
  frequencyStep := 1 / 16
  detuneTable := defaultDetune
  keycodeLow := defaultKeycodeLow
  alg4 := defaultAlg4
  alg2 := defaultAlg2
  feedbackDepth := defaultFeedback

theorem testData_valid : testData.Valid := by decide +kernel

/-- CFG_TEST, with its domain constraints proved. -/
def cfgTest : Cfg := ⟨testData, testData_valid⟩

/-! ### The machine's own record -/

/-- The fields the platform gives the machine's CFG. A free value: no body. -/
opaque given : CfgData

/-- The machine's CFG: the fields it is given, where they meet the constraints (U9 refuses the others before
there is a machine; an invalid `given` is replaced by a valid record). Nothing can be proved about which
valid record it is, so what is proved of it holds for each. Log entry 3. -/
def cfg : Cfg := if h : given.Valid then ⟨given, h⟩ else cfgTest

/-- PAN_LAW (rules R9, R181): from a pan value to a pair of non-negative gains. OPEN: no body. -/
noncomputable opaque panLaw : ℝ → NNReal × NNReal

/-- The default PAN_LAW of rule R181, on [-1, 1]. -/
noncomputable def defaultPanLaw (x : ℝ) : ℝ × ℝ := ((1 - x) / 2, (1 + x) / 2)

/-- One of the events that a sound renderer schedules on an SSG note after its attack (U12). -/
inductive TailAction where
  | set (v : ExReal)
  | linRamp (v : ExReal)
  | expRamp (v : ExReal)
  | cancelHold
  | target (g tc : ExReal)
deriving DecidableEq, Repr, Inhabited

/-- A tail event: what it does, and how much later than the event before it (or than `endAttack`). -/
structure TailEvent where
  action : TailAction
  delay : ExReal
deriving DecidableEq, Repr, Inhabited

/-- The GAIN events after `endAttack` of the n-th note keyed on with SSG enabled on a channel. The spec leaves
them unconstrained (rule R128, N7, U12): a free value, no body. Log entry 4. -/
opaque ssgTail : Fin 16 → Nat → List TailEvent

end Config

end Sys2Proof
end

