-- ==== Sys2Proof/Syntax.lean ====
section
/-!
DEFINITION. The 24 commands of rule R86, one constructor per row of spec/opcode_table.json. Operands are as
wide as their fields (rule R90), so that no numeric operand is out of range.
-/

namespace Sys2Proof

/-- The interpolation method of a format M command: 0, 1, 2 (rule R81; 3 is reserved). -/
inductive Method where
  | set
  | lin
  | exp
deriving DecidableEq, Repr

/-- The view operand of CH.USEALG: the four-operator channel or one of the two two-operator views
(rules R171, R174; 3 is not a view). -/
inductive View where
  | four
  | two0
  | two1
deriving DecidableEq, Repr

/-- The command set (rule R86, rule R93). `c` is the channel index, `o` the operator index 0..3 (rule R14),
`tv` the time-valid bit of rule R81. -/
inductive Instr where
  | egSetar (c : Fin 16) (o : Fin 4) (rate : BitVec 5)
  | egSetdr (c : Fin 16) (o : Fin 4) (rate : BitVec 5)
  | egSetsl (c : Fin 16) (o : Fin 4) (level : BitVec 10)
  | egSetsr (c : Fin 16) (o : Fin 4) (rate : BitVec 5)
  | egSetrr (c : Fin 16) (o : Fin 4) (rate : BitVec 5)
  | egSetrs (c : Fin 16) (o : Fin 4) (scaling : BitVec 2)
  | egSetssg (c : Fin 16) (o : Fin 4) (mode : BitVec 4)
  | egKeyon (c : Fin 16) (o : Fin 4) (tv : Bool) (tag : BitVec 8) (kc : BitVec 5)
  | egKeyoff (c : Fin 16) (o : Fin 4) (tv : Bool) (tag : BitVec 8) (kc : BitVec 5)
  | egSoundoff (c : Fin 16) (o : Fin 4) (tv : Bool)
  | egLevel (c : Fin 16) (o : Fin 4) (tv : Bool)
  | opSetfreq (c : Fin 16) (o : Fin 4) (tv : Bool) (m : Method) (block : BitVec 3) (fn : BitVec 11)
  | opSetdt (c : Fin 16) (o : Fin 4) (sign : Bool) (mag : BitVec 2)
  | opKeyon (c : Fin 16) (o : Fin 4) (tv : Bool) (tag : BitVec 8)
  | opKeyoff (c : Fin 16) (o : Fin 4) (tv : Bool) (tag : BitVec 8)
  | chUsealg (c : Fin 16) (tv : Bool) (view : View) (n : BitVec 4)
  | chSetfb (c : Fin 16) (o : Fin 4) (tv : Bool) (m : Method) (amount : BitVec 3)
  | chSetpan (c : Fin 16) (tv : Bool) (m : Method) (p : BitVec 8)
  | chEnop (c : Fin 16) (o : Fin 4)
  | chDisop (c : Fin 16) (o : Fin 4) (tv : Bool)
  | chKeyon (c : Fin 16) (tv : Bool) (tag : BitVec 8)
  | chKeyoff (c : Fin 16) (tv : Bool) (tag : BitVec 8)
  | chSoundoff (c : Fin 16) (tv : Bool)
  | chStop (c : Fin 16) (tv : Bool)
deriving DecidableEq, Repr

/-- The channel a command addresses (the `ch` field, rule R81). -/
def Instr.chan : Instr → Fin 16
  | .egSetar c _ _ | .egSetdr c _ _ | .egSetsl c _ _ | .egSetsr c _ _ | .egSetrr c _ _ | .egSetrs c _ _
  | .egSetssg c _ _ | .egKeyon c _ _ _ _ | .egKeyoff c _ _ _ _ | .egSoundoff c _ _ | .egLevel c _ _
  | .opSetfreq c _ _ _ _ _ | .opSetdt c _ _ _ | .opKeyon c _ _ _ | .opKeyoff c _ _ _ | .chUsealg c _ _ _
  | .chSetfb c _ _ _ _ | .chSetpan c _ _ _ | .chEnop c _ | .chDisop c _ _ | .chKeyon c _ _ | .chKeyoff c _ _
  | .chSoundoff c _ | .chStop c _ => c

/-- The time-valid bit of a command; format S has `tv = 0` (rule R85). -/
def Instr.timeValid : Instr → Bool
  | .egSetar _ _ _ | .egSetdr _ _ _ | .egSetsl _ _ _ | .egSetsr _ _ _ | .egSetrr _ _ _ | .egSetrs _ _ _
  | .egSetssg _ _ _ | .opSetdt _ _ _ _ | .chEnop _ _ => false
  | .egKeyon _ _ tv _ _ | .egKeyoff _ _ tv _ _ | .egSoundoff _ _ tv | .egLevel _ _ tv | .opSetfreq _ _ tv _ _ _
  | .opKeyon _ _ tv _ | .opKeyoff _ _ tv _ | .chUsealg _ tv _ _ | .chSetfb _ _ tv _ _ | .chSetpan _ tv _ _
  | .chDisop _ _ tv | .chKeyon _ tv _ | .chKeyoff _ tv _ | .chSoundoff _ tv | .chStop _ tv => tv

end Sys2Proof
end

