-- ==== Sys2Proof/WellFormed.lean ====
section
/-!
DEFINITION. Which terms are commands: the value conditions of rule R88 that speak of the command's own
operands. (`method = 3` and `view = 3` are not terms: `Method` and `View` have no such constructor. The
channel condition `ch < N_CH` depends on CFG and is `Cfg.hasChannel`; the TIME condition is of the port.)
-/

namespace Sys2Proof

/-- Rule R88 (3): `n < N_ALG4` when the view is the channel, `n < 2` on a two-operator view. -/
def algorithmInRange (view : View) (n : BitVec 4) : Bool :=
  match view with
  | .four => decide (n.toNat < nAlg4)
  | .two0 => decide (n.toNat < 2)
  | .two1 => decide (n.toNat < 2)

/-- Rule R88 (4): the pan pattern is not 0x80. -/
def panInRange (p : BitVec 8) : Bool := p != 0x80#8

/-- Rule R88 (3) and (4). -/
def WellFormed (i : Instr) : Bool :=
  match i with
  | .chUsealg _ _ view n => algorithmInRange view n
  | .chSetpan _ _ _ p => panInRange p
  | _ => true

/-- Rule R88 (1): `ch < N_CH`. Channel 0 always exists, since `N_CH` is at least 1 (rule R9). -/
def Cfg.hasChannel (cfg : Cfg) (c : Fin 16) : Bool := c.val == 0 || decide (c.val < cfg.data.nCh)

end Sys2Proof
end

