-- ==== Sys2Proof/Decode.lean ====
section
/-!
DEFINITION. The decoder of rule R87 over the opcode map of rule R86, and the encoder. A word is decoded by
its row's mask and match; then the operands' value conditions of rule R88 are checked. Every rejection has
a name, and every one answers status ILLEGAL (rule R202).
-/

namespace Sys2Proof

/-- The rows of the opcode map, in its order. -/
inductive Mnemonic where
  | egSetar | egSetdr | egSetsl | egSetsr | egSetrr | egSetrs | egSetssg | egKeyon | egKeyoff | egSoundoff
  | egLevel | opSetfreq | opSetdt | opKeyon | opKeyoff | chUsealg | chSetfb | chSetpan | chEnop | chDisop
  | chKeyon | chKeyoff | chSoundoff | chStop
deriving DecidableEq, Repr

/-- A row of the opcode map (rule R86). -/
structure Row where
  mnemonic : Mnemonic
  matchBits : Word
  mask : Word
deriving DecidableEq, Repr

/-- The opcode map of rule R86: mnemonic, match, mask. -/
def opcodeMap : List Row :=
  [⟨.egSetar, 0x04000000, 0xFC0FFFE0⟩, ⟨.egSetdr, 0x08000000, 0xFC0FFFE0⟩,
   ⟨.egSetsl, 0x0C000000, 0xFC0FFC00⟩, ⟨.egSetsr, 0x10000000, 0xFC0FFFE0⟩,
   ⟨.egSetrr, 0x14000000, 0xFC0FFFE0⟩, ⟨.egSetrs, 0x18000000, 0xFC0FFFFC⟩,
   ⟨.egSetssg, 0x1C000000, 0xFC0FFFF0⟩, ⟨.egKeyon, 0x20000000, 0xFC0700E0⟩,
   ⟨.egKeyoff, 0x24000000, 0xFC0700E0⟩, ⟨.egSoundoff, 0x28000000, 0xFC07FFFF⟩,
   ⟨.egLevel, 0x2C000000, 0xFC07FFFF⟩, ⟨.opSetfreq, 0x40000000, 0xFC01C000⟩] ++
  [⟨.opSetdt, 0x44000000, 0xFC0FFFF8⟩, ⟨.opKeyon, 0x48000000, 0xFC0700FF⟩,
   ⟨.opKeyoff, 0x4C000000, 0xFC0700FF⟩, ⟨.chUsealg, 0x60000000, 0xFC37FFC0⟩,
   ⟨.chSetfb, 0x64000000, 0xFC01FFF8⟩, ⟨.chSetpan, 0x68000000, 0xFC31FF00⟩,
   ⟨.chEnop, 0x6C000000, 0xFC0FFFFF⟩, ⟨.chDisop, 0x70000000, 0xFC07FFFF⟩,
   ⟨.chKeyon, 0x74000000, 0xFC3700FF⟩, ⟨.chKeyoff, 0x78000000, 0xFC3700FF⟩,
   ⟨.chSoundoff, 0x7C000000, 0xFC37FFFF⟩, ⟨.chStop, 0x80000000, 0xFC37FFFF⟩]

/-- Why a word spells no command (rule R205, rows 1 and 3 to 5). -/
inductive Illegal where
  /-- No row matches: an unassigned opcode or a must-be-zero bit set (rule R91). -/
  | noRow
  /-- `method = 3` on a format M command. -/
  | method
  /-- `CH.USEALG` with `view = 3`. -/
  | view
  /-- `CH.USEALG` with an algorithm number out of range. -/
  | algorithm
  /-- `CH.SETPAN` with the pan pattern 0x80. -/
  | pan
deriving DecidableEq, Repr

/-- The row that matches: `(w AND mask) = match` (rule R86, rule R87). -/
def rowOf (w : Word) : Option Mnemonic :=
  (opcodeMap.find? fun r => w &&& r.mask == r.matchBits).map Row.mnemonic

/-! ### Fields of the word (rule R81) -/

/-- `w[25:22]`, the channel index. -/
def fieldCh (w : Word) : Fin 16 := (w.extractLsb' 22 4).toFin

/-- `w[21:20]`, the operator index. -/
def fieldOp (w : Word) : Fin 4 := (w.extractLsb' 20 2).toFin

/-- `w[19]`, time valid. -/
def fieldTv (w : Word) : Bool := w.getLsbD 19

/-- `w[18:17]`, the method; 3 is reserved. -/
def fieldMethod (w : Word) : Option Method :=
  match (w.extractLsb' 17 2).toNat with
  | 0 => some .set
  | 1 => some .lin
  | 2 => some .exp
  | _ => none

/-- `imm[5:4]` of CH.USEALG; 3 is not a view. -/
def fieldView (w : Word) : Option View :=
  match (w.extractLsb' 4 2).toNat with
  | 0 => some .four
  | 1 => some .two0
  | 2 => some .two1
  | _ => none

/-- A format M command: its method must be 0, 1 or 2 (rule R88 (2)). -/
def withMethod (w : Word) (k : Method → Instr) : Except Illegal Instr :=
  match fieldMethod w with
  | some m => .ok (k m)
  | none => .error .method

/-- The operands of a matched row (rule R86's imm layout, rule R89: used as is), then rule R88 (2) to (4). -/
def operandsOf (m : Mnemonic) (w : Word) : Except Illegal Instr :=
  let c := fieldCh w
  let o := fieldOp w
  let tv := fieldTv w
  match m with
  | .egSetar => .ok (.egSetar c o (w.extractLsb' 0 5))
  | .egSetdr => .ok (.egSetdr c o (w.extractLsb' 0 5))
  | .egSetsl => .ok (.egSetsl c o (w.extractLsb' 0 10))
  | .egSetsr => .ok (.egSetsr c o (w.extractLsb' 0 5))
  | .egSetrr => .ok (.egSetrr c o (w.extractLsb' 0 5))
  | .egSetrs => .ok (.egSetrs c o (w.extractLsb' 0 2))
  | .egSetssg => .ok (.egSetssg c o (w.extractLsb' 0 4))
  | .egKeyon => .ok (.egKeyon c o tv (w.extractLsb' 8 8) (w.extractLsb' 0 5))
  | .egKeyoff => .ok (.egKeyoff c o tv (w.extractLsb' 8 8) (w.extractLsb' 0 5))
  | .egSoundoff => .ok (.egSoundoff c o tv)
  | .egLevel => .ok (.egLevel c o tv)
  | .opSetfreq => withMethod w fun me => .opSetfreq c o tv me (w.extractLsb' 11 3) (w.extractLsb' 0 11)
  | .opSetdt => .ok (.opSetdt c o (w.getLsbD 2) (w.extractLsb' 0 2))
  | .opKeyon => .ok (.opKeyon c o tv (w.extractLsb' 8 8))
  | .opKeyoff => .ok (.opKeyoff c o tv (w.extractLsb' 8 8))
  | .chUsealg =>
    match fieldView w with
    | none => .error .view
    | some v =>
      if algorithmInRange v (w.extractLsb' 0 4) then .ok (.chUsealg c tv v (w.extractLsb' 0 4))
      else .error .algorithm
  | .chSetfb => withMethod w fun me => .chSetfb c o tv me (w.extractLsb' 0 3)
  | .chSetpan =>
    match fieldMethod w with
    | none => .error .method
    | some me => if panInRange (w.extractLsb' 0 8) then .ok (.chSetpan c tv me (w.extractLsb' 0 8)) else .error .pan
  | .chEnop => .ok (.chEnop c o)
  | .chDisop => .ok (.chDisop c o tv)
  | .chKeyon => .ok (.chKeyon c tv (w.extractLsb' 8 8))
  | .chKeyoff => .ok (.chKeyoff c tv (w.extractLsb' 8 8))
  | .chSoundoff => .ok (.chSoundoff c tv)
  | .chStop => .ok (.chStop c tv)

/-- The decoder of rule R87: "find the row whose `(w AND mask) = match`; if none, status `ILLEGAL`; then
apply rule R88". The conditions of R88 that need CFG or the TIME port are applied by `commonChecks`
(Machine/Ops.lean); all of them answer the one status ILLEGAL, so their order is not seen. -/
def decode (w : Word) : Except Illegal Instr :=
  match rowOf w with
  | none => .error .noRow
  | some m => operandsOf m w

/-- The decoder on an instruction whose bits are numbered as spec/opcode_table.json numbers them. -/
def decodeTableWord (nbits w : Nat) : Option Instr :=
  match decode (BitVec.ofNat 32 (w % 2 ^ nbits)) with
  | .ok i => some i
  | .error _ => none

/-! ### The encoder -/

/-- The two method bits. -/
def Method.bits : Method → Nat
  | .set => 0
  | .lin => 1
  | .exp => 2

/-- The two view bits. -/
def View.bits : View → Nat
  | .four => 0
  | .two0 => 1
  | .two1 => 2

/-- `(opc << 26) | (ch << 22) | (op << 20) | (tv << 19) | (method << 17) | imm`
(rule R81; 95_test_vectors.md, preamble). -/
def word (opc : Nat) (c : Fin 16) (o : Fin 4) (tv : Bool) (m : Nat) (imm : Nat) : Word :=
  BitVec.ofNat 32 ((opc <<< 26) ||| (c.val <<< 22) ||| (o.val <<< 20) ||| (tv.toNat <<< 19) ||| (m <<< 17) ||| imm)

/-- The word that spells a command (rule R86). -/
def encode (i : Instr) : Word :=
  match i with
  | .egSetar c o r => word 0x01 c o false 0 r.toNat
  | .egSetdr c o r => word 0x02 c o false 0 r.toNat
  | .egSetsl c o l => word 0x03 c o false 0 l.toNat
  | .egSetsr c o r => word 0x04 c o false 0 r.toNat
  | .egSetrr c o r => word 0x05 c o false 0 r.toNat
  | .egSetrs c o r => word 0x06 c o false 0 r.toNat
  | .egSetssg c o m => word 0x07 c o false 0 m.toNat
  | .egKeyon c o tv tag kc => word 0x08 c o tv 0 ((tag.toNat <<< 8) ||| kc.toNat)
  | .egKeyoff c o tv tag kc => word 0x09 c o tv 0 ((tag.toNat <<< 8) ||| kc.toNat)
  | .egSoundoff c o tv => word 0x0A c o tv 0 0
  | .egLevel c o tv => word 0x0B c o tv 0 0
  | .opSetfreq c o tv m b fn => word 0x10 c o tv m.bits ((b.toNat <<< 11) ||| fn.toNat)
  | .opSetdt c o s mag => word 0x11 c o false 0 ((s.toNat <<< 2) ||| mag.toNat)
  | .opKeyon c o tv tag => word 0x12 c o tv 0 (tag.toNat <<< 8)
  | .opKeyoff c o tv tag => word 0x13 c o tv 0 (tag.toNat <<< 8)
  | .chUsealg c tv v n => word 0x18 c 0 tv 0 ((v.bits <<< 4) ||| n.toNat)
  | .chSetfb c o tv m a => word 0x19 c o tv m.bits a.toNat
  | .chSetpan c tv m p => word 0x1A c 0 tv m.bits p.toNat
  | .chEnop c o => word 0x1B c o false 0 0
  | .chDisop c o tv => word 0x1C c o tv 0 0
  | .chKeyon c tv tag => word 0x1D c 0 tv 0 (tag.toNat <<< 8)
  | .chKeyoff c tv tag => word 0x1E c 0 tv 0 (tag.toNat <<< 8)
  | .chSoundoff c tv => word 0x1F c 0 tv 0 0
  | .chStop c tv => word 0x20 c 0 tv 0 0

end Sys2Proof
end

