-- ==== Sys2Proof/Machine/State.lean ====
section
/-!
DEFINITION. The architectural state of rules R20 to R36, with the block's inputs and outputs beside it, and
the state after reset (rules R220, R221). Every register of rule R34's table is a field.
-/

namespace Sys2Proof.Machine

open Sys2Proof

/-- `egKey` (rule R28): IDLE = 0, ON = 1, OFF = 2; value 3 never occurs. -/
inductive EgKey where
  | idle
  | on
  | off
deriving DecidableEq, Repr

/-- One envelope `E[c][o]` (rules R21 to R29). -/
structure Envelope where
  -- parameter registers (rule R21)
  attackRate : BitVec 5
  decayRate : BitVec 5
  sustainRate : BitVec 5
  releaseRate : BitVec 5
  rateScaling : BitVec 2
  sustainLevel : BitVec 10
  -- mode flags (rule R22)
  ssgEnabled : Bool
  inverted : Bool
  jump : Bool
  looping : Bool
  -- snapshot written by key-on (rule R24)
  beginLevel : ExReal
  hasAttack : Bool
  beginAttack : ExReal
  prevAttackRate : BitVec 6
  endAttack : ETime
  endDecay : ETime
  endSustain : ETime
  -- snapshot written by key-off and sound-off (rule R25)
  beginRelease : ExReal
  releaseLevel : ExReal
  endRelease : ETime
  -- copies taken at key-on (rule R27)
  snapSL : BitVec 10
  snapSSG : Bool
  snapInv : Bool
  snapJmp : Bool
  snapLoop : Bool
  -- further state (rule R28)
  egKey : EgKey
  srcTag : BitVec 8
  silentAt : ETime
  lastTime : ExReal
  -- hidden state (rule R29)
  ssgCacheValid : Bool
deriving DecidableEq, Repr

/-- The signed detune register, -3..+3, "stored as sign and 2-bit magnitude" (rule R30). -/
structure Detune where
  neg : Bool
  mag : BitVec 2
deriving DecidableEq, Repr

/-- One operator's frequency registers and lifecycle bit `O[c][o]` (rules R30, R31). -/
structure Operator where
  freqBlockNumber : BitVec 3
  frequencyNumber : BitVec 11
  frequencyMultiple : PosRat
  detune : Detune
  keyCode : BitVec 5
  frequency : Rat
  freqLastTime : ExReal
  enabled : Bool
deriving DecidableEq, Repr

/-- One channel: its four envelopes and operators and its control registers `C[c]` (rules R32, R33). -/
structure Channel where
  envs : Vector Envelope 4
  oprs : Vector Operator 4
  /-- The modulation-depth slots `G[0..7]`. -/
  g : Vector Rat 8
  outLevel : Vector Rat 4
  algorithm : BitVec 4
  alg2 : Vector (BitVec 1) 2
  fbCode : Vector (BitVec 3) 2
  /-- Signed 8 bits; 0x80 is never stored. -/
  pan : BitVec 8
  stopped : Bool
  routeLastTime : ExReal
deriving DecidableEq, Repr

/-- A controllable parameter (rule R64). -/
inductive Param where
  | gain (c : Fin 16) (o : Fin 4)
  | freq (c : Fin 16) (o : Fin 4)
  | mod (c : Fin 16) (s : Fin 8)
  | out (c : Fin 16) (o : Fin 4)
  | pan (c : Fin 16)
deriving DecidableEq, Repr

/-- An emitted event (rules R65 and R68). Times of events are finite. -/
inductive Event where
  | set (p : Param) (v t : ExReal)
  | linRamp (p : Param) (v t : ExReal)
  | expRamp (p : Param) (v t : ExReal)
  | cancelHold (p : Param) (t : ExReal)
  | target (p : Param) (g t tc : ExReal)
  | stop (c : Fin 16) (o : Fin 4) (tag : BitVec 8) (t : ExReal)
deriving DecidableEq, Repr

/-- The statuses a command can answer and the machine go on (rule R200). `UNDEFINED` is the fourth: its
command has no successor state (rule R204) and is a `Refusal`. -/
inductive Status where
  | ok
  | illegal
  | missingOperand
deriving DecidableEq, Repr

/-- The 2-bit status code (rule R200). -/
def Status.code : Status → BitVec 2
  | .ok => 0
  | .illegal => 1
  | .missingOperand => 2

/-- The response to a command (rule R84). -/
structure Response where
  status : Status
  value : ExReal
deriving DecidableEq, Repr

/-- What the TIME port holds: a real, or nothing that is a finite real (rule R82, rule R88 (5)). -/
inductive TimePort where
  | real (x : ExReal)
  | notFinite
deriving DecidableEq, Repr

/-- The operand ports sampled with a command (rule R82): TIME, RATIO with its valid bit (`none` is `rv = 0`),
and the host clock NOW. -/
structure Ports where
  time : TimePort
  ratio : Option PosRat
  now : ExReal
deriving DecidableEq, Repr

/-- What the host does to the block (rule R214): a command word with its ports, or the reset input. -/
inductive HostInput where
  | command (w : Word) (ports : Ports)
  | reset
deriving DecidableEq, Repr

/-- The machine. `chans` is all the registers (a bank per value of the `ch` field; those from `N_CH` on do
not exist: no command reaches them). The other fields are the model's own (log entry 5): the inputs not yet
taken, the ports of the command at hand, and the record of what the block has put out. -/
structure State where
  chans : Vector Channel 16
  /-- What the host has still to present, first first. -/
  inputs : List HostInput
  /-- The operand ports as sampled with the command at hand (rule R80). -/
  ports : Ports
  /-- The responses given, oldest first (rule R84). -/
  responses : List Response
  /-- The event stream, in order of emission (rule R70). -/
  events : List Event
  /-- How many free values have been taken, by channel (log entry 4). -/
  freeCounts : Vector Nat 16
deriving DecidableEq, Repr

/-- Why the machine could stop with a fault: never. "No exception-based control flow in the core" (rule R206):
the block has no trap, so there is no reason to list. -/
inductive Fault where
deriving DecidableEq, Repr

/-- Why a step has no successor state. Rule R204: "A model must not pick one behaviour: it must refuse the
run from that command on (its step function returns no successor state)". All are SAFE: no claim can be
proved of the state after one. -/
inductive Refusal where
  /-- Raised by an arm of `exec` whose instruction has no meaning yet. Safe. -/
  | notModelled (mnemonic : String)
  /-- UNDEFINED: any command on a channel after its CH.STOP (rule R203 (3), U2). Raised by every command. Safe. -/
  | undefinedStopped
  /-- UNDEFINED: CH.SETFB on operator number 2 or 4 (rule R178, U3). Raised by CH.SETFB. Safe. -/
  | undefinedOperatorNumber
  /-- UNDEFINED: a time earlier than the guarding last-time register (rule R226, U1). Raised by the timed
  commands, EG.LEVEL and CH.STOP excepted. Safe. -/
  | undefinedTimeOrder
  /-- UNDEFINED: the level before the current note's key-on (rule R130 (c), U5). Raised by EG.LEVEL, and by a
  key-on or key-off in states no run reaches. Safe. -/
  | undefinedLevel
deriving DecidableEq, Repr

/-- Every envelope register at its reset value (rule R34). -/
def Envelope.reset : Envelope where
  attackRate := 0
  decayRate := 0
  sustainRate := 0
  releaseRate := 0
  rateScaling := 0
  sustainLevel := 0
  ssgEnabled := false
  inverted := false
  jump := false
  looping := false
  beginLevel := .rat 0
  hasAttack := false
  beginAttack := .rat 0
  prevAttackRate := 0
  endAttack := .fin (.rat 0)
  endDecay := .fin (.rat 0)
  endSustain := .fin (.rat 0)
  beginRelease := .rat 0
  releaseLevel := .rat 0
  endRelease := .fin (.rat 0)
  snapSL := 0
  snapSSG := false
  snapInv := false
  snapJmp := false
  snapLoop := false
  egKey := .idle
  srcTag := 0
  silentAt := .inf
  lastTime := .rat 0
  ssgCacheValid := false

/-- Every operator register at its reset value (rule R34). -/
def Operator.reset : Operator where
  freqBlockNumber := 0
  frequencyNumber := 0
  frequencyMultiple := PosRat.one
  detune := ⟨false, 0⟩
  keyCode := 0
  frequency := 0
  freqLastTime := .rat 0
  enabled := false

/-- Every channel register at its reset value (rule R34). -/
def Channel.reset : Channel where
  envs := Vector.replicate 4 Envelope.reset
  oprs := Vector.replicate 4 Operator.reset
  g := Vector.replicate 8 0
  outLevel := Vector.replicate 4 0
  algorithm := 0
  alg2 := Vector.replicate 2 0
  fbCode := Vector.replicate 2 0
  pan := 0
  stopped := false
  routeLastTime := .rat 0

/-- The state after reset (rules R220, R221): every register of every channel at its reset value, no event
emitted. The ports are inputs and hold nothing yet: TIME and NOW 0, RATIO not valid (log entry 5). -/
def State.reset : State where
  chans := Vector.replicate 16 Channel.reset
  inputs := []
  ports := ⟨.real (.rat 0), none, .rat 0⟩
  responses := []
  events := []
  freeCounts := Vector.replicate 16 0

end Sys2Proof.Machine
end

