-- ==== Sys2Proof/Machine/Flags.lean ====
section
/-!
DEFINITION. The flag-like state of the block (rules R22, R29): the four SSG mode flags, their decoding, their
copies at key-on, and the cache-valid bit. "no command sets a flag as a side effect of computing something
else" (rule R22).
-/

namespace Sys2Proof.Machine

open Sys2Proof

/-- The four mode flags as one value: (ssgEnabled, inverted, jump, looping). -/
structure ModeFlags where
  ssgEnabled : Bool
  inverted : Bool
  jump : Bool
  looping : Bool
deriving DecidableEq, Repr

/-- The flags a mode operand selects: below 8 all four are 0, from 8 on SSG_DECODE's triple with
`ssgEnabled = 1` (rule R106). -/
def modeFlags (cfg : Cfg) (mode : BitVec 4) : ModeFlags :=
  if mode.toNat < 8 then ⟨false, false, false, false⟩
  else
    let shape := cfg.data.ssgDecode (mode.setWidth 3)
    ⟨true, shape.inverted, shape.jump, shape.looping⟩

/-- EG.SETSSG on an envelope: the flags are replaced, and the cache-valid bit is cleared "exactly when the
new `inverted` differs from the old or the new `jump` differs from the old" (rules R106, R108). -/
def Envelope.setMode (e : Envelope) (m : ModeFlags) : Envelope :=
  { e with
    ssgEnabled := m.ssgEnabled
    inverted := m.inverted
    jump := m.jump
    looping := m.looping
    ssgCacheValid := if m.inverted != e.inverted || m.jump != e.jump then false else e.ssgCacheValid }

/-- The copies of the mode flags and the sustain level taken at key-on (rule R27). -/
def Envelope.takeCopies (e : Envelope) : Envelope :=
  { e with
    snapSL := e.sustainLevel
    snapSSG := e.ssgEnabled
    snapInv := e.inverted
    snapJmp := e.jump
    snapLoop := e.looping
    ssgCacheValid := e.ssgEnabled || e.ssgCacheValid }

end Sys2Proof.Machine
end

