-- ==== Sys2Proof/Machine/Operands.lean ====
section
/-!
DEFINITION. Operand assembly (rules R82, R83, R88 (5), R89): the time of a command, the signed operands, and
the event a method chooses.
-/

namespace Sys2Proof.Machine

open Sys2Proof

/-- The command's time: `TIME` when `tv = 1`, `NOW` when `tv = 0` (rule R83). `none` where `tv = 1` and the
TIME port does not hold a finite non-negative real (rule R88 (5)). -/
def commandTime (p : Ports) (tv : Bool) : Option ExReal :=
  match tv with
  | false => some p.now
  | true =>
    match p.time with
    | .notFinite => none
    | .real x => if ExReal.lt x (.rat 0) then none else some x

/-- The detune operand: sign and magnitude; "the pattern `imm[2:0] = 0b100` (minus zero) is accepted and
means 0" (rule R89), "stores 0" (rule R159). -/
def detuneOperand (sign : Bool) (mag : BitVec 2) : Detune := ⟨sign && mag != 0#2, mag⟩

/-- The signed value of a detune setting. -/
def Detune.value (d : Detune) : Int := if d.neg then -(d.mag.toNat : Int) else d.mag.toNat

/-- The pan value `p / 127` of the two's complement pan operand (rule R89). -/
def panValue (p : BitVec 8) : Rat := p.toInt / 127

/-- One event of the chosen method (rules R85, R158). -/
def methodEvent (m : Method) (p : Param) (v t : ExReal) : Event :=
  match m with
  | .set => .set p v t
  | .lin => .linRamp p v t
  | .exp => .expRamp p v t

/-- A level as the gain that is emitted for it: "gain = `Level / 1023`, linear" (D14). -/
def gainOf (level : ExReal) : ExReal := ExReal.scale (1 / 1023) level

end Sys2Proof.Machine
end

