-- ==== Sys2Proof/Machine/Ops.lean ====
section
/-!
DEFINITION. The named operations over registers and outputs that the meanings share: reaching a register,
emitting events, answering, and the common checks of rule R203. The block has no exception (rule R206): what
other machines do by taking one, it does by answering a status, `illegal` and `missingOperand` below, or by
having no successor state (`.refused`, rule R204).
-/

namespace Sys2Proof.Machine

open Sys2Proof

/-- What a command answers. -/
abbrev Result := Host.Outcome State Fault Refusal

/-! ### Registers (rule R60 (c): reached by the `ch` and `op` fields only) -/

/-- Channel c. -/
def State.chan (s : State) (c : Fin 16) : Channel := s.chans[c.val]

/-- Channel c replaced. -/
def State.putChan (s : State) (c : Fin 16) (ch : Channel) : State :=
  { s with chans := s.chans.set c.val ch }

/-- The envelope `E[c][o]`. -/
def State.env (s : State) (c : Fin 16) (o : Fin 4) : Envelope := (s.chan c).envs[o.val]

/-- `E[c][o]` replaced. -/
def State.putEnv (s : State) (c : Fin 16) (o : Fin 4) (e : Envelope) : State :=
  s.putChan c { s.chan c with envs := (s.chan c).envs.set o.val e }

/-- The operator registers `O[c][o]`. -/
def State.opr (s : State) (c : Fin 16) (o : Fin 4) : Operator := (s.chan c).oprs[o.val]

/-- `O[c][o]` replaced. -/
def State.putOpr (s : State) (c : Fin 16) (o : Fin 4) (r : Operator) : State :=
  s.putChan c { s.chan c with oprs := (s.chan c).oprs.set o.val r }

/-! ### The model's own counters of free values (log entry 4) -/

/-- How many free values channel c has taken. -/
def State.freeCount (s : State) (c : Fin 16) : Nat := s.freeCounts[c.val]

/-- Channel c takes a free value. -/
def State.useFree (s : State) (c : Fin 16) : State :=
  { s with freeCounts := s.freeCounts.set c.val (s.freeCount c + 1) }

/-! ### Outputs -/

/-- `emit`: events appended to the stream in order (rule R13, rule R70). -/
def State.emit (s : State) (evs : List Event) : State := { s with events := s.events ++ evs }

/-- The response of a command (rule R84). -/
def State.respond (s : State) (st : Status) (v : ExReal) : State :=
  { s with responses := s.responses ++ [⟨st, v⟩] }

/-- `return OK`: a value of zero (rule R84). -/
def answerOk (s : State) : Result := .next (s.respond .ok (.rat 0))

/-- `return OK(v)`, of EG.LEVEL. -/
def answerValue (s : State) (v : ExReal) : Result := .next (s.respond .ok v)

/-- Status ILLEGAL: "no register is written, no event is emitted" (rule R202). -/
def illegal (s : State) : Result := .next (s.respond .illegal (.rat 0))

/-- Status MISSING_OPERAND: "no register is written and no event is emitted" (rule R201). -/
def missingOperand (s : State) : Result := .next (s.respond .missingOperand (.rat 0))

/-- A command whose effect may turn out UNDEFINED on the way: then it has no successor state (rule R204), so
nothing of it is partly performed (rule R184). -/
def finish (r : Except Refusal State) : Result :=
  match r with
  | .ok s => answerOk s
  | .error u => .refused u

/-- An operation performed on operator indices 0, 1, 2, 3 in that order (rules R184 to R187). -/
def forOperators (f : Fin 4 → State → Except Refusal State) (s : State) : Except Refusal State :=
  [0, 1, 2, 3].foldlM (fun t o => f o t) s

/-! ### The common checks of rule R203, steps (2) and (3) -/

/-- The outcome of the checks: ILLEGAL, UNDEFINED for a stopped channel, or the command's time. -/
inductive Checked where
  | illegal
  | stopped
  | time (t : ExReal)
deriving DecidableEq, Repr

/-- Steps (2) and (3) of rule R203: the value conditions of rule R88 (the channel exists, the operands'
conditions `form`, the TIME port where it is used), then `stopped`. -/
def commonChecks (cfg : Cfg) (c : Fin 16) (tv form : Bool) (s : State) : Checked :=
  if cfg.hasChannel c && form then
    match commandTime s.ports tv with
    | none => .illegal
    | some t => if (s.chan c).stopped then .stopped else .time t
  else .illegal

/-- A command's body behind the common checks. -/
def withChecks (cfg : Cfg) (c : Fin 16) (tv form : Bool) (s : State) (body : ExReal → Result) : Result :=
  match commonChecks cfg c tv form s with
  | .illegal => illegal s
  | .stopped => .refused .undefinedStopped
  | .time t => body t

end Sys2Proof.Machine
end

