-- ==== Sys2Proof/Machine/Rates.lean ====
section
/-!
DEFINITION. Rate lookup, key scaling and the phase end times a key-on computes (rules R120 to R125).
-/

namespace Sys2Proof.Machine

open Sys2Proof

/-- `rateAdjust(kc, rs) = kc >> (3 - rs)` (rule R120). -/
def rateAdjust (kc : BitVec 5) (rs : BitVec 2) : Nat := kc.toNat >>> (3 - rs.toNat)

/-- `rateCode(r, adj, off) = min(63, round(2 * r + off + adj))`; the rounding is the identity on integers
(rule R121). -/
def rateCode (r : BitVec 5) (adj off : Nat) : BitVec 6 := BitVec.ofNat 6 (min 63 (2 * r.toNat + off + adj))

/-- `incPerSec(c) = ENV_INCREMENT[c] / ENV_TICK`, level units per second (rule R122). -/
def incPerSec (cfg : Cfg) (c : BitVec 6) : Rat := cfg.data.envIncrement c / cfg.data.envTick

/-- `tau(c) = ATTACK_CONSTANT[c] * ENV_TICK`, in seconds (rule R7). -/
def tau (cfg : Cfg) (c : BitVec 6) : ExReal := ExReal.scale cfg.data.envTick (cfg.data.attackConstant c)

/-- What a key-on fixes about its attack. -/
structure AttackPlan where
  hasAttack : Bool
  prevAttackRate : BitVec 6
  endAttack : ETime
deriving DecidableEq, Repr

/-- The attack of rule R123: (a) skipped when inverted; (b) endless when the attack rate is 0, whatever `adj`
is; (c) else an exponential approach to a target above 1023, which reaches 1023 at
`T + tc * ln((g - b) / (g - 1023))`. -/
def attackPlan (cfg : Cfg) (t b : ExReal) (attackRate : BitVec 5) (inverted : Bool) (adj : Nat) : AttackPlan :=
  if inverted then ⟨false, 0, .fin t⟩
  else if attackRate = 0 then ⟨true, 0, .inf⟩
  else
    let ca := rateCode attackRate adj 0
    let g := cfg.data.attackTarget ca
    let ratio := ExReal.divBy (ExReal.minus g b) (ExReal.minus g (.rat 1023))
    ⟨true, ca, .fin (ExReal.plus t (ExReal.times (tau cfg ca) (ExReal.lnOf ratio)))⟩

/-- The end of the decay, tested in the order of rule R124. -/
def decayEnd (cfg : Cfg) (endAttack : ETime) (decayRate : BitVec 5) (sustainLevel : BitVec 10) (adj : Nat) : ETime :=
  match endAttack with
  | .inf => .inf
  | .fin a =>
    if decayRate = 0 then .inf
    else if sustainLevel = 1023#10 then .fin a
    else
      let slope := incPerSec cfg (rateCode decayRate adj 0)
      if slope = 0 then .inf
      else .fin (ExReal.plus a (.rat ((1023 - sustainLevel.toNat) / slope)))

/-- The end of the sustain, tested in the order of rule R125. -/
def sustainEnd (cfg : Cfg) (endDecay : ETime) (sustainRate : BitVec 5) (sustainLevel : BitVec 10) (adj : Nat) : ETime :=
  match endDecay with
  | .inf => .inf
  | .fin d =>
    if sustainLevel = 0 then .fin d
    else if sustainRate = 0 then .inf
    else
      let slope := incPerSec cfg (rateCode sustainRate adj 0)
      if slope = 0 then .inf
      else .fin (ExReal.plus d (.rat (sustainLevel.toNat / slope)))

/-- The end of a release from level `l` at `t` (rule R135): at once from level 0, never at slope 0. -/
def releaseEnd (cfg : Cfg) (t l : ExReal) (releaseRate : BitVec 5) (adj : Nat) : ETime :=
  let slope := incPerSec cfg (rateCode releaseRate adj 1)
  if ExReal.same l (.rat 0) then .fin t
  else if slope = 0 then .inf
  else .fin (ExReal.plus t (ExReal.divBy l (.rat slope)))

end Sys2Proof.Machine
end

