-- ==== Sys2Proof/Machine/Level.lean ====
section
/-!
DEFINITION. The level function of rules R129 to R134, the silence time of rule R127, the phase of rule R140
and the lifecycle of rule R190: the functions of time over the state (rule R17).
-/

namespace Sys2Proof.Machine

open Sys2Proof

/-- The base profile `D(s)` of a note whose attack ended at `a` (rule R129, with `x / INF = 0`): 1023 falling
linearly to `snapSL` at `endDecay`, then to 0 at `endSustain`, then 0. -/
def Envelope.baseProfile (e : Envelope) (a s : ExReal) : ExReal :=
  let sl : Rat := e.snapSL.toNat
  match e.endDecay with
  | .inf => .rat 1023
  | .fin d =>
    let td := ExReal.minus d a
    if ExReal.lt s td then ExReal.minus (.rat 1023) (ExReal.divBy (ExReal.scale (1023 - sl) s) td)
    else
      match e.endSustain with
      | .inf => .rat sl
      | .fin p =>
        if ExReal.lt s (ExReal.minus p a) then
          ExReal.minus (.rat sl) (ExReal.divBy (ExReal.scale sl (ExReal.minus s td)) (ExReal.minus p d))
        else .rat 0

/-- The cycle number `k = floor(s / P)` of a finite cycle length (rule R133). -/
def cycleNumber (s p : ExReal) : Int := ExReal.floor (ExReal.divBy s p)

/-- `f = s - k * P` (rule R133). -/
def cyclePosition (s p : ExReal) : ExReal := ExReal.minus s (ExReal.scale (cycleNumber s p) p)

/-- The post-attack ramp value `Post(e, s)` (rule R132 without SSG, rule R133 with SSG). -/
def Envelope.post (e : Envelope) (a s : ExReal) : ExReal :=
  match e.snapSSG, e.endSustain with
  | false, _ => e.baseProfile a s
  | true, .inf => e.baseProfile a s
  | true, .fin q =>
    let p := ExReal.minus q a
    match e.snapLoop, e.snapJmp with
    | false, false => e.baseProfile a s
    | false, true => if ExReal.lt s p then e.baseProfile a s else .rat 1023
    | true, true => e.baseProfile a (cyclePosition s p)
    | true, false =>
      if cycleNumber s p % 2 = 0 then e.baseProfile a (cyclePosition s p)
      else ExReal.minus (.rat 1023) (e.baseProfile a (cyclePosition s p))

/-- The attack branch (rule R131). -/
def Envelope.attackLevel (cfg : Cfg) (e : Envelope) (t : ExReal) : ExReal :=
  if e.prevAttackRate = 0 then e.beginLevel
  else
    let g := cfg.data.attackTarget e.prevAttackRate
    let decay := ExReal.expOf (ExReal.scale (-1) (ExReal.divBy (ExReal.minus t e.beginAttack) (tau cfg e.prevAttackRate)))
    ExReal.clamp (.rat 0) (.rat 1023) (ExReal.minus g (ExReal.times (ExReal.minus g e.beginLevel) decay))

/-- Branches (d) and (e) of rule R130: the note's level from `beginAttack` on. The inversion is applied here
and nowhere else. -/
def Envelope.noteLevel (cfg : Cfg) (e : Envelope) (t : ExReal) : ExReal :=
  match e.endAttack with
  | .inf => e.attackLevel cfg t
  | .fin a =>
    if ExReal.lt t a then e.attackLevel cfg t
    else
      let x := e.post a (ExReal.minus t a)
      if e.snapInv then ExReal.minus (.rat 1023) x else x

/-- The release branch (rule R134). -/
def Envelope.releaseAt (e : Envelope) (t : ExReal) : ExReal :=
  match e.endRelease with
  | .inf => e.releaseLevel
  | .fin r =>
    if ExReal.lt t r then
      ExReal.divBy (ExReal.times e.releaseLevel (ExReal.minus r t)) (ExReal.minus r e.beginRelease)
    else .rat 0

/-- Branches (c) to (e) of rule R130; `none` is (c), undefined before the current note. -/
def Envelope.keyedLevel (cfg : Cfg) (e : Envelope) (t : ExReal) : Option ExReal :=
  if ExReal.lt t e.beginAttack then none else some (e.noteLevel cfg t)

/-- `Level(c, o, t)` of rule R130; `none` where it is undefined. -/
def Envelope.level (cfg : Cfg) (e : Envelope) (t : ExReal) : Option ExReal :=
  match e.egKey with
  | .idle => some (.rat 0)
  | .off => if ExReal.le e.beginRelease t then some (e.releaseAt t) else e.keyedLevel cfg t
  | .on => e.keyedLevel cfg t

/-- `stopTime(e)` of rule R127: when the note falls silent with no further phase. -/
def Envelope.stopTime (e : Envelope) : ETime :=
  match e.endSustain with
  | .inf => .inf
  | .fin q =>
    if e.snapSSG then
      if e.snapLoop then .inf
      else
        -- `xEnd` is 1023 exactly when `snapJmp`; the level held is `xEnd`, inverted when `snapInv`
        if e.snapJmp == e.snapInv then .fin q else .inf
    else .fin q

/-- The phases of rule R140. -/
inductive Phase where
  | idle
  | release
  | silent
  | attack
  | decay
  | sustain
  | ended
  | cycle (k : Int)
  | hold
deriving DecidableEq, Repr

/-- The phase of the current note from `beginAttack` on (rule R140). -/
def Envelope.notePhase (e : Envelope) (t : ExReal) : Phase :=
  if ETime.lt (.fin t) e.endAttack then .attack
  else if e.snapSSG then
    match e.endAttack, e.endSustain with
    | .fin a, .fin q =>
      if !e.snapLoop && !ExReal.lt t q then .hold
      else .cycle (cycleNumber (ExReal.minus t a) (ExReal.minus q a))
    | _, _ => .cycle 0
  else if ETime.lt (.fin t) e.endDecay then .decay
  else if ETime.lt (.fin t) e.endSustain then .sustain
  else .ended

/-- `Phase(c, o, t)` of rule R140; `none` before the current note. -/
def Envelope.phase (e : Envelope) (t : ExReal) : Option Phase :=
  match e.egKey with
  | .idle => some .idle
  | .off =>
    if ETime.le e.endRelease (.fin t) then some .silent
    else if ExReal.le e.beginRelease t then some .release
    else if ExReal.lt t e.beginAttack then none else some (e.notePhase t)
  | .on => if ExReal.lt t e.beginAttack then none else some (e.notePhase t)

/-- The five lifecycle states of rule R190. -/
inductive Life where
  | disabled
  | enabled
  | silent
  | keyedOn
  | keyedOff
deriving DecidableEq, Repr

/-- `Life(c, o, t)`, tested in the order of rule R190. -/
def State.life (s : State) (c : Fin 16) (o : Fin 4) (t : ExReal) : Life :=
  if !(s.opr c o).enabled then .disabled
  else if (s.env c o).egKey = .idle then .enabled
  else if ETime.le (s.env c o).silentAt (.fin t) then .silent
  else if (s.env c o).egKey = .on then .keyedOn
  else .keyedOff

/-- `Level(c, o, t)` of the machine's own CFG. -/
def State.level (s : State) (c : Fin 16) (o : Fin 4) (t : ExReal) : Option ExReal :=
  (s.env c o).level Config.cfg t

end Sys2Proof.Machine
end

