-- ==== Sys2Proof/Machine/Keying.lean ====
section
/-!
DEFINITION. EG.KEYON, EG.KEYOFF, EG.SOUNDOFF, EG.LEVEL (rules R126 to R139). Key-on, key-off and sound-off of
one envelope are shared operations that the composite commands perform (rules R160, R161, R183 to R187).
-/

namespace Sys2Proof.Machine

open Sys2Proof

/-! ### Key-on -/

/-- The time order check of rule R226: `T >= last`. -/
def timeOrdered (t last : ExReal) : Bool := ExReal.le last t

/-- The registers a key-on at `t` with begin level `b` leaves (the pseudocode of rule R126), `silentAt` from
the new snapshot's `stopTime` (rule R127). -/
def Envelope.keyOn (cfg : Cfg) (e : Envelope) (tag : BitVec 8) (kc : BitVec 5) (t b : ExReal) : Envelope :=
  let adj := rateAdjust kc e.rateScaling
  let plan := attackPlan cfg t b e.attackRate e.inverted adj
  let eD := decayEnd cfg plan.endAttack e.decayRate e.sustainLevel adj
  let eS := sustainEnd cfg eD e.sustainRate e.sustainLevel adj
  let note : Envelope :=
    { e.takeCopies with
      beginLevel := b
      hasAttack := plan.hasAttack
      beginAttack := t
      prevAttackRate := plan.prevAttackRate
      endAttack := plan.endAttack
      endDecay := eD
      endSustain := eS
      egKey := .on
      srcTag := tag
      lastTime := t }
  { note with silentAt := note.stopTime }

/-- The GAIN events after the attack of an SSG note: not specified (rule R128, U12). Whatever they are, they
are GAIN events in time order (rule R71). Log entry 4. -/
def tailEvents (p : Param) (from_ : ExReal) : List Config.TailEvent → List Event
  | [] => []
  | x :: rest =>
    let t := ExReal.plus from_ (if ExReal.lt x.delay (.rat 0) then .rat 0 else x.delay)
    let ev : Event :=
      match x.action with
      | .set v => .set p v t
      | .linRamp v => .linRamp p v t
      | .expRamp v => .expRamp p v t
      | .cancelHold => .cancelHold p t
      | .target g tc => .target p g t (if ExReal.lt (.rat 0) tc then tc else .rat 1)
    ev :: tailEvents p t rest

/-- Event group (3) of rule R128: the attack. -/
def attackEvents (cfg : Cfg) (p : Param) (t : ExReal) (e : Envelope) : List Event :=
  match e.endAttack with
  | .inf => []
  | .fin a =>
    if e.prevAttackRate ≠ 0 ∧ ExReal.lt t a = true then
      [.target p (gainOf (cfg.data.attackTarget e.prevAttackRate)) t (tau cfg e.prevAttackRate), .set p (.rat 1) a]
    else []

/-- Event groups (4) and (5) of rule R128: the decay and sustain ramps of a note without SSG. -/
def rampEvents (p : Param) (e : Envelope) : List Event :=
  match e.endAttack, e.endDecay with
  | .fin a, .fin d =>
    (if ExReal.lt a d then [.linRamp p (gainOf (.rat e.snapSL.toNat)) d] else []) ++
      (match e.endSustain with
      | .fin q => if ExReal.lt d q then [.linRamp p (.rat 0) q] else []
      | .inf => [])
  | _, _ => []

/-- The unspecified events of a note come strictly after `endAttack`: those up to it are specified (rule R67). -/
def startsLater : List Config.TailEvent → List Config.TailEvent :=
  List.dropWhile fun x => !ExReal.lt (.rat 0) x.delay

/-- The GAIN events after the attack: ramps without SSG, unspecified with SSG. -/
def afterAttackEvents (c : Fin 16) (o : Fin 4) (free : Nat) (e : Envelope) : List Event :=
  if e.snapSSG then
    match e.endAttack with
    | .fin a => tailEvents (.gain c o) a (startsLater (Config.ssgTail c free))
    | .inf => []
  else rampEvents (.gain c o) e

/-- A STOP event where the time is finite (rules R127, R135). -/
def stopEvents (c : Fin 16) (o : Fin 4) (tag : BitVec 8) (t : ETime) : List Event :=
  match t with
  | .fin x => [.stop c o tag x]
  | .inf => []

/-- The events of EG.KEYON for the envelope `e` it leaves (rule R128), then the STOP of rule R127. -/
def keyOnEvents (cfg : Cfg) (c : Fin 16) (o : Fin 4) (t : ExReal) (free : Nat) (e : Envelope) : List Event :=
  let p := Param.gain c o
  [.cancelHold p t, .set p (gainOf (e.noteLevel cfg t)) t] ++ attackEvents cfg p t e ++
    afterAttackEvents c o free e ++ stopEvents c o e.srcTag e.stopTime

/-- A key-on of one envelope (rule R126): the time order, the begin level `b = Level(c, o, T)` on the old
snapshot, the registers, the events. A note keyed with SSG enabled takes a free value. -/
def keyOnEnvelope (cfg : Cfg) (c : Fin 16) (o : Fin 4) (tag : BitVec 8) (kc : BitVec 5) (t : ExReal) (s : State) :
    Except Refusal State :=
  let e := s.env c o
  if timeOrdered t e.lastTime then
    match e.level cfg t with
    | none => .error .undefinedLevel
    | some b =>
      let e' := e.keyOn cfg tag kc t b
      let s' := (s.putEnv c o e').emit (keyOnEvents cfg c o t (s.freeCount c) e')
      .ok (if e'.snapSSG then s'.useFree c else s')
  else .error .undefinedTimeOrder

/-! ### Key-off -/

/-- The registers a key-off at `t` from level `l` leaves (the pseudocode of rule R135). -/
def Envelope.keyOff (cfg : Cfg) (e : Envelope) (tag : BitVec 8) (kc : BitVec 5) (t l : ExReal) : Envelope :=
  let eR := releaseEnd cfg t l e.releaseRate (rateAdjust kc e.rateScaling)
  { e with
    beginRelease := t
    releaseLevel := l
    endRelease := eR
    egKey := .off
    srcTag := tag
    lastTime := t
    silentAt := eR }

/-- The events of EG.KEYOFF for the envelope it leaves (rule R136), then its STOP (rule R135). -/
def keyOffEvents (c : Fin 16) (o : Fin 4) (t : ExReal) (e : Envelope) : List Event :=
  let p := Param.gain c o
  [.cancelHold p t, .set p (gainOf e.releaseLevel) t] ++
    (match e.endRelease with
    | .fin r => if ExReal.lt t r then [.linRamp p (.rat 0) r] else []
    | .inf => []) ++
    stopEvents c o e.srcTag e.endRelease

/-- A key-off of one envelope (rule R135). -/
def keyOffEnvelope (cfg : Cfg) (c : Fin 16) (o : Fin 4) (tag : BitVec 8) (kc : BitVec 5) (t : ExReal) (s : State) :
    Except Refusal State :=
  let e := s.env c o
  if timeOrdered t e.lastTime then
    match e.level cfg t with
    | none => .error .undefinedLevel
    | some l =>
      let e' := e.keyOff cfg tag kc t l
      .ok ((s.putEnv c o e').emit (keyOffEvents c o t e'))
  else .error .undefinedTimeOrder

/-! ### Sound-off -/

/-- The registers a sound-off at `t` leaves: "a zero-length release from level 0" (rule R137). -/
def Envelope.soundOff (e : Envelope) (t : ExReal) : Envelope :=
  { e with
    beginRelease := t
    releaseLevel := .rat 0
    endRelease := .fin t
    egKey := .off
    silentAt := .fin t
    lastTime := t }

/-- The events of EG.SOUNDOFF: these two, "Nothing else" (rule R138). -/
def soundOffEvents (c : Fin 16) (o : Fin 4) (t : ExReal) : List Event :=
  [.cancelHold (.gain c o) t, .set (.gain c o) (.rat 0) t]

/-- A sound-off of one envelope (rule R137). -/
def soundOffEnvelope (c : Fin 16) (o : Fin 4) (t : ExReal) (s : State) : Except Refusal State :=
  let e := s.env c o
  if timeOrdered t e.lastTime then .ok ((s.putEnv c o (e.soundOff t)).emit (soundOffEvents c o t))
  else .error .undefinedTimeOrder

/-! ### The commands -/

/-- EG.KEYON under a given CFG. -/
def egKeyon (cfg : Cfg) (c : Fin 16) (o : Fin 4) (tv : Bool) (tag : BitVec 8) (kc : BitVec 5) (s : State) : Result :=
  withChecks cfg c tv true s fun t => finish (keyOnEnvelope cfg c o tag kc t s)

/-- EG.KEYON (rule R126). -/
def execEgKeyon (c : Fin 16) (o : Fin 4) (tv : Bool) (tag : BitVec 8) (kc : BitVec 5) (s : State) : Result :=
  egKeyon Config.cfg c o tv tag kc s

/-- EG.KEYOFF under a given CFG. -/
def egKeyoff (cfg : Cfg) (c : Fin 16) (o : Fin 4) (tv : Bool) (tag : BitVec 8) (kc : BitVec 5) (s : State) : Result :=
  withChecks cfg c tv true s fun t => finish (keyOffEnvelope cfg c o tag kc t s)

/-- EG.KEYOFF (rule R135). -/
def execEgKeyoff (c : Fin 16) (o : Fin 4) (tv : Bool) (tag : BitVec 8) (kc : BitVec 5) (s : State) : Result :=
  egKeyoff Config.cfg c o tv tag kc s

/-- EG.SOUNDOFF (rule R137). -/
def execEgSoundoff (c : Fin 16) (o : Fin 4) (tv : Bool) (s : State) : Result :=
  withChecks Config.cfg c tv true s fun t => finish (soundOffEnvelope c o t s)

/-- EG.LEVEL under a given CFG: "pure query, no side effects"; exempt from the time order (rule R139). -/
def egLevel (cfg : Cfg) (c : Fin 16) (o : Fin 4) (tv : Bool) (s : State) : Result :=
  withChecks cfg c tv true s fun t =>
    match (s.env c o).level cfg t with
    | some v => answerValue s v
    | none => .refused .undefinedLevel

/-- EG.LEVEL (rule R139). -/
def execEgLevel (c : Fin 16) (o : Fin 4) (tv : Bool) (s : State) : Result :=
  egLevel Config.cfg c o tv s

end Sys2Proof.Machine
end

