-- ==== Sys2Proof/Machine/Frequency.lean ====
section
/-!
DEFINITION. Operator frequency, key code and detune arithmetic (rules R150 to R164) and the commands
OP.SETFREQ, OP.SETDT, OP.KEYON, OP.KEYOFF.
-/

namespace Sys2Proof.Machine

open Sys2Proof

/-- `calcKeyCode(block, fn) = 4 * block + KEYCODE_LOW(fn)` (rule R151). -/
def calcKeyCode (cfg : Cfg) (block : BitVec 3) (fn : BitVec 11) : BitVec 5 :=
  BitVec.ofNat 5 (4 * block.toNat + (cfg.data.keycodeLow fn).toNat)

/-- `detuneDelta(dt, kc) = sign(dt) * DETUNE_TABLE[|dt|][kc]` with `sign(0) = 0` (rule R153). -/
def detuneDelta (cfg : Cfg) (dt : Detune) (kc : BitVec 5) : Int :=
  if dt.mag = 0 then 0
  else if dt.neg then -(cfg.data.detuneTable dt.mag kc : Int)
  else cfg.data.detuneTable dt.mag kc

/-- `componentsToFullFreq(block, fn) = floor(fn * 2^block / 2)` (rule R155). -/
def componentsToFullFreq (block : BitVec 3) (fn : BitVec 11) : Nat := fn.toNat * 2 ^ block.toNat / 2

/-- A negative full frequency number has `0x1FFFF` added once; there is no upper wrap (rules R158, R163, C13). The result is non-negative where `f >= -0x1FFFF` (log entry 19). -/
def wrapNegative (f : Int) : Int := if f < 0 then f + 0x1FFFF else f

/-- The block number `b` of rule R156: the least in 0..7 with `F * 2^(1 - b) < 2047.5`. -/
def leastBlock (f : ExReal) : Option Nat :=
  (List.range 8).find? fun b => ExReal.lt (ExReal.scale (2 / 2 ^ b) f) (.rat (4095 / 2))

/-- `fullFreqToComponents(F)` of rule R156 for a real `F >= 0`; `none` where it is undefined (U6). No command
calls it. -/
def fullFreqToComponents (f : ExReal) : Option (BitVec 3 × BitVec 11) :=
  if ExReal.lt f (.rat 0) then none
  else
    (leastBlock f).map fun b =>
      (BitVec.ofNat 3 b, BitVec.ofNat 11 (ExReal.round (ExReal.scale (2 / 2 ^ b) f)).toNat)

/-- The frequency in Hertz that OP.SETFREQ schedules: detune by the command's own key code, wrap, multiple,
step (the pseudocode of rule R158). -/
def scheduledHz (cfg : Cfg) (dt : Detune) (block : BitVec 3) (fn : BitVec 11) (mult : PosRat) : Rat :=
  let f := wrapNegative (componentsToFullFreq block fn + detuneDelta cfg dt (calcKeyCode cfg block fn))
  f * mult.val * cfg.data.frequencyStep

/-- The registers OP.SETFREQ writes (rule R158). -/
def Operator.setFreq (cfg : Cfg) (q : Operator) (block : BitVec 3) (fn : BitVec 11) (mult : PosRat) (t : ExReal) :
    Operator :=
  { q with
    frequency := scheduledHz cfg q.detune block fn mult
    freqBlockNumber := block
    frequencyNumber := fn
    frequencyMultiple := mult
    keyCode := calcKeyCode cfg block fn
    freqLastTime := t }

/-- OP.SETFREQ under a given CFG: the missing operand is step (4) of rule R203, the time order step (6). -/
def opSetfreq (cfg : Cfg) (c : Fin 16) (o : Fin 4) (tv : Bool) (m : Method) (block : BitVec 3) (fn : BitVec 11)
    (s : State) : Result :=
  withChecks cfg c tv true s fun t =>
    match s.ports.ratio with
    | none => missingOperand s
    | some mult =>
      let q := s.opr c o
      if timeOrdered t q.freqLastTime then
        let hz := scheduledHz cfg q.detune block fn mult
        answerOk ((s.putOpr c o (q.setFreq cfg block fn mult t)).emit [methodEvent m (.freq c o) (.rat hz) t])
      else .refused .undefinedTimeOrder

/-- OP.SETFREQ (rule R158). -/
def execOpSetfreq (c : Fin 16) (o : Fin 4) (tv : Bool) (m : Method) (block : BitVec 3) (fn : BitVec 11) (s : State) :
    Result :=
  opSetfreq Config.cfg c o tv m block fn s

/-- OP.SETDT: `O[c][o].detune <- dt` (rule R159). -/
def execOpSetdt (c : Fin 16) (o : Fin 4) (sign : Bool) (mag : BitVec 2) (s : State) : Result :=
  withChecks Config.cfg c false true s fun _ =>
    answerOk (s.putOpr c o { s.opr c o with detune := detuneOperand sign mag })

/-- OP.KEYON: "exactly `EG.KEYON(c, o, tag, O[c][o].keyCode, T)`" (rule R160). -/
def execOpKeyon (c : Fin 16) (o : Fin 4) (tv : Bool) (tag : BitVec 8) (s : State) : Result :=
  egKeyon Config.cfg c o tv tag (s.opr c o).keyCode s

/-- OP.KEYOFF: "exactly `EG.KEYOFF(c, o, tag, O[c][o].keyCode, T)`" (rule R161). -/
def execOpKeyoff (c : Fin 16) (o : Fin 4) (tv : Bool) (tag : BitVec 8) (s : State) : Result :=
  egKeyoff Config.cfg c o tv tag (s.opr c o).keyCode s

end Sys2Proof.Machine
end

