-- ==== Sys2Proof/Machine/Channel.lean ====
section
/-!
DEFINITION. The channel commands (rules R170 to R191): CH.USEALG, CH.SETFB, CH.SETPAN, CH.ENOP, CH.DISOP,
CH.KEYON, CH.KEYOFF, CH.SOUNDOFF, CH.STOP.
-/

namespace Sys2Proof.Machine

open Sys2Proof

/-- The slot function of rule R170 on operator NUMBERS 1..4 (modulator m, carrier k); `none` where there is no
slot. -/
def slot (m k : Nat) : Option (Fin 8) :=
  if m = k then
    if m = 1 then some 0 else if m = 3 then some 1 else none
  else if 1 ≤ m ∧ m < k ∧ k ≤ 4 then some (Fin.ofNat 8 (2 + (m - 1) * (8 - m) / 2 + (k - m - 1)))
  else none

/-! ### Algorithm selection -/

/-- A four-operator selection: slots 2..7, all output levels and `algorithm`; never the feedback slots
(rule R174). -/
def Channel.useAlg4 (ch : Channel) (n : BitVec 4) (a : Alg4) (t : ExReal) : Channel :=
  { ch with
    g := #v[ch.g[0], ch.g[1], a.d[0], a.d[1], a.d[2], a.d[3], a.d[4], a.d[5]]
    outLevel := a.out
    algorithm := n
    routeLastTime := t }

/-- Its events: "one `SET` at time `T` per element written, slots in ascending order then output levels in
ascending order" (rule R174). -/
def alg4Events (c : Fin 16) (a : Alg4) (t : ExReal) : List Event :=
  [.set (.mod c 2) (.rat a.d[0]) t, .set (.mod c 3) (.rat a.d[1]) t, .set (.mod c 4) (.rat a.d[2]) t,
   .set (.mod c 5) (.rat a.d[3]) t, .set (.mod c 6) (.rat a.d[4]) t, .set (.mod c 7) (.rat a.d[5]) t,
   .set (.out c 0) (.rat a.out[0]) t, .set (.out c 1) (.rat a.out[1]) t,
   .set (.out c 2) (.rat a.out[2]) t, .set (.out c 3) (.rat a.out[3]) t]

/-- The view's own modulation slot: 2 for view 0, 7 for view 1 (rule R171). -/
def viewSlot (v : Fin 2) : Fin 8 := if v = 0 then 2 else 7

/-- The view's first operator index, `2v`, and its second, `2v + 1` (rule R171). -/
def viewFirst (v : Fin 2) : Fin 4 := if v = 0 then 0 else 2

def viewSecond (v : Fin 2) : Fin 4 := if v = 0 then 1 else 3

/-- A two-operator selection on view v: "only the view's own slot, the view's two output levels and
`alg2[view - 1]`" (rule R174). -/
def Channel.useAlg2 (ch : Channel) (v : Fin 2) (n : BitVec 4) (a : Alg2) (t : ExReal) : Channel :=
  { ch with
    g := ch.g.set (viewSlot v).val a.d
    outLevel := (ch.outLevel.set (viewFirst v).val a.out[0]).set (viewSecond v).val a.out[1]
    alg2 := ch.alg2.set v.val (n.setWidth 1)
    routeLastTime := t }

/-- Its events (rule R174). -/
def alg2Events (c : Fin 16) (v : Fin 2) (a : Alg2) (t : ExReal) : List Event :=
  [.set (.mod c (viewSlot v)) (.rat a.d) t, .set (.out c (viewFirst v)) (.rat a.out[0]) t,
   .set (.out c (viewSecond v)) (.rat a.out[1]) t]

/-- A routing command's body behind the time order check of the routing group (rule R226). -/
def routed (s : State) (c : Fin 16) (t : ExReal) (ch' : Channel) (evs : List Event) : Result :=
  if timeOrdered t (s.chan c).routeLastTime then answerOk ((s.putChan c ch').emit evs)
  else .refused .undefinedTimeOrder

/-- The two-operator selection of rule R174 on view v. -/
def useTwoOperators (cfg : Cfg) (c : Fin 16) (v : Fin 2) (n : BitVec 4) (t : ExReal) (s : State) : Result :=
  let a := cfg.data.alg2 (Fin.ofNat 2 n.toNat)
  routed s c t ((s.chan c).useAlg2 v n a t) (alg2Events c v a t)

/-- CH.USEALG under a given CFG. -/
def chUsealg (cfg : Cfg) (c : Fin 16) (tv : Bool) (view : View) (n : BitVec 4) (s : State) : Result :=
  withChecks cfg c tv (algorithmInRange view n) s fun t =>
    match view with
    | .four =>
      let a := cfg.data.alg4 (Fin.ofNat 8 n.toNat)
      routed s c t ((s.chan c).useAlg4 n a t) (alg4Events c a t)
    | .two0 => useTwoOperators cfg c 0 n t s
    | .two1 => useTwoOperators cfg c 1 n t s

/-- CH.USEALG (rule R174). -/
def execChUsealg (c : Fin 16) (tv : Bool) (view : View) (n : BitVec 4) (s : State) : Result :=
  chUsealg Config.cfg c tv view n s

/-! ### Feedback and panning -/

/-- The feedback slot `s = o / 2` of operator index 0 or 2 (operator number 1 or 3); `none` for the others
(rule R178). -/
def feedbackSlot (o : Fin 4) : Option (Fin 2) :=
  if o = 0 then some 0 else if o = 2 then some 1 else none

/-- The registers CH.SETFB writes (rule R178). -/
def Channel.setFeedback (ch : Channel) (k : Fin 2) (amount : BitVec 3) (depth : Rat) (t : ExReal) : Channel :=
  { ch with
    fbCode := ch.fbCode.set k.val amount
    g := ch.g.set k.val depth
    routeLastTime := t }

/-- CH.SETFB under a given CFG: the operator number is step (5) of rule R203, the time order step (6). -/
def chSetfb (cfg : Cfg) (c : Fin 16) (o : Fin 4) (tv : Bool) (m : Method) (amount : BitVec 3) (s : State) : Result :=
  withChecks cfg c tv true s fun t =>
    match feedbackSlot o with
    | none => .refused .undefinedOperatorNumber
    | some k =>
      let depth := cfg.data.feedbackDepth amount
      routed s c t ((s.chan c).setFeedback k amount depth t)
        [methodEvent m (.mod c (k.castLE (by decide))) (.rat depth) t]

/-- CH.SETFB (rule R178). -/
def execChSetfb (c : Fin 16) (o : Fin 4) (tv : Bool) (m : Method) (amount : BitVec 3) (s : State) : Result :=
  chSetfb Config.cfg c o tv m amount s

/-- CH.SETPAN: `C[c].pan <- p`, one event with value `p / 127` (rule R180). -/
def execChSetpan (c : Fin 16) (tv : Bool) (m : Method) (p : BitVec 8) (s : State) : Result :=
  withChecks Config.cfg c tv (panInRange p) s fun t =>
    routed s c t { s.chan c with pan := p, routeLastTime := t } [methodEvent m (.pan c) (.rat (panValue p)) t]

/-! ### Lifecycle and keying of the channel -/

/-- The lifecycle bit of an operator replaced (rule R31). -/
def State.setEnabled (s : State) (c : Fin 16) (o : Fin 4) (b : Bool) : State :=
  s.putOpr c o { s.opr c o with enabled := b }

/-- CH.ENOP: `O[c][o].enabled <- 1`, nothing else (rule R182). -/
def execChEnop (c : Fin 16) (o : Fin 4) (s : State) : Result :=
  withChecks Config.cfg c false true s fun _ => answerOk (s.setEnabled c o true)

/-- CH.DISOP: EG.SOUNDOFF, then `O[c][o].enabled <- 0` (rule R183). -/
def execChDisop (c : Fin 16) (o : Fin 4) (tv : Bool) (s : State) : Result :=
  withChecks Config.cfg c tv true s fun t =>
    finish ((soundOffEnvelope c o t s).map fun s' => s'.setEnabled c o false)

/-- The key-on that CH.KEYON performs on operator o: none where it is disabled (rule R184). -/
def keyOnIfEnabled (cfg : Cfg) (c : Fin 16) (tag : BitVec 8) (t : ExReal) (o : Fin 4) (s : State) :
    Except Refusal State :=
  if (s.opr c o).enabled then keyOnEnvelope cfg c o tag (s.opr c o).keyCode t s else .ok s

/-- The key-off that CH.KEYOFF performs on operator o (rule R185). -/
def keyOffIfEnabled (cfg : Cfg) (c : Fin 16) (tag : BitVec 8) (t : ExReal) (o : Fin 4) (s : State) :
    Except Refusal State :=
  if (s.opr c o).enabled then keyOffEnvelope cfg c o tag (s.opr c o).keyCode t s else .ok s

/-- CH.KEYON under a given CFG. -/
def chKeyon (cfg : Cfg) (c : Fin 16) (tv : Bool) (tag : BitVec 8) (s : State) : Result :=
  withChecks cfg c tv true s fun t => finish (forOperators (keyOnIfEnabled cfg c tag t) s)

/-- CH.KEYON (rule R184). -/
def execChKeyon (c : Fin 16) (tv : Bool) (tag : BitVec 8) (s : State) : Result :=
  chKeyon Config.cfg c tv tag s

/-- CH.KEYOFF under a given CFG. -/
def chKeyoff (cfg : Cfg) (c : Fin 16) (tv : Bool) (tag : BitVec 8) (s : State) : Result :=
  withChecks cfg c tv true s fun t => finish (forOperators (keyOffIfEnabled cfg c tag t) s)

/-- CH.KEYOFF (rule R185). -/
def execChKeyoff (c : Fin 16) (tv : Bool) (tag : BitVec 8) (s : State) : Result :=
  chKeyoff Config.cfg c tv tag s

/-- CH.SOUNDOFF: EG.SOUNDOFF on all four operators, enabled or not (rule R187). -/
def execChSoundoff (c : Fin 16) (tv : Bool) (s : State) : Result :=
  withChecks Config.cfg c tv true s fun t => finish (forOperators (fun o => soundOffEnvelope c o t) s)

/-- The STOP that CH.STOP emits for operator o, and `silentAt <- min(silentAt, T)` (rule R186). -/
def stopOperator (c : Fin 16) (t : ExReal) (o : Fin 4) (s : State) : State :=
  let e := s.env c o
  (s.putEnv c o { e with silentAt := ETime.min e.silentAt (.fin t) }).emit [.stop c o e.srcTag t]

/-- CH.STOP: every operator's source stopped, then `C[c].stopped <- 1`; no time order check (rule R186). -/
def execChStop (c : Fin 16) (tv : Bool) (s : State) : Result :=
  withChecks Config.cfg c tv true s fun t =>
    let s' := stopOperator c t 3 (stopOperator c t 2 (stopOperator c t 1 (stopOperator c t 0 s)))
    answerOk (s'.putChan c { s'.chan c with stopped := true })

end Sys2Proof.Machine
end

