-- ==== Sys2Proof/Machine/EnvConfig.lean ====
section
/-!
DEFINITION. The seven envelope setters (rules R100 to R109): EG.SETAR, EG.SETDR, EG.SETSL, EG.SETSR, EG.SETRR,
EG.SETRS, EG.SETSSG.
-/

namespace Sys2Proof.Machine

open Sys2Proof

/-- A setter: format S, writes one envelope and nothing else, emits nothing (rule R109). -/
def setEnvelope (cfg : Cfg) (c : Fin 16) (o : Fin 4) (f : Envelope → Envelope) (s : State) : Result :=
  withChecks cfg c false true s fun _ => answerOk (s.putEnv c o (f (s.env c o)))

/-- EG.SETAR: `E[c][o].attackRate <- rate` (rule R100). -/
def execEgSetar (c : Fin 16) (o : Fin 4) (rate : BitVec 5) (s : State) : Result :=
  setEnvelope Config.cfg c o (fun e => { e with attackRate := rate }) s

/-- EG.SETDR: `E[c][o].decayRate <- rate` (rule R101). -/
def execEgSetdr (c : Fin 16) (o : Fin 4) (rate : BitVec 5) (s : State) : Result :=
  setEnvelope Config.cfg c o (fun e => { e with decayRate := rate }) s

/-- EG.SETSL: `E[c][o].sustainLevel <- level` (rule R102). -/
def execEgSetsl (c : Fin 16) (o : Fin 4) (level : BitVec 10) (s : State) : Result :=
  setEnvelope Config.cfg c o (fun e => { e with sustainLevel := level }) s

/-- EG.SETSR: `E[c][o].sustainRate <- rate` (rule R103). -/
def execEgSetsr (c : Fin 16) (o : Fin 4) (rate : BitVec 5) (s : State) : Result :=
  setEnvelope Config.cfg c o (fun e => { e with sustainRate := rate }) s

/-- EG.SETRR: `E[c][o].releaseRate <- rate` (rule R104). -/
def execEgSetrr (c : Fin 16) (o : Fin 4) (rate : BitVec 5) (s : State) : Result :=
  setEnvelope Config.cfg c o (fun e => { e with releaseRate := rate }) s

/-- EG.SETRS: `E[c][o].rateScaling <- scaling` (rule R105). -/
def execEgSetrs (c : Fin 16) (o : Fin 4) (scaling : BitVec 2) (s : State) : Result :=
  setEnvelope Config.cfg c o (fun e => { e with rateScaling := scaling }) s

/-- EG.SETSSG under a given CFG (rule R106). -/
def egSetssg (cfg : Cfg) (c : Fin 16) (o : Fin 4) (mode : BitVec 4) (s : State) : Result :=
  setEnvelope cfg c o (fun e => e.setMode (modeFlags cfg mode)) s

/-- EG.SETSSG: the four mode flags are replaced (rule R106). -/
def execEgSetssg (c : Fin 16) (o : Fin 4) (mode : BitVec 4) (s : State) : Result :=
  egSetssg Config.cfg c o mode s

end Sys2Proof.Machine
end

