-- ==== Sys2Proof/Machine/Dispatch.lean ====
section
/-!
DEFINITION. One arm per command (rule R86).
-/

namespace Sys2Proof.Machine

open Sys2Proof

def exec (i : Instr) (s : State) : Host.Outcome State Fault Refusal :=
  match i with
  | .egSetar c o rate => Sys2Proof.Machine.execEgSetar c o rate s
  | .egSetdr c o rate => Sys2Proof.Machine.execEgSetdr c o rate s
  | .egSetsl c o level => Sys2Proof.Machine.execEgSetsl c o level s
  | .egSetsr c o rate => Sys2Proof.Machine.execEgSetsr c o rate s
  | .egSetrr c o rate => Sys2Proof.Machine.execEgSetrr c o rate s
  | .egSetrs c o scaling => Sys2Proof.Machine.execEgSetrs c o scaling s
  | .egSetssg c o mode => Sys2Proof.Machine.execEgSetssg c o mode s
  | .egKeyon c o tv tag kc => Sys2Proof.Machine.execEgKeyon c o tv tag kc s
  | .egKeyoff c o tv tag kc => Sys2Proof.Machine.execEgKeyoff c o tv tag kc s
  | .egSoundoff c o tv => Sys2Proof.Machine.execEgSoundoff c o tv s
  | .egLevel c o tv => Sys2Proof.Machine.execEgLevel c o tv s
  | .opSetfreq c o tv m block fn => Sys2Proof.Machine.execOpSetfreq c o tv m block fn s
  | .opSetdt c o sign mag => Sys2Proof.Machine.execOpSetdt c o sign mag s
  | .opKeyon c o tv tag => Sys2Proof.Machine.execOpKeyon c o tv tag s
  | .opKeyoff c o tv tag => Sys2Proof.Machine.execOpKeyoff c o tv tag s
  | .chUsealg c tv view n => Sys2Proof.Machine.execChUsealg c tv view n s
  | .chSetfb c o tv m amount => Sys2Proof.Machine.execChSetfb c o tv m amount s
  | .chSetpan c tv m p => Sys2Proof.Machine.execChSetpan c tv m p s
  | .chEnop c o => Sys2Proof.Machine.execChEnop c o s
  | .chDisop c o tv => Sys2Proof.Machine.execChDisop c o tv s
  | .chKeyon c tv tag => Sys2Proof.Machine.execChKeyon c tv tag s
  | .chKeyoff c tv tag => Sys2Proof.Machine.execChKeyoff c tv tag s
  | .chSoundoff c tv => Sys2Proof.Machine.execChSoundoff c tv s
  | .chStop c tv => Sys2Proof.Machine.execChStop c tv s

end Sys2Proof.Machine
end

