-- ==== Sys2Proof/Machine/Step.lean ====
section
/-!
DEFINITION. One step: the block takes the next input and performs it to completion (rules R17, R70, R80).
-/

namespace Sys2Proof.Machine

open Sys2Proof

/-- The block takes a command: the input is consumed ("consumed from the command port and ... never stored",
rule R74) and the ports are sampled with it (rule R80). -/
def State.take (s : State) (rest : List HostInput) (p : Ports) : State :=
  { s with inputs := rest, ports := p }

/-- The reset input (rule R220): every register in its reset value, no event; the state is the one of rule
R221. What the host has still to present stays, and so does the count of free values taken (log entry 6). -/
def State.resetInput (s : State) (rest : List HostInput) : State :=
  { State.reset with inputs := rest, ports := s.ports, freeCounts := s.freeCounts }

/-- A step. With no input nothing happens: "it never acts between commands" (rule R17; log entry 7). A word
that spells no command answers ILLEGAL (rule R91). -/
def step (s : State) : Host.Outcome State Fault Refusal :=
  match s.inputs with
  | [] => .next s
  | .reset :: rest => .next (s.resetInput rest)
  | .command w p :: rest =>
    match decode w with
    | .error _ => illegal (s.take rest p)
    | .ok i => exec i (s.take rest p)

/-- The state with a command word presented as the next input. Its ports are those of the state, with the
RATIO port valid (1/1 where the state's is not), so that OP.SETFREQ runs too. There is no program and no
program counter (rule R20): the host presents commands one at a time. Log entry 8. -/
def State.withFetchWord (s : State) (nbits w : Nat) : State :=
  { s with
    inputs := .command (BitVec.ofNat 32 (w % 2 ^ nbits))
      { s.ports with ratio := s.ports.ratio.orElse fun _ => some PosRat.one } :: s.inputs }

end Sys2Proof.Machine
end

