-- ==== Sys2Proof/Machine/Assembler.lean ====
section
/-!
DEFINITION. The textual form of rule R92: `MNEMONIC c, o, operands [@T] [!method]`. The step does not use it.
-/

namespace Sys2Proof.Machine

open Sys2Proof

/-- A rational as a fraction in lowest terms, or as an integer (rule R92 takes a decimal as well; log entry 18). -/
def asmRat (q : Rat) : String :=
  if q.den = 1 then toString q.num else toString q.num ++ "/" ++ toString q.den

/-- The time of a command: `@T`, with nothing where `tv = 0`. A time that is not rational has no decimal
form, of which rule R92 says nothing: it is written by the port's name, DESIGN CHOICE, log entry 18. -/
def asmTime (p : Ports) (tv : Bool) : String :=
  if tv then
    match p.time with
    | .real (.rat q) => " @" ++ asmRat q
    | _ => " @TIME"
  else ""

/-- The method; the default is `!set`. -/
def asmMethod : Method → String
  | .set => ""
  | .lin => " !lin"
  | .exp => " !exp"

/-- Operands in order, separated by commas. -/
def asmArgs (xs : List String) : String := ", ".intercalate xs

/-- The RATIO operand, written `p/q`. Where RATIO is not valid (`rv = 0`), of which rule R92 says nothing, the
operand is left out, as it is in the status vectors of 95_test_vectors.md 3.6: DEDUCED, log entry 18. -/
def asmRatio (p : Ports) : List String :=
  match p.ratio with
  | some r => [toString r.val.num ++ "/" ++ toString r.val.den]
  | none => []

/-- The detune operand, a signed decimal -3..3. Minus zero, of which rule R92 says nothing, is written `-0`, as
95_test_vectors.md 3.1 writes the word 0x44000004: DEDUCED, log entry 18. -/
def asmDetune (sign : Bool) (mag : BitVec 2) : String :=
  if sign then "-" ++ toString mag.toNat else toString mag.toNat

/-- The view operand. -/
def asmView : View → String
  | .four => "0"
  | .two0 => "1"
  | .two1 => "2"

/-- A command as a line of assembler (rule R92). -/
def asm (i : Instr) (p : Ports) : String :=
  let n := fun (k : Nat) => toString k
  match i with
  | .egSetar c o r => "EG.SETAR " ++ asmArgs [n c, n o, n r.toNat]
  | .egSetdr c o r => "EG.SETDR " ++ asmArgs [n c, n o, n r.toNat]
  | .egSetsl c o l => "EG.SETSL " ++ asmArgs [n c, n o, n l.toNat]
  | .egSetsr c o r => "EG.SETSR " ++ asmArgs [n c, n o, n r.toNat]
  | .egSetrr c o r => "EG.SETRR " ++ asmArgs [n c, n o, n r.toNat]
  | .egSetrs c o r => "EG.SETRS " ++ asmArgs [n c, n o, n r.toNat]
  | .egSetssg c o m => "EG.SETSSG " ++ asmArgs [n c, n o, n m.toNat]
  | .egKeyon c o tv tag kc => "EG.KEYON " ++ asmArgs [n c, n o, n tag.toNat, n kc.toNat] ++ asmTime p tv
  | .egKeyoff c o tv tag kc => "EG.KEYOFF " ++ asmArgs [n c, n o, n tag.toNat, n kc.toNat] ++ asmTime p tv
  | .egSoundoff c o tv => "EG.SOUNDOFF " ++ asmArgs [n c, n o] ++ asmTime p tv
  | .egLevel c o tv => "EG.LEVEL " ++ asmArgs [n c, n o] ++ asmTime p tv
  | .opSetfreq c o tv m b fn =>
    "OP.SETFREQ " ++ asmArgs ([n c, n o, n b.toNat, n fn.toNat] ++ asmRatio p) ++ asmTime p tv ++ asmMethod m
  | .opSetdt c o s mag => "OP.SETDT " ++ asmArgs [n c, n o, asmDetune s mag]
  | .opKeyon c o tv tag => "OP.KEYON " ++ asmArgs [n c, n o, n tag.toNat] ++ asmTime p tv
  | .opKeyoff c o tv tag => "OP.KEYOFF " ++ asmArgs [n c, n o, n tag.toNat] ++ asmTime p tv
  | .chUsealg c tv v k => "CH.USEALG " ++ asmArgs [n c, asmView v, n k.toNat] ++ asmTime p tv
  | .chSetfb c o tv m a => "CH.SETFB " ++ asmArgs [n c, n o, n a.toNat] ++ asmTime p tv ++ asmMethod m
  | .chSetpan c tv m q => "CH.SETPAN " ++ asmArgs [n c, toString q.toInt] ++ asmTime p tv ++ asmMethod m
  | .chEnop c o => "CH.ENOP " ++ asmArgs [n c, n o]
  | .chDisop c o tv => "CH.DISOP " ++ asmArgs [n c, n o] ++ asmTime p tv
  | .chKeyon c tv tag => "CH.KEYON " ++ asmArgs [n c, n tag.toNat] ++ asmTime p tv
  | .chKeyoff c tv tag => "CH.KEYOFF " ++ asmArgs [n c, n tag.toNat] ++ asmTime p tv
  | .chSoundoff c tv => "CH.SOUNDOFF " ++ asmArgs [n c] ++ asmTime p tv
  | .chStop c tv => "CH.STOP " ++ asmArgs [n c] ++ asmTime p tv

end Sys2Proof.Machine
end

