-- ==== Sys2Proof/Machine/Routing.lean ====
section
/-!
DEFINITION. What the routing registers mean (rule R188). "the block computes none of it": the step does not
use this file. Oscillators are uninterpreted (rule R5 (e)).
-/

namespace Sys2Proof.Machine

open Sys2Proof

/-- The signals given to the routing equation at one time: the gains `a_k`, the oscillators with their phases
taken in, as functions of the modulation input, and the feedback signals `fb_k` of operator numbers 1 and 3.
Indexed by operator index 0..3. -/
structure Signals where
  gain : Fin 4 → ℝ
  osc : Fin 4 → ℝ → ℝ
  feedback : Fin 2 → ℝ

/-- The depth in the slot of modulator number m and carrier number k; 0 where there is no slot. -/
noncomputable def Channel.depth (ch : Channel) (m k : Nat) : ℝ :=
  match slot m k with
  | some i => (ch.g[i.val] : ℝ)
  | none => 0

/-- The feedback term of operator number k: only numbers 1 and 3 have one. -/
noncomputable def Channel.feedbackTerm (ch : Channel) (sig : Signals) (k : Nat) : ℝ :=
  if k = 1 then ch.depth 1 1 * sig.feedback 0
  else if k = 3 then ch.depth 3 3 * sig.feedback 1
  else 0

/-- The output signals `y_1, y_2, y_3, y_4` of rule R188: each operator is modulated by the lower-numbered
ones, which is why they can be listed in order. -/
noncomputable def Channel.signals (ch : Channel) (sig : Signals) : Fin 4 → ℝ :=
  let y1 := sig.gain 0 * sig.osc 0 (ch.feedbackTerm sig 1)
  let y2 := sig.gain 1 * sig.osc 1 (ch.depth 1 2 * y1)
  let y3 := sig.gain 2 * sig.osc 2 (ch.depth 1 3 * y1 + ch.depth 2 3 * y2 + ch.feedbackTerm sig 3)
  let y4 := sig.gain 3 * sig.osc 3 (ch.depth 1 4 * y1 + ch.depth 2 4 * y2 + ch.depth 3 4 * y3)
  ![y1, y2, y3, y4]

/-- `mix(t)`, the mono output of rule R188. -/
noncomputable def Channel.mix (ch : Channel) (sig : Signals) : ℝ :=
  (ch.outLevel[0] : ℝ) * ch.signals sig 0 + (ch.outLevel[1] : ℝ) * ch.signals sig 1 +
    (ch.outLevel[2] : ℝ) * ch.signals sig 2 + (ch.outLevel[3] : ℝ) * ch.signals sig 3

/-- The stereo output of rule R188 for the value `x` of `PAN[c]`. -/
noncomputable def Channel.stereo (ch : Channel) (sig : Signals) (x : ℝ) : ℝ × ℝ :=
  let lr := Config.panLaw x
  ((lr.1 : ℝ) * ch.mix sig, (lr.2 : ℝ) * ch.mix sig)

end Sys2Proof.Machine
end

