-- ==== Sys2Proof/Machine/Sink.lean ====
section
/-!
DEFINITION. How a sink reads the event stream (rule R66), over the real numbers. "What a sink does with events
is outside the block": the step does not use this file; it gives the consistency law of rule R67 its meaning.
-/

namespace Sys2Proof.Machine

open Sys2Proof

/-- What an event of a parameter's timeline does. A value is `none` where it is not determined: before the first
event on the parameter (U15), and from an exponential ramp that has no value on (U8), until a later event gives
the parameter a value. Log entry 15. -/
inductive SinkAction where
  | set (v : Option ℝ)
  | lin (v : ℝ)
  | exp (v : ℝ)
  | target (g tc : ℝ)

/-- An event of a timeline: its time and what it does. -/
structure SinkEvent where
  time : ℝ
  action : SinkAction

/-- The last event passed (`e0` of rule R66): its time, the value the parameter has there, and the approach
that is under way when it was a TARGET. -/
structure SinkCursor where
  time : ℝ
  value : Option ℝ
  approach : Option (ℝ × ℝ)

/-- Before any event: the value is unknown. -/
def SinkCursor.start : SinkCursor := ⟨0, none, none⟩

/-- The exponential ramp from `v0` to `v1` has a value (U8: not where `v0 * v1 <= 0`, "the value the sink then
takes is `any value`"; nor where `v0` is not determined). -/
noncomputable def expDefined (v0 : Option ℝ) (v1 : ℝ) : Bool :=
  match v0 with
  | some x => decide (0 < x * v1)
  | none => false

/-- `V(t)` between the last event passed and the next one (the four cases of rule R66). At the time of the last
event itself it is `v0`, "the value the parameter has at T0", whatever comes next. After it the exponential
formula is evaluated only where the ramp has a value (U8). -/
noncomputable def SinkCursor.between (e0 : SinkCursor) (next : Option SinkEvent) (t : ℝ) : Option ℝ :=
  match next with
  | some ⟨t1, .lin v1⟩ => e0.value.map fun v0 => v0 + (v1 - v0) * (t - e0.time) / (t1 - e0.time)
  | some ⟨t1, .exp v1⟩ =>
    if t = e0.time then e0.value
    else if expDefined e0.value v1 then e0.value.map fun v0 => v0 * (v1 / v0) ^ ((t - e0.time) / (t1 - e0.time))
    else none
  | _ =>
    match e0.approach with
    | some (g, tc) => e0.value.map fun v0 => g + (v0 - g) * Real.exp (-(t - e0.time) / tc)
    | none => e0.value

/-- Passing an event: the value it sets or has reached; an exponential ramp without a value has reached none
(U8). -/
noncomputable def SinkCursor.pass (e0 : SinkCursor) (e : SinkEvent) : SinkCursor :=
  match e.action with
  | .set v => ⟨e.time, v, none⟩
  | .lin v => ⟨e.time, some v, none⟩
  | .exp v => ⟨e.time, if expDefined e0.value v then some v else none, none⟩
  | .target g tc => ⟨e.time, e0.between (some e) e.time, some (g, tc)⟩

/-- The value at `t` along a timeline in time order. -/
noncomputable def SinkCursor.read (e0 : SinkCursor) : List SinkEvent → ℝ → Option ℝ
  | [], t => e0.between none t
  | e :: rest, t => if e.time ≤ t then (e0.pass e).read rest t else e0.between (some e) t

/-- An event put into a timeline, after those of the same time (rule R66: "in time order (emission order among
equal times)"). -/
noncomputable def insertEvent (e : SinkEvent) : List SinkEvent → List SinkEvent
  | [] => [e]
  | x :: rest => if x.time ≤ e.time then x :: insertEvent e rest else e :: x :: rest

/-- What one emitted event does to the timeline of parameter `p`: `CANCEL_HOLD(p, T)` "deletes every
earlier-emitted event of p with time >= T and acts as `SET(p, V(T), T)`" (rule R66). -/
noncomputable def sinkTake (p : Param) (line : List SinkEvent) (ev : Event) : List SinkEvent :=
  match ev with
  | .set q v t => if q = p then insertEvent ⟨t.val, .set (some v.val)⟩ line else line
  | .linRamp q v t => if q = p then insertEvent ⟨t.val, .lin v.val⟩ line else line
  | .expRamp q v t => if q = p then insertEvent ⟨t.val, .exp v.val⟩ line else line
  | .target q g t tc => if q = p then insertEvent ⟨t.val, .target g.val tc.val⟩ line else line
  | .cancelHold q t =>
    if q = p then
      line.filter (fun e => decide (e.time < t.val)) ++ [⟨t.val, .set (SinkCursor.start.read line t.val)⟩]
    else line
  | .stop _ _ _ _ => line

/-- The timeline of a parameter after an event stream. -/
noncomputable def timeline (p : Param) (evs : List Event) : List SinkEvent := evs.foldl (sinkTake p) []

/-- `V(t)` of rule R66: the value of a parameter at `t`; `none` where it is not determined. -/
noncomputable def sinkValue (p : Param) (evs : List Event) (t : ℝ) : Option ℝ :=
  SinkCursor.start.read (timeline p evs) t

end Sys2Proof.Machine
end

