-- ==== Sys2Proof/Safety.lean ====
section
/-!
DEFINITION. The terms claims are stated in: when a command is ready to be performed, what a run without
UNDEFINED is (rule R204), the invariants of rules R22, R26 and R164, and what a command leaves alone.
-/

namespace Sys2Proof

/-! ### Classes of commands -/

/-- The register a setter of rules R100 to R106 writes: which setter, and which envelope. -/
def Instr.setter : Instr → Option (Nat × Fin 16 × Fin 4)
  | .egSetar c o _ => some (0, c, o)
  | .egSetdr c o _ => some (1, c, o)
  | .egSetsl c o _ => some (2, c, o)
  | .egSetsr c o _ => some (3, c, o)
  | .egSetrr c o _ => some (4, c, o)
  | .egSetrs c o _ => some (5, c, o)
  | .egSetssg c o _ => some (6, c, o)
  | .egKeyon _ _ _ _ _ | .egKeyoff _ _ _ _ _ | .egSoundoff _ _ _ | .egLevel _ _ _ | .opSetfreq _ _ _ _ _ _
  | .opSetdt _ _ _ _ | .opKeyon _ _ _ _ | .opKeyoff _ _ _ _ | .chUsealg _ _ _ _ | .chSetfb _ _ _ _ _
  | .chSetpan _ _ _ _ | .chEnop _ _ | .chDisop _ _ _ | .chKeyon _ _ _ | .chKeyoff _ _ _ | .chSoundoff _ _
  | .chStop _ _ => none

/-- The command can perform a key-on of envelope (c, o) (rule R34: "EG.KEYON", with the composites that perform
it; the channel's form can key any of its operators). -/
def Instr.KeysOn (i : Instr) (c : Fin 16) (o : Fin 4) : Prop :=
  (∃ tv tag kc, i = .egKeyon c o tv tag kc) ∨ (∃ tv tag, i = .opKeyon c o tv tag) ∨ ∃ tv tag, i = .chKeyon c tv tag

/-- The command can perform a key-off of envelope (c, o). -/
def Instr.KeysOff (i : Instr) (c : Fin 16) (o : Fin 4) : Prop :=
  (∃ tv tag kc, i = .egKeyoff c o tv tag kc) ∨ (∃ tv tag, i = .opKeyoff c o tv tag) ∨ ∃ tv tag, i = .chKeyoff c tv tag

/-- The command performs a sound-off of envelope (c, o). -/
def Instr.SoundsOff (i : Instr) (c : Fin 16) (o : Fin 4) : Prop :=
  (∃ tv, i = .egSoundoff c o tv) ∨ (∃ tv, i = .chDisop c o tv) ∨ ∃ tv, i = .chSoundoff c tv

end Sys2Proof

namespace Sys2Proof.Machine

open Sys2Proof

/-! ### When a command is performed -/

/-- Steps (1) to (3) of rule R203 are passed: the channel exists, the command's time is `t`, and the channel
is not stopped. -/
def Ready (s : State) (c : Fin 16) (tv : Bool) (t : ExReal) : Prop :=
  Config.cfg.hasChannel c = true ∧ commandTime s.ports tv = some t ∧ (s.chan c).stopped = false

/-- A run of `n` steps in which no command answers UNDEFINED: "any claim about a program must carry the
hypothesis that no command of it returns `UNDEFINED`" (rule R204). -/
def RunsDefined (n : Nat) (s : State) : Prop := ∃ s', Host.Core.run Sys2Proof.core n s = .next s'

/-- The NOW values of the commands to come, in order. -/
def clockReadings : List HostInput → List ExReal
  | [] => []
  | .command _ p :: rest => p.now :: clockReadings rest
  | .reset :: rest => clockReadings rest

/-- The host clock contract (rule R208): finite non-negative reals, non-decreasing. -/
def HostClock (inputs : List HostInput) : Prop :=
  (∀ x ∈ clockReadings inputs, 0 ≤ x.val) ∧ (clockReadings inputs).Pairwise fun x y => x.val ≤ y.val

/-! ### The state after reset -/

/-- Every register of every channel holds the reset value that the table of rule R34 gives it, written out. -/
def HoldsResetValues (s : State) : Prop :=
  ∀ c : Fin 16,
    (∀ o : Fin 4,
      s.env c o =
        { attackRate := 0, decayRate := 0, sustainRate := 0, releaseRate := 0, rateScaling := 0, sustainLevel := 0
          ssgEnabled := false, inverted := false, jump := false, looping := false
          beginLevel := .rat 0, hasAttack := false, beginAttack := .rat 0, prevAttackRate := 0
          endAttack := .fin (.rat 0), endDecay := .fin (.rat 0), endSustain := .fin (.rat 0)
          beginRelease := .rat 0, releaseLevel := .rat 0, endRelease := .fin (.rat 0)
          snapSL := 0, snapSSG := false, snapInv := false, snapJmp := false, snapLoop := false
          egKey := .idle, srcTag := 0, silentAt := .inf, lastTime := .rat 0, ssgCacheValid := false } ∧
      s.opr c o =
        { freqBlockNumber := 0, frequencyNumber := 0, frequencyMultiple := ⟨1, by decide⟩, detune := ⟨false, 0⟩
          keyCode := 0, frequency := 0, freqLastTime := .rat 0, enabled := false }) ∧
    (s.chan c).g = #v[0, 0, 0, 0, 0, 0, 0, 0] ∧ (s.chan c).outLevel = #v[0, 0, 0, 0] ∧
    (s.chan c).algorithm = 0 ∧ (s.chan c).alg2 = #v[0, 0] ∧ (s.chan c).fbCode = #v[0, 0] ∧
    (s.chan c).pan = 0 ∧ (s.chan c).stopped = false ∧ (s.chan c).routeLastTime = .rat 0

/-! ### Invariants -/

/-- What holds of an envelope after reset and after every command: the mode flags (rule R22), the snapshot's
times and levels (rule R26), the copies, `T >= lastTime >= beginAttack` (rule R203 (7)), and a positive cycle
length (rule R164). -/
structure Envelope.Inv (e : Envelope) : Prop where
  flags : e.ssgEnabled = false → e.inverted = false ∧ e.jump = false ∧ e.looping = false
  copies : e.snapSSG = false → e.snapInv = false ∧ e.snapJmp = false ∧ e.snapLoop = false
  attack_end : (e.beginAttack.val : EReal) ≤ e.endAttack.val
  decay_end : e.endAttack.val ≤ e.endDecay.val
  sustain_end : e.endDecay.val ≤ e.endSustain.val
  release_end : (e.beginRelease.val : EReal) ≤ e.endRelease.val
  begin_level : 0 ≤ e.beginLevel.val ∧ e.beginLevel.val ≤ 1023
  release_level : 0 ≤ e.releaseLevel.val ∧ e.releaseLevel.val ≤ 1023
  attack_past : e.beginAttack.val ≤ e.lastTime.val
  release_past : e.beginRelease.val ≤ e.lastTime.val
  cycle_length : e.snapSSG = true → ∀ a q, e.endAttack = .fin a → e.endSustain = .fin q → a.val < q.val

/-- What holds of a channel: its envelopes', no stored minus zero (rule R159), no pan pattern 0x80 (rule R33),
an algorithm number of the table (rule R174), and feedback depths that are the table's (rule R178). -/
structure Channel.Inv (ch : Channel) : Prop where
  envelopes : ∀ o : Fin 4, (ch.envs[o.val]).Inv
  detune : ∀ o : Fin 4, (ch.oprs[o.val]).detune.neg = true → (ch.oprs[o.val]).detune.mag ≠ 0
  pan : ch.pan ≠ 0x80#8
  algorithm : ch.algorithm.toNat < nAlg4
  feedback : ∀ k : Fin 2, ch.g[k.val] = Config.cfg.data.feedbackDepth ch.fbCode[k.val]

/-- The invariant of the machine: every channel's, and no command has reached a channel that does not exist. -/
structure State.Inv (s : State) : Prop where
  channels : ∀ c : Fin 16, (s.chan c).Inv
  absent : ∀ c : Fin 16, Config.cfg.hasChannel c = false → s.chan c = Channel.reset

/-! ### What a command answers and emits -/

/-- The response (rule R84) and the events of one command: it answers `st` with value `v` and emits exactly
`evs`; the inputs to come and the ports are as before. -/
def Answered (s s' : State) (st : Status) (v : ExReal) (evs : List Event) : Prop :=
  s'.responses = s.responses ++ [⟨st, v⟩] ∧ s'.events = s.events ++ evs ∧ s'.inputs = s.inputs ∧ s'.ports = s.ports

/-- `return OK` of a command that takes no free value and emits exactly `evs`. -/
def Performed (s s' : State) (evs : List Event) : Prop :=
  Answered s s' .ok (.rat 0) evs ∧ s'.freeCounts = s.freeCounts

/-- The events a command has added to the stream. -/
def newEvents (s s' : State) : List Event := s'.events.drop s.events.length

/-- An event read as what it says: its values and times as real numbers. -/
inductive RealEvent where
  | set (p : Param) (v t : ℝ)
  | linRamp (p : Param) (v t : ℝ)
  | expRamp (p : Param) (v t : ℝ)
  | cancelHold (p : Param) (t : ℝ)
  | target (p : Param) (g t tc : ℝ)
  | stop (c : Fin 16) (o : Fin 4) (tag : BitVec 8) (t : ℝ)

/-- The real event of an event. -/
noncomputable def Event.real : Event → RealEvent
  | .set p v t => .set p v.val t.val
  | .linRamp p v t => .linRamp p v.val t.val
  | .expRamp p v t => .expRamp p v.val t.val
  | .cancelHold p t => .cancelHold p t.val
  | .target p g t tc => .target p g.val t.val tc.val
  | .stop c o tag t => .stop c o tag t.val

/-- A real STOP event where the time is finite. -/
noncomputable def realStop (c : Fin 16) (o : Fin 4) (tag : BitVec 8) : ETime → List RealEvent
  | .fin x => [.stop c o tag x.val]
  | .inf => []

/-- The command `i` performed inside another: its registers, counters and events, without its response. -/
def Performs (i : Instr) (s s' : State) : Prop :=
  ∃ u, exec i s = .next u ∧ s' = { u with responses := s.responses }

/-- One of the commands performed inside another: only where `b` holds. -/
def PerformsIf (b : Bool) (i : Instr) (s s' : State) : Prop := if b then Performs i s s' else s' = s

/-- Commands performed inside another one after the other, on operator indices 0, 1, 2, 3 in that order, each
where its operator is in `on`. -/
def PerformsEach (on : Fin 4 → Bool) (i : Fin 4 → Instr) (s s' : State) : Prop :=
  ∃ s1 s2 s3, PerformsIf (on 0) (i 0) s s1 ∧ PerformsIf (on 1) (i 1) s1 s2 ∧ PerformsIf (on 2) (i 2) s2 s3 ∧
    PerformsIf (on 3) (i 3) s3 s'

/-! ### The level as a function of real numbers -/

/-- The base profile `D(s)` of rule R129 over the reals. -/
noncomputable def Envelope.profile (e : Envelope) (a s : ℝ) : ℝ :=
  match e.endDecay with
  | .inf => 1023
  | .fin d =>
    if s < d.val - a then 1023 - (1023 - e.snapSL.toNat) * s / (d.val - a)
    else
      match e.endSustain with
      | .inf => e.snapSL.toNat
      | .fin q =>
        if s < q.val - a then e.snapSL.toNat - e.snapSL.toNat * (s - (d.val - a)) / (q.val - d.val) else 0

/-- The time `t` is read from the key-on snapshot: branches (d) and (e) of rule R130. -/
def Envelope.ReadsNote (e : Envelope) (t : ExReal) : Prop :=
  (e.egKey = .on ∨ (e.egKey = .off ∧ t.val < e.beginRelease.val)) ∧ e.beginAttack.val ≤ t.val

/-- The order of the phases of a note without SSG (rule R140). -/
def Phase.rank : Phase → Option Nat
  | .attack => some 0
  | .decay => some 1
  | .sustain => some 2
  | .ended => some 3
  | .idle | .release | .silent | .cycle _ | .hold => none

/-! ### What a command leaves alone -/

/-- The control registers of a channel that are not its envelopes or operators. -/
def Channel.sameControl (a b : Channel) : Prop :=
  b.g = a.g ∧ b.outLevel = a.outLevel ∧ b.algorithm = a.algorithm ∧ b.alg2 = a.alg2 ∧ b.fbCode = a.fbCode ∧
    b.pan = a.pan ∧ b.stopped = a.stopped ∧ b.routeLastTime = a.routeLastTime

/-- Every register but those of envelope (c, o) is as before. -/
def OnlyEnvelope (s s' : State) (c : Fin 16) (o : Fin 4) : Prop :=
  (∀ c' o', ¬(c' = c ∧ o' = o) → s'.env c' o' = s.env c' o') ∧
  (∀ c' o', s'.opr c' o' = s.opr c' o') ∧
  (∀ c', Channel.sameControl (s.chan c') (s'.chan c'))

/-- Every register but those of operator (c, o) is as before. -/
def OnlyOperator (s s' : State) (c : Fin 16) (o : Fin 4) : Prop :=
  (∀ c' o', s'.env c' o' = s.env c' o') ∧
  (∀ c' o', ¬(c' = c ∧ o' = o) → s'.opr c' o' = s.opr c' o') ∧
  (∀ c', Channel.sameControl (s.chan c') (s'.chan c'))

/-- Every register but the control registers of channel c is as before. -/
def OnlyControl (s s' : State) (c : Fin 16) : Prop :=
  (∀ c' o', s'.env c' o' = s.env c' o') ∧
  (∀ c' o', s'.opr c' o' = s.opr c' o') ∧
  (∀ c', c' ≠ c → s'.chan c' = s.chan c')

/-- The key-on snapshot of an envelope (rules R24, R27) is as before. -/
def Envelope.sameNote (a b : Envelope) : Prop :=
  b.beginLevel = a.beginLevel ∧ b.hasAttack = a.hasAttack ∧ b.beginAttack = a.beginAttack ∧
    b.prevAttackRate = a.prevAttackRate ∧ b.endAttack = a.endAttack ∧ b.endDecay = a.endDecay ∧
    b.endSustain = a.endSustain ∧ b.snapSL = a.snapSL ∧ b.snapSSG = a.snapSSG ∧ b.snapInv = a.snapInv ∧
    b.snapJmp = a.snapJmp ∧ b.snapLoop = a.snapLoop

/-- The parameter registers and mode flags of an envelope (rules R21, R22) are as before. -/
def Envelope.sameParameters (a b : Envelope) : Prop :=
  b.attackRate = a.attackRate ∧ b.decayRate = a.decayRate ∧ b.sustainRate = a.sustainRate ∧
    b.releaseRate = a.releaseRate ∧ b.rateScaling = a.rateScaling ∧ b.sustainLevel = a.sustainLevel ∧
    b.ssgEnabled = a.ssgEnabled ∧ b.inverted = a.inverted ∧ b.jump = a.jump ∧ b.looping = a.looping

/-- The release registers of an envelope (rule R25) are as before. -/
def Envelope.sameRelease (a b : Envelope) : Prop :=
  b.beginRelease = a.beginRelease ∧ b.releaseLevel = a.releaseLevel ∧ b.endRelease = a.endRelease

/-- The channel an event belongs to (rules R64, R68). -/
def Param.chan : Param → Fin 16
  | .gain c _ | .freq c _ | .mod c _ | .out c _ | .pan c => c

def Event.chan : Event → Fin 16
  | .set p _ _ | .linRamp p _ _ | .expRamp p _ _ | .cancelHold p _ | .target p _ _ _ => p.chan
  | .stop c _ _ _ => c

/-- The parameter an event is on; a STOP is on none. -/
def Event.param : Event → Option Param
  | .set p _ _ | .linRamp p _ _ | .expRamp p _ _ | .cancelHold p _ | .target p _ _ _ => some p
  | .stop _ _ _ _ => none

/-- The time of an event. -/
def Event.time : Event → ExReal
  | .set _ _ t | .linRamp _ _ t | .expRamp _ _ t | .cancelHold _ t | .target _ _ t _ | .stop _ _ _ t => t

/-- The events of a list that are on parameter p, in order. -/
def eventsOn (p : Param) (evs : List Event) : List Event := evs.filter fun e => e.param = some p

/-- One command's own event list keeps the time order of rule R71 on every parameter. -/
def InTimeOrder (evs : List Event) : Prop :=
  ∀ p, (eventsOn p evs).Pairwise fun a b => a.time.val ≤ b.time.val

/-- Every register of another channel is as before. -/
def OnlyChannel (s s' : State) (c : Fin 16) : Prop := ∀ c', c' ≠ c → s'.chan c' = s.chan c'

/-- A command that writes one envelope: it is performed, emits nothing, leaves envelope (c, o) as `e` and every
other register as it was, and changes no value of `Level` or `Life` (rule R109). -/
def SetsEnvelope (i : Instr) (s : State) (c : Fin 16) (o : Fin 4) (e : Envelope) : Prop :=
  ∃ s', exec i s = .next s' ∧ Performed s s' [] ∧ s'.env c o = e ∧ OnlyEnvelope s s' c o ∧
    ∀ c' o' t, s'.level c' o' t = s.level c' o' t ∧ s'.life c' o' t = s.life c' o' t

end Sys2Proof.Machine
end

