-- ==== Sys2Proof/Certificates/Slice0/Obligations.lean ====
section
/-!
DEFINITION. The statements for the provers. Each docstring names the rule of spec/ it formalises. `Config.cfg`
is any valid configuration record (nothing can be proved about which), so a statement over `exec` holds for each.
-/

open Sys2Proof Sys2Proof.Machine

/-! ### Encoding -/

/-- Decoding the encoding of a well-formed command gives it back, every operand at every value. -/
def Obligations.DecodeOfEncode : Prop :=
  ∀ i : Instr, WellFormed i = true → decode (encode i) = .ok i

/-- Every word that decodes is the encoding of what it decodes to, which is well formed: no bit of a word is
dropped, and no two words spell one command. -/
def Obligations.EncodeOfDecode : Prop :=
  ∀ (w : Word) (i : Instr), decode w = .ok i → encode i = w ∧ WellFormed i = true

/-- R87: the rows are pairwise disjoint, because every mask contains bits 31:26 and the 24 opcodes are distinct;
the decoder finds the row that matches, and else rejects the word. -/
def Obligations.RowsAreDisjoint : Prop :=
  (∀ r ∈ opcodeMap, r.mask &&& 0xFC000000#32 = 0xFC000000#32) ∧
  opcodeMap.length = 24 ∧
  (opcodeMap.map fun r => r.matchBits &&& 0xFC000000#32).Nodup ∧
  (∀ w : Word, ∀ a ∈ opcodeMap, ∀ b ∈ opcodeMap,
    w &&& a.mask = a.matchBits → w &&& b.mask = b.matchBits → a = b) ∧
  (∀ w : Word, ∀ a ∈ opcodeMap, w &&& a.mask = a.matchBits → decode w = operandsOf a.mnemonic w) ∧
  (∀ w : Word, (∀ a ∈ opcodeMap, w &&& a.mask ≠ a.matchBits) → decode w = .error .noRow)

/-- R91, R88 (2) to (4): a step on any word that spells no command answers ILLEGAL, writes no register and emits
no event. Such a word matches no row, as the 40 unassigned opcodes and the all-zero word do, or it matches a row
and its method is 3, its view is 3, its algorithm number is out of the view's range, or its pan pattern is 0x80. -/
def Obligations.UnmatchedWordIsIllegal : Prop :=
  (∀ (s : State) (w : Word) (p : Ports) (rest : List HostInput) (e : Illegal), s.inputs = .command w p :: rest →
    decode w = .error e →
    ∃ s', step s = .next s' ∧ s'.chans = s.chans ∧ s'.freeCounts = s.freeCounts ∧ s'.events = s.events ∧
      s'.inputs = rest ∧ s'.responses = s.responses ++ [⟨.illegal, .rat 0⟩]) ∧
  (∀ w : Word, (∀ a ∈ opcodeMap, w &&& a.mask ≠ a.matchBits) → decode w = .error .noRow) ∧
  (∀ w : Word, (w.toNat / 2 ^ 26 = 0 ∨ (0x0C ≤ w.toNat / 2 ^ 26 ∧ w.toNat / 2 ^ 26 ≤ 0x0F) ∨
      (0x14 ≤ w.toNat / 2 ^ 26 ∧ w.toNat / 2 ^ 26 ≤ 0x17) ∨ 0x21 ≤ w.toNat / 2 ^ 26) →
    ∀ a ∈ opcodeMap, w &&& a.mask ≠ a.matchBits) ∧
  (∀ (w : Word) (a : Row), a ∈ opcodeMap → w &&& a.mask = a.matchBits →
    ((∃ e, decode w = .error e) ↔
      (a.mnemonic ∈ [.opSetfreq, .chSetfb, .chSetpan] ∧ w.extractLsb' 17 2 = 3#2) ∨
      (a.mnemonic = .chUsealg ∧
        (w.extractLsb' 4 2 = 3#2 ∨ 8 ≤ (w.extractLsb' 0 4).toNat ∨
          (w.extractLsb' 4 2 ≠ 0#2 ∧ 2 ≤ (w.extractLsb' 0 4).toNat))) ∨
      (a.mnemonic = .chSetpan ∧ w.extractLsb' 0 8 = 0x80#8))) ∧
  (∀ (w : Word) (i : Instr), w.extractLsb' 17 2 = 3#2 → decode w ≠ .ok i)

/-- Words written out from the spec's encoding tables (95_test_vectors.md 3.1) decode to what they spell. -/
def Obligations.WordsDecodeAsWritten : Prop :=
  decode 0x0C100200 = .ok (.egSetsl 0 1 512) ∧
  decode 0x1C00000D = .ok (.egSetssg 0 0 13) ∧
  decode 0x2028070C = .ok (.egKeyon 0 2 true 7 12) ∧
  decode 0x407A3FFF = .ok (.opSetfreq 1 3 true .lin 7 2047) ∧
  decode 0x44100006 = .ok (.opSetdt 0 1 true 2) ∧
  decode 0x60080021 = .ok (.chUsealg 0 true .two1 1) ∧
  decode 0x642A0007 = .ok (.chSetfb 0 2 true .lin 7) ∧
  decode 0x680800C0 = .ok (.chSetpan 0 true .set 0xC0) ∧
  decode 0x80080000 = .ok (.chStop 0 true) ∧
  decode 0x04080005 = .error .noRow ∧
  decode 0x400E0005 = .error .method ∧
  decode 0x60080030 = .error .view ∧
  decode 0x60080008 = .error .algorithm ∧
  decode 0x68080080 = .error .pan

/-! ### The step, reset and the common checks -/

/-- A step performs the command that the next word spells, on the state with that input taken and its ports
sampled; with no input it changes nothing (the model's reading of R17, log entry 7). -/
def Obligations.StepRunsDecodedCommand : Prop :=
  (∀ (s : State) (w : Word) (p : Ports) (rest : List HostInput) (i : Instr),
    s.inputs = .command w p :: rest → decode w = .ok i → step s = exec i (s.take rest p)) ∧
  (∀ s : State, s.inputs = [] → step s = .next s)

/-- R221: what the state after reset is, in terms of `Level`, `Life` and the registers it names; and every other
register, at the value that the table of R34 gives it. -/
def Obligations.ResetStateReads : Prop :=
  (∀ (c : Fin 16) (o : Fin 4) (t : ExReal),
    State.reset.level c o t = some (.rat 0) ∧ State.reset.life c o t = .disabled) ∧
  (∀ c : Fin 16, (State.reset.chan c).g = Vector.replicate 8 0 ∧
    (State.reset.chan c).outLevel = Vector.replicate 4 0 ∧ (State.reset.chan c).pan = 0 ∧
    (State.reset.chan c).routeLastTime = .rat 0) ∧
  (∀ (c : Fin 16) (o : Fin 4), (State.reset.opr c o).frequency = 0 ∧ (State.reset.opr c o).keyCode = 0 ∧
    (State.reset.opr c o).detune.value = 0 ∧ (State.reset.opr c o).frequencyMultiple.val = 1 ∧
    (State.reset.opr c o).freqLastTime = .rat 0) ∧
  (∀ (c : Fin 16) (o : Fin 4), (State.reset.env c o).attackRate = 0 ∧ (State.reset.env c o).decayRate = 0 ∧
    (State.reset.env c o).sustainRate = 0 ∧ (State.reset.env c o).releaseRate = 0 ∧
    (State.reset.env c o).rateScaling = 0 ∧ (State.reset.env c o).sustainLevel = 0 ∧
    (State.reset.env c o).ssgEnabled = false ∧ (State.reset.env c o).inverted = false ∧
    (State.reset.env c o).jump = false ∧ (State.reset.env c o).looping = false ∧
    (State.reset.env c o).lastTime = .rat 0 ∧ (State.reset.env c o).silentAt = .inf) ∧
  HoldsResetValues State.reset ∧
  State.reset.events = []

/-- R220: the reset input puts every register of every channel in its reset value of R34 in one step and emits no
event (that the record of events starts again, and that the counters of free values stay, is log entry 6). -/
def Obligations.ResetInputRestoresEveryRegister : Prop :=
  ∀ (s : State) (rest : List HostInput), s.inputs = .reset :: rest →
    ∃ s', step s = .next s' ∧ HoldsResetValues s' ∧ s'.chans = State.reset.chans ∧ s'.events = [] ∧ s'.inputs = rest ∧
      s'.freeCounts = s.freeCounts ∧ s'.ports = s.ports

/-- R202, R205 rows 2 to 6, R88, R83: the time of a command is NOW where `tv = 0`, and the TIME port where it
holds a finite non-negative real; a command that has no time, whose channel is not below `N_CH`, or whose operands
are out of range answers ILLEGAL and does nothing. -/
def Obligations.FailedConditionAnswersIllegal : Prop :=
  (∀ p : Ports,
    commandTime p false = some p.now ∧
    (∀ x : ExReal, p.time = .real x → 0 ≤ x.val → commandTime p true = some x) ∧
    (∀ x : ExReal, p.time = .real x → x.val < 0 → commandTime p true = none) ∧
    (p.time = .notFinite → commandTime p true = none)) ∧
  (∀ (cfg : Cfg) (c : Fin 16), cfg.hasChannel c = true ↔ c.val < cfg.data.nCh) ∧
  (∀ (i : Instr) (s : State),
    ¬(i.chan.val < Config.cfg.data.nCh ∧ WellFormed i = true ∧
      (commandTime s.ports i.timeValid).isSome = true) →
    ∃ s', exec i s = .next s' ∧ Answered s s' .illegal (.rat 0) [] ∧ s'.chans = s.chans ∧
      s'.freeCounts = s.freeCounts)

/-- R231, R203 (3): after CH.STOP every command on the channel is UNDEFINED, a second CH.STOP included, and no
command clears `stopped`. -/
def Obligations.StoppedChannelRefusesEveryCommand : Prop :=
  (∀ (i : Instr) (s : State), Config.cfg.hasChannel i.chan = true → WellFormed i = true →
    (commandTime s.ports i.timeValid).isSome = true → (s.chan i.chan).stopped = true →
    exec i s = .refused .undefinedStopped) ∧
  (∀ (i : Instr) (s s' : State) (c : Fin 16), exec i s = .next s' → (s.chan c).stopped = true →
    (s'.chan c).stopped = true)

/-- R201, R203 (4): OP.SETFREQ without a valid RATIO answers MISSING_OPERAND, before its time order is looked
at; no register is written and no event is emitted. The time cannot be missing: `tv = 0` is the time NOW. -/
def Obligations.MissingRatioAnswersMissingOperand : Prop :=
  ∀ (s : State) (c : Fin 16) (o : Fin 4) (tv : Bool) (m : Method) (block : BitVec 3) (fn : BitVec 11) (t : ExReal),
    Ready s c tv t → s.ports.ratio = none →
    ∃ s', exec (.opSetfreq c o tv m block fn) s = .next s' ∧ Answered s s' .missingOperand (.rat 0) [] ∧
      s'.chans = s.chans ∧ s'.freeCounts = s.freeCounts ∧ commandTime s.ports false = some s.ports.now

/-- R226, R203 (6): a command that carries a time earlier than the last-time register that guards it is
UNDEFINED; a composite is where any operator it touches is. -/
def Obligations.EarlierTimeIsUndefined : Prop :=
  ∀ (s : State) (c : Fin 16) (tv : Bool) (t : ExReal), s.Inv → Ready s c tv t →
    (∀ (o : Fin 4) (tag : BitVec 8) (kc : BitVec 5), t.val < (s.env c o).lastTime.val →
      exec (.egKeyon c o tv tag kc) s = .refused .undefinedTimeOrder ∧
      exec (.egKeyoff c o tv tag kc) s = .refused .undefinedTimeOrder ∧
      exec (.egSoundoff c o tv) s = .refused .undefinedTimeOrder ∧
      exec (.opKeyon c o tv tag) s = .refused .undefinedTimeOrder ∧
      exec (.opKeyoff c o tv tag) s = .refused .undefinedTimeOrder ∧
      exec (.chDisop c o tv) s = .refused .undefinedTimeOrder ∧
      exec (.chSoundoff c tv) s = .refused .undefinedTimeOrder ∧
      ((s.opr c o).enabled = true →
        exec (.chKeyon c tv tag) s = .refused .undefinedTimeOrder ∧
        exec (.chKeyoff c tv tag) s = .refused .undefinedTimeOrder)) ∧
    (∀ (o : Fin 4) (m : Method) (block : BitVec 3) (fn : BitVec 11), s.ports.ratio.isSome = true →
      t.val < (s.opr c o).freqLastTime.val →
      exec (.opSetfreq c o tv m block fn) s = .refused .undefinedTimeOrder) ∧
    (t.val < (s.chan c).routeLastTime.val →
      (∀ (view : View) (n : BitVec 4), algorithmInRange view n = true →
        exec (.chUsealg c tv view n) s = .refused .undefinedTimeOrder) ∧
      (∀ (o : Fin 4) (m : Method) (amount : BitVec 3), o = 0 ∨ o = 2 →
        exec (.chSetfb c o tv m amount) s = .refused .undefinedTimeOrder) ∧
      (∀ (m : Method) (p : BitVec 8), p ≠ 0x80#8 →
        exec (.chSetpan c tv m p) s = .refused .undefinedTimeOrder))

/-- R84, R200: a command that has a successor state answers exactly one status, and its value is zero unless it
is EG.LEVEL with status OK; the event stream only grows (R68: the block never recalls an event). -/
def Obligations.EveryCommandAnswersOnce : Prop :=
  ∀ (i : Instr) (s s' : State), exec i s = .next s' →
    (∃ st v, s'.responses = s.responses ++ [⟨st, v⟩] ∧
      ((∀ c o tv, i = .egLevel c o tv → st ≠ .ok) → v = .rat 0)) ∧
    (∃ evs, s'.events = s.events ++ evs) ∧ s'.inputs = s.inputs ∧ s'.ports = s.ports

/-! ### Envelope setters -/

/-- R100 to R105: each rate, level and scaling setter writes the one register it names, emits nothing, and
changes no value of `Level`; a setter is untimed, so nothing but its channel is asked of the state. -/
def Obligations.RateSettersWriteOneRegister : Prop :=
  ∀ (s : State) (c : Fin 16) (o : Fin 4), Config.cfg.hasChannel c = true → (s.chan c).stopped = false →
    (∀ rate, SetsEnvelope (.egSetar c o rate) s c o { s.env c o with attackRate := rate }) ∧
    (∀ rate, SetsEnvelope (.egSetdr c o rate) s c o { s.env c o with decayRate := rate }) ∧
    (∀ level, SetsEnvelope (.egSetsl c o level) s c o { s.env c o with sustainLevel := level }) ∧
    (∀ rate, SetsEnvelope (.egSetsr c o rate) s c o { s.env c o with sustainRate := rate }) ∧
    (∀ rate, SetsEnvelope (.egSetrr c o rate) s c o { s.env c o with releaseRate := rate }) ∧
    (∀ scaling, SetsEnvelope (.egSetrs c o scaling) s c o { s.env c o with rateScaling := scaling })

/-- R106, R107, R108: EG.SETSSG replaces the four mode flags; the cache-valid bit is cleared exactly when
`inverted` or `jump` changes; mode 8 is (loop, non-inverted, no jump); modes 0 to 7 are one command. -/
def Obligations.SsgModeReplacesFlags : Prop :=
  ∀ (s : State) (c : Fin 16) (o : Fin 4) (mode : BitVec 4), Config.cfg.hasChannel c = true →
    (s.chan c).stopped = false →
    let e := s.env c o
    let shape : SsgShape :=
      if mode.toNat < 8 then ⟨false, false, false⟩ else Config.cfg.data.ssgDecode (BitVec.ofNat 3 (mode.toNat - 8))
    SetsEnvelope (.egSetssg c o mode) s c o
      { e with
        ssgEnabled := decide (8 ≤ mode.toNat)
        inverted := shape.inverted
        jump := shape.jump
        looping := shape.looping
        ssgCacheValid := if shape.inverted = e.inverted ∧ shape.jump = e.jump then e.ssgCacheValid else false } ∧
    (mode = 8 → shape = ⟨false, false, true⟩)

/-- R109: the setters are idempotent, and setters on different registers commute. -/
def Obligations.SettersAreIdempotentAndCommute : Prop :=
  ∀ (i j : Instr) (k l : Nat × Fin 16 × Fin 4) (s : State), i.setter = some k → j.setter = some l →
    (∀ s1 s2, exec i s = .next s1 → exec i s1 = .next s2 → s2.chans = s1.chans) ∧
    (k ≠ l → ∀ s1 s2 u1 u2, exec i s = .next s1 → exec j s1 = .next s2 → exec j s = .next u1 →
      exec i u1 = .next u2 → s2.chans = u2.chans)

/-! ### Key-on -/

/-- R126, R27, R34: what EG.KEYON writes (its phase ends are the next statements'), and its frame. A key-on is
performed whenever its time is in order and the level it samples is defined. -/
def Obligations.KeyOnTakesSnapshot : Prop :=
  ∀ (s : State) (c : Fin 16) (o : Fin 4) (tv : Bool) (tag : BitVec 8) (kc : BitVec 5) (t b : ExReal),
    Ready s c tv t → (s.env c o).lastTime.val ≤ t.val → s.level c o t = some b →
    ∃ s' evs, exec (.egKeyon c o tv tag kc) s = .next s' ∧ Answered s s' .ok (.rat 0) evs ∧
      (s'.env c o).beginLevel = b ∧ (s'.env c o).beginAttack = t ∧ (s'.env c o).lastTime = t ∧
      (s'.env c o).egKey = .on ∧ (s'.env c o).srcTag = tag ∧
      (s'.env c o).snapSL = (s.env c o).sustainLevel ∧ (s'.env c o).snapSSG = (s.env c o).ssgEnabled ∧
      (s'.env c o).snapInv = (s.env c o).inverted ∧ (s'.env c o).snapJmp = (s.env c o).jump ∧
      (s'.env c o).snapLoop = (s.env c o).looping ∧
      (s'.env c o).ssgCacheValid = ((s.env c o).ssgEnabled || (s.env c o).ssgCacheValid) ∧
      Envelope.sameParameters (s.env c o) (s'.env c o) ∧ Envelope.sameRelease (s.env c o) (s'.env c o) ∧
      OnlyEnvelope s s' c o ∧
      ∀ c', s'.freeCount c' = s.freeCount c' + (if c' = c ∧ (s.env c o).ssgEnabled = true then 1 else 0)

/-- R123: the three cases of the attack, with the level they give; `endAttack >= T`, with equality exactly when
`b = 1023`; `ca >= 2` in the third case. -/
def Obligations.AttackEndsAsComputed : Prop :=
  ∀ (s : State) (c : Fin 16) (o : Fin 4) (tv : Bool) (tag : BitVec 8) (kc : BitVec 5) (t b : ExReal),
    Ready s c tv t → (s.env c o).lastTime.val ≤ t.val → s.level c o t = some b → 0 ≤ b.val → b.val ≤ 1023 →
    ∃ s', exec (.egKeyon c o tv tag kc) s = .next s' ∧
      let e := s.env c o
      let e' := s'.env c o
      let ca := BitVec.ofNat 6 (min 63 (2 * e.attackRate.toNat + kc.toNat / 2 ^ (3 - e.rateScaling.toNat)))
      let g := (Config.cfg.data.attackTarget ca).val
      let tc := (Config.cfg.data.attackConstant ca).val * Config.cfg.data.envTick
      (e.inverted = true → e'.hasAttack = false ∧ e'.prevAttackRate = 0 ∧ e'.endAttack = .fin t) ∧
      (e.inverted = false → e.attackRate = 0 →
        e'.hasAttack = true ∧ e'.prevAttackRate = 0 ∧ e'.endAttack = .inf ∧
        ∀ u : ExReal, t.val ≤ u.val → s'.level c o u = some b) ∧
      (e.inverted = false → e.attackRate ≠ 0 →
        e'.hasAttack = true ∧ e'.prevAttackRate = ca ∧ 2 ≤ ca.toNat ∧
        ∃ a : ExReal, e'.endAttack = .fin a ∧
          a.val = t.val + tc * Real.log ((g - b.val) / (g - 1023)) ∧ t.val ≤ a.val ∧
          (a.val = t.val ↔ b.val = 1023) ∧
          ∀ u : ExReal, t.val ≤ u.val → u.val < a.val →
            ∃ x, s'.level c o u = some x ∧ x.val = g - (g - b.val) * Real.exp (-(u.val - t.val) / tc))

/-- R124: the end of the decay, tested in the rule's order, and the level on it for a note without SSG. -/
def Obligations.DecayEndsAsComputed : Prop :=
  ∀ (s : State) (c : Fin 16) (o : Fin 4) (tv : Bool) (tag : BitVec 8) (kc : BitVec 5) (t b : ExReal),
    Ready s c tv t → (s.env c o).lastTime.val ≤ t.val → s.level c o t = some b →
    ∃ s', exec (.egKeyon c o tv tag kc) s = .next s' ∧
      let e := s.env c o
      let e' := s'.env c o
      let slope := incPerSec Config.cfg
        (BitVec.ofNat 6 (min 63 (2 * e.decayRate.toNat + kc.toNat / 2 ^ (3 - e.rateScaling.toNat))))
      (e'.endAttack = .inf → e'.endDecay = .inf) ∧
      (e.decayRate = 0 → e'.endDecay = .inf) ∧
      (∀ a u : ExReal, e'.endAttack = .fin a → e'.endDecay = .inf → e.ssgEnabled = false → e.inverted = false →
        t.val ≤ u.val → a.val ≤ u.val → ∃ x, s'.level c o u = some x ∧ x.val = 1023) ∧
      ∀ a : ExReal, e'.endAttack = .fin a → e.decayRate ≠ 0 →
        (e.sustainLevel = 1023 → e'.endDecay = .fin a) ∧
        (e.sustainLevel ≠ 1023 → slope = 0 → e'.endDecay = .inf) ∧
        (e.sustainLevel ≠ 1023 → slope ≠ 0 → ∃ d : ExReal, e'.endDecay = .fin d ∧
          d.val = a.val + (1023 - e.sustainLevel.toNat) / slope ∧
          (e.ssgEnabled = false → e.inverted = false → ∀ u : ExReal, t.val ≤ u.val → a.val ≤ u.val → u.val < d.val →
            ∃ x, s'.level c o u = some x ∧
              x.val = 1023 - (1023 - e.sustainLevel.toNat) * (u.val - a.val) / (d.val - a.val)))

/-- R125: the end of the sustain, tested in the rule's order, and the level on it for a note without SSG. -/
def Obligations.SustainEndsAsComputed : Prop :=
  ∀ (s : State) (c : Fin 16) (o : Fin 4) (tv : Bool) (tag : BitVec 8) (kc : BitVec 5) (t b : ExReal),
    Ready s c tv t → (s.env c o).lastTime.val ≤ t.val → s.level c o t = some b →
    ∃ s', exec (.egKeyon c o tv tag kc) s = .next s' ∧
      let e := s.env c o
      let e' := s'.env c o
      let slope := incPerSec Config.cfg
        (BitVec.ofNat 6 (min 63 (2 * e.sustainRate.toNat + kc.toNat / 2 ^ (3 - e.rateScaling.toNat))))
      (e'.endDecay = .inf → e'.endSustain = .inf) ∧
      (∀ d u : ExReal, e'.endDecay = .fin d → e'.endSustain = .inf → e.ssgEnabled = false → e.inverted = false →
        t.val ≤ u.val → e'.endAttack.val ≤ u.val → d.val ≤ u.val →
        ∃ x, s'.level c o u = some x ∧ x.val = e.sustainLevel.toNat) ∧
      ∀ d : ExReal, e'.endDecay = .fin d →
        (e.sustainLevel = 0 → e'.endSustain = .fin d) ∧
        (e.sustainLevel ≠ 0 → e.sustainRate = 0 ∨ slope = 0 → e'.endSustain = .inf) ∧
        (e.sustainLevel ≠ 0 → e.sustainRate ≠ 0 → slope ≠ 0 → ∃ q : ExReal, e'.endSustain = .fin q ∧
          q.val = d.val + e.sustainLevel.toNat / slope ∧
          (e.ssgEnabled = false → e.inverted = false →
            ∀ u : ExReal, t.val ≤ u.val → e'.endAttack.val ≤ u.val → d.val ≤ u.val → u.val < q.val →
            ∃ x, s'.level c o u = some x ∧
              x.val = e.sustainLevel.toNat - e.sustainLevel.toNat * (u.val - d.val) / (q.val - d.val)))

/-- R127: `stopTime`, the STOP event a key-on emits where it is finite, and `silentAt`. -/
def Obligations.SilenceIsDetectedAtKeyOn : Prop :=
  ∀ (s : State) (c : Fin 16) (o : Fin 4) (tv : Bool) (tag : BitVec 8) (kc : BitVec 5) (t b : ExReal),
    Ready s c tv t → (s.env c o).lastTime.val ≤ t.val → s.level c o t = some b →
    ∃ s', exec (.egKeyon c o tv tag kc) s = .next s' ∧
      let e' := s'.env c o
      let xEnd : Int := if e'.snapJmp then 1023 else 0
      let lEnd : Int := if e'.snapInv then 1023 - xEnd else xEnd
      let stopTime : ETime :=
        if e'.endSustain = .inf then .inf
        else if e'.snapSSG = false then e'.endSustain
        else if e'.snapLoop then .inf
        else if lEnd = 0 then e'.endSustain else .inf
      e'.silentAt = stopTime ∧
      ((newEvents s s').filter fun ev => ev.param = none) =
        match stopTime with
        | .fin x => [.stop c o tag x]
        | .inf => []

/-- R127's purpose, "true silence": from the time a key-on or a key-off has named in a STOP the level is 0. -/
def Obligations.LevelIsZeroFromStop : Prop :=
  ∀ (s s' : State) (c : Fin 16) (o : Fin 4) (tv : Bool) (tag : BitVec 8) (kc : BitVec 5) (t q u : ExReal),
    s.Inv → Ready s c tv t →
    (exec (.egKeyon c o tv tag kc) s = .next s' ∨ exec (.egKeyoff c o tv tag kc) s = .next s') →
    (s'.env c o).silentAt = .fin q → q.val ≤ u.val → ∃ x, s'.level c o u = some x ∧ x.val = 0

/-- R128: the events of EG.KEYON in order, read as real numbers. Without SSG they are the rule's five groups and
the STOP; with SSG the events after `endAttack` are not specified (free values, log entry 4) and only known to be
later events on the same parameter. -/
def Obligations.KeyOnEmitsItsEvents : Prop :=
  ∀ (s : State) (c : Fin 16) (o : Fin 4) (tv : Bool) (tag : BitVec 8) (kc : BitVec 5) (t b : ExReal),
    Ready s c tv t → (s.env c o).lastTime.val ≤ t.val → s.level c o t = some b → 0 ≤ b.val → b.val ≤ 1023 →
    ∃ s' evs x, exec (.egKeyon c o tv tag kc) s = .next s' ∧ Answered s s' .ok (.rat 0) evs ∧
      s'.level c o t = some x ∧
      let e' := s'.env c o
      let p := Param.gain c o
      let attack : List RealEvent :=
        match e'.endAttack with
        | .fin a =>
          if e'.prevAttackRate ≠ 0 ∧ t.val < a.val then
            [.target p ((Config.cfg.data.attackTarget e'.prevAttackRate).val / 1023) t.val
              ((Config.cfg.data.attackConstant e'.prevAttackRate).val * Config.cfg.data.envTick),
             .set p 1 a.val]
          else []
        | .inf => []
      let decay : List RealEvent :=
        match e'.endAttack, e'.endDecay with
        | .fin a, .fin d => if a.val < d.val then [.linRamp p (e'.snapSL.toNat / 1023) d.val] else []
        | _, _ => []
      let sustain : List RealEvent :=
        match e'.endDecay, e'.endSustain with
        | .fin d, .fin q => if d.val < q.val then [.linRamp p 0 q.val] else []
        | _, _ => []
      let head : List RealEvent := [.cancelHold p t.val, .set p (x.val / 1023) t.val] ++ attack
      ((s.env c o).ssgEnabled = false →
        evs.map Event.real = head ++ decay ++ sustain ++ realStop c o tag e'.silentAt) ∧
      ((s.env c o).ssgEnabled = true →
        ∃ tail : List Event, evs.map Event.real = head ++ tail.map Event.real ++ realStop c o tag e'.silentAt ∧
          ∀ ev ∈ tail, ev.param = some p ∧ e'.endAttack.val < (ev.time.val : EReal))

/-! ### Key-off and sound-off -/

/-- R135, R136: the release registers EG.KEYOFF writes, with the release rate code `2 r + 1 + adj`, its frame, and
its events in order, read as real numbers, with its STOP. -/
def Obligations.KeyOffStartsRelease : Prop :=
  ∀ (s : State) (c : Fin 16) (o : Fin 4) (tv : Bool) (tag : BitVec 8) (kc : BitVec 5) (t l : ExReal),
    Ready s c tv t → (s.env c o).lastTime.val ≤ t.val → s.level c o t = some l →
    ∃ s' evs, exec (.egKeyoff c o tv tag kc) s = .next s' ∧ Answered s s' .ok (.rat 0) evs ∧
      s'.freeCounts = s.freeCounts ∧ OnlyEnvelope s s' c o ∧
      let e := s.env c o
      let p := Param.gain c o
      let slope := incPerSec Config.cfg
        (BitVec.ofNat 6 (min 63 (2 * e.releaseRate.toNat + 1 + kc.toNat / 2 ^ (3 - e.rateScaling.toNat))))
      ∃ eR : ETime,
        s'.env c o =
          { e with
            beginRelease := t
            releaseLevel := l
            endRelease := eR
            egKey := .off
            srcTag := tag
            lastTime := t
            silentAt := eR } ∧
        (l.val = 0 → eR = .fin t) ∧
        (l.val ≠ 0 → slope = 0 → eR = .inf) ∧
        (l.val ≠ 0 → slope ≠ 0 → eR.val = ((t.val + l.val / slope : ℝ) : EReal)) ∧
        evs.map Event.real =
          [.cancelHold p t.val, .set p (l.val / 1023) t.val] ++
            (match eR with
            | .fin r => if t.val < r.val then [.linRamp p 0 r.val] else []
            | .inf => []) ++
            realStop c o tag eR

/-- R141 (b), (c), R235: there is no jump at key-off, nor at a key-on without inversion; an inverted key-on makes
the level 0. -/
def Obligations.LevelAtKeyOnAndKeyOff : Prop :=
  ∀ (s : State) (c : Fin 16) (o : Fin 4) (tv : Bool) (tag : BitVec 8) (kc : BitVec 5) (t b : ExReal),
    s.Inv → Ready s c tv t → (s.env c o).lastTime.val ≤ t.val → s.level c o t = some b →
    (∃ s' x, exec (.egKeyon c o tv tag kc) s = .next s' ∧ s'.level c o t = some x ∧
      ((s.env c o).inverted = false → x.val = b.val) ∧ ((s.env c o).inverted = true → x.val = 0)) ∧
    (∃ s' x, exec (.egKeyoff c o tv tag kc) s = .next s' ∧ s'.level c o t = some x ∧ x.val = b.val)

/-- R137, R138: EG.SOUNDOFF is a zero-length release from level 0, with exactly two events; the level is 0 from
`T` on, while earlier times of a note keyed on still read its snapshot. -/
def Obligations.SoundOffSilences : Prop :=
  ∀ (s : State) (c : Fin 16) (o : Fin 4) (tv : Bool) (t : ExReal),
    Ready s c tv t → (s.env c o).lastTime.val ≤ t.val →
    ∃ s', exec (.egSoundoff c o tv) s = .next s' ∧
      Performed s s' [.cancelHold (.gain c o) t, .set (.gain c o) (.rat 0) t] ∧ OnlyEnvelope s s' c o ∧
      s'.env c o =
        { s.env c o with
          beginRelease := t
          releaseLevel := .rat 0
          endRelease := .fin t
          egKey := .off
          silentAt := .fin t
          lastTime := t } ∧
      (∀ u : ExReal, t.val ≤ u.val → s'.level c o u = some (.rat 0)) ∧
      (∀ u : ExReal, u.val < t.val → (s.env c o).egKey = .on → s'.level c o u = s.level c o u)

/-! ### The level function -/

/-- R139, R130 (a), (c): EG.LEVEL answers the level, writes no register and emits no event, at any time, before
or after any other command's; it is UNDEFINED exactly before the current note of a keyed envelope. -/
def Obligations.LevelQueryHasNoSideEffect : Prop :=
  ∀ (s : State) (c : Fin 16) (o : Fin 4) (tv : Bool) (t : ExReal), Ready s c tv t →
    (∀ v, s.level c o t = some v → ∃ s', exec (.egLevel c o tv) s = .next s' ∧ Answered s s' .ok v [] ∧
      s'.chans = s.chans ∧ s'.freeCounts = s.freeCounts) ∧
    (s.level c o t = none → exec (.egLevel c o tv) s = .refused .undefinedLevel) ∧
    ((s.env c o).egKey = .idle → s.level c o t = some (.rat 0)) ∧
    (s.level c o t = none ↔
      (s.env c o).egKey ≠ .idle ∧ ¬((s.env c o).egKey = .off ∧ (s.env c o).beginRelease.val ≤ t.val) ∧
        t.val < (s.env c o).beginAttack.val)

/-- R131, R134: the attack branch and the release branch of the level. -/
def Obligations.AttackAndReleaseBranches : Prop :=
  ∀ (cfg : Cfg) (e : Envelope) (t : ExReal),
    (e.ReadsNote t → (t.val : EReal) < e.endAttack.val →
      ∃ x, e.level cfg t = some x ∧
        (e.prevAttackRate = 0 → x = e.beginLevel) ∧
        (e.prevAttackRate ≠ 0 →
          let g := (cfg.data.attackTarget e.prevAttackRate).val
          let tc := (cfg.data.attackConstant e.prevAttackRate).val * cfg.data.envTick
          x.val = max 0 (min 1023 (g - (g - e.beginLevel.val) * Real.exp (-(t.val - e.beginAttack.val) / tc))))) ∧
    (e.egKey = .off → e.beginRelease.val ≤ t.val →
      ∃ x, e.level cfg t = some x ∧
        (e.endRelease = .inf → x = e.releaseLevel) ∧
        ∀ r : ExReal, e.endRelease = .fin r →
          x.val = if r.val ≤ t.val then 0
            else e.releaseLevel.val * (r.val - t.val) / (r.val - e.beginRelease.val))

/-- R129, R132, R133: after the attack the level is the base profile without SSG, and with SSG one cycle and then
what `snapLoop` and `snapJmp` say; the inversion comes last. -/
def Obligations.PostAttackBranches : Prop :=
  ∀ (cfg : Cfg) (e : Envelope) (t a : ExReal), e.ReadsNote t → e.endAttack = .fin a → a.val ≤ t.val →
    ∃ (x : ExReal) (y : ℝ), e.level cfg t = some x ∧ (x.val = if e.snapInv then 1023 - y else y) ∧
      let d := fun s => e.profile a.val s
      let s := t.val - a.val
      (e.snapSSG = false ∨ e.endSustain = .inf → y = d s) ∧
      ∀ q : ExReal, e.snapSSG = true → e.endSustain = .fin q →
        let p := q.val - a.val
        let k := ⌊s / p⌋
        let f := s - k * p
        (e.snapLoop = false → e.snapJmp = false → y = d s) ∧
        (e.snapLoop = false → e.snapJmp = true → y = if s < p then d s else 1023) ∧
        (e.snapLoop = true → e.snapJmp = true → y = d f) ∧
        (e.snapLoop = true → e.snapJmp = false → y = if k % 2 = 0 then d f else 1023 - d f)

/-- R141 (a), R26: wherever it is defined, the level lies in 0 to 1023. -/
def Obligations.LevelStaysInBounds : Prop :=
  ∀ (s : State) (c : Fin 16) (o : Fin 4) (t x : ExReal), s.Inv → s.level c o t = some x →
    0 ≤ x.val ∧ x.val ≤ 1023

/-- R203 (7): once a command's time is in order, the level it samples is defined. -/
def Obligations.LevelIsDefinedInTimeOrder : Prop :=
  ∀ (s : State) (c : Fin 16) (o : Fin 4) (t : ExReal), s.Inv → (s.env c o).lastTime.val ≤ t.val →
    ∃ x, s.level c o t = some x

/-- R141 (d): on a note without SSG the level does not fall during the attack and does not rise after it; on an
inverted SSG note it does not fall on cycle 0. -/
def Obligations.LevelIsMonotone : Prop :=
  ∀ (s : State) (c : Fin 16) (o : Fin 4) (t u x y : ExReal), s.Inv →
    let e := s.env c o
    e.egKey = .on → e.beginAttack.val ≤ t.val → t.val ≤ u.val → s.level c o t = some x → s.level c o u = some y →
    (e.snapSSG = false → (u.val : EReal) < e.endAttack.val → x.val ≤ y.val) ∧
    (e.snapSSG = false → e.endAttack.val ≤ (t.val : EReal) → y.val ≤ x.val) ∧
    (e.snapSSG = true → e.snapInv = true → e.endAttack.val ≤ (t.val : EReal) →
      (u.val : EReal) < e.endSustain.val → x.val ≤ y.val)

/-- R141 (e): a looping note of finite cycle length P repeats, with period P where it jumps and 2P where not. -/
def Obligations.LoopingLevelIsPeriodic : Prop :=
  ∀ (s : State) (c : Fin 16) (o : Fin 4) (a q t u x y : ExReal), s.Inv →
    let e := s.env c o
    e.egKey = .on → e.snapSSG = true → e.snapLoop = true → e.endAttack = .fin a → e.endSustain = .fin q →
    a.val ≤ t.val → u.val = t.val + (if e.snapJmp then 1 else 2) * (q.val - a.val) →
    s.level c o t = some x → s.level c o u = some y → x.val = y.val

/-- R140: the phase at `t`, by the interval that `t` lies in; and the phases of a note without SSG come in the
order ATTACK, DECAY, SUSTAIN, ENDED. -/
def Obligations.PhasesComeInOrder : Prop :=
  (∀ (e : Envelope) (t : ExReal), e.Inv →
    (e.egKey = .idle → e.phase t = some .idle) ∧
    (e.egKey = .off → e.beginRelease.val ≤ t.val → (t.val : EReal) < e.endRelease.val → e.phase t = some .release) ∧
    (e.egKey = .off → e.endRelease.val ≤ (t.val : EReal) → e.phase t = some .silent) ∧
    (e.ReadsNote t →
      ((t.val : EReal) < e.endAttack.val → e.phase t = some .attack) ∧
      (e.snapSSG = false →
        (e.endAttack.val ≤ (t.val : EReal) → (t.val : EReal) < e.endDecay.val → e.phase t = some .decay) ∧
        (e.endDecay.val ≤ (t.val : EReal) → (t.val : EReal) < e.endSustain.val → e.phase t = some .sustain) ∧
        (e.endSustain.val ≤ (t.val : EReal) → e.phase t = some .ended)) ∧
      (e.snapSSG = true → ∀ a : ExReal, e.endAttack = .fin a → a.val ≤ t.val →
        (e.endSustain = .inf → e.phase t = some (.cycle 0)) ∧
        ∀ q : ExReal, e.endSustain = .fin q →
          (e.snapLoop = false → q.val ≤ t.val → e.phase t = some .hold) ∧
          (e.snapLoop = true ∨ t.val < q.val →
            e.phase t = some (.cycle ⌊(t.val - a.val) / (q.val - a.val)⌋))))) ∧
  (∀ (e : Envelope) (t u : ExReal), e.egKey = .on → e.snapSSG = false → e.beginAttack.val ≤ t.val →
    t.val ≤ u.val →
    ∃ p q m n, e.phase t = some p ∧ e.phase u = some q ∧ p.rank = some m ∧ q.rank = some n ∧ m ≤ n)

/-- R190: `Life`, tested in the rule's order. -/
def Obligations.LifeIsComputed : Prop :=
  ∀ (s : State) (c : Fin 16) (o : Fin 4) (t : ExReal),
    let e := s.env c o
    ((s.opr c o).enabled = false → s.life c o t = .disabled) ∧
    ((s.opr c o).enabled = true → e.egKey = .idle → s.life c o t = .enabled) ∧
    ((s.opr c o).enabled = true → e.egKey ≠ .idle → e.silentAt.val ≤ (t.val : EReal) → s.life c o t = .silent) ∧
    ((s.opr c o).enabled = true → (t.val : EReal) < e.silentAt.val → e.egKey = .on → s.life c o t = .keyedOn) ∧
    ((s.opr c o).enabled = true → (t.val : EReal) < e.silentAt.val → e.egKey = .off → s.life c o t = .keyedOff)

/-! ### Frequency -/

/-- R151, R153, R155: the key code, the detune delta and the full frequency number. -/
def Obligations.FrequencyArithmetic : Prop :=
  ∀ (cfg : Cfg) (block : BitVec 3) (fn : BitVec 11) (dt : Detune) (kc : BitVec 5),
    (calcKeyCode cfg block fn).toNat = 4 * block.toNat + (cfg.data.keycodeLow fn).toNat ∧
    detuneDelta cfg dt kc = dt.value.sign * (cfg.data.detuneTable dt.mag kc : Int) ∧
    (componentsToFullFreq block fn : Int) = ⌊(fn.toNat * 2 ^ block.toNat / 2 : ℚ)⌋ ∧
    componentsToFullFreq block fn ≤ 131008 ∧
    (1 ≤ block.toNat → componentsToFullFreq block fn = fn.toNat * 2 ^ (block.toNat - 1))

/-- R156: `fullFreqToComponents` takes the least block that represents the number, and is undefined from 131040 on. -/
def Obligations.FullFrequencyTakesLeastBlock : Prop :=
  ∀ f : ExReal, 0 ≤ f.val →
    (131040 ≤ f.val → fullFreqToComponents f = none) ∧
    (f.val < 131040 → ∃ (b : BitVec 3) (fn : BitVec 11), fullFreqToComponents f = some (b, fn) ∧
      f.val * (2 / 2 ^ b.toNat) < 2047.5 ∧
      (∀ k, k < b.toNat → 2047.5 ≤ f.val * (2 / 2 ^ k)) ∧
      (fn.toNat : Int) = ⌊f.val * (2 / 2 ^ b.toNat) + 1 / 2⌋)

/-- R157: the round trip through the full frequency number. -/
def Obligations.FullFrequencyRoundTrip : Prop :=
  ∀ (block : BitVec 3) (fn : BitVec 11), ∃ (b : BitVec 3) (n : BitVec 11),
    fullFreqToComponents (.rat (componentsToFullFreq block fn)) = some (b, n) ∧
    componentsToFullFreq b n = componentsToFullFreq block fn ∧
    (1 ≤ block.toNat → 1024 ≤ fn.toNat → b = block ∧ n = fn) ∧
    (block = 0 → b = 0 ∧ n.toNat = fn.toNat - fn.toNat % 2) ∧
    (1 ≤ block.toNat → fn.toNat < 1024 → b.toNat < block.toNat)

/-- R158: what OP.SETFREQ writes and emits; the key code is the one of its own operands, a negative detuned
number has 0x1FFFF added once, and nothing is rounded; MISSING_OPERAND and UNDEFINED as the rule says. -/
def Obligations.SetFreqSchedulesFrequency : Prop :=
  ∀ (s : State) (c : Fin 16) (o : Fin 4) (tv : Bool) (m : Method) (block : BitVec 3) (fn : BitVec 11) (t : ExReal)
    (mult : PosRat),
    Ready s c tv t →
    (s.ports.ratio = none → ∃ s', exec (.opSetfreq c o tv m block fn) s = .next s' ∧
      Answered s s' .missingOperand (.rat 0) [] ∧ s'.chans = s.chans) ∧
    (s.ports.ratio = some mult → t.val < (s.opr c o).freqLastTime.val →
      exec (.opSetfreq c o tv m block fn) s = .refused .undefinedTimeOrder) ∧
    (s.ports.ratio = some mult → (s.opr c o).freqLastTime.val ≤ t.val →
    let d := Config.cfg.data
    let kc := BitVec.ofNat 5 (4 * block.toNat + (d.keycodeLow fn).toNat)
    let q := s.opr c o
    let detuned : Int := (fn.toNat * 2 ^ block.toNat / 2 : Nat) + q.detune.value.sign * (d.detuneTable q.detune.mag kc : Int)
    let f : Int := if detuned < 0 then detuned + 131071 else detuned
    let hz : Rat := f * mult.val * d.frequencyStep
    let ev : Event :=
      match m with
      | .set => .set (.freq c o) (.rat hz) t
      | .lin => .linRamp (.freq c o) (.rat hz) t
      | .exp => .expRamp (.freq c o) (.rat hz) t
    ∃ s', exec (.opSetfreq c o tv m block fn) s = .next s' ∧ Performed s s' [ev] ∧ OnlyOperator s s' c o ∧
      s'.opr c o =
        { q with
          frequency := hz
          freqBlockNumber := block
          frequencyNumber := fn
          frequencyMultiple := mult
          keyCode := kc
          freqLastTime := t })

/-- R159, R89: OP.SETDT stores the signed detune, minus zero as zero, and writes nothing else. -/
def Obligations.SetDtStoresDetune : Prop :=
  ∀ (s : State) (c : Fin 16) (o : Fin 4) (sign : Bool) (mag : BitVec 2), Config.cfg.hasChannel c = true →
    (s.chan c).stopped = false →
    ∃ s' d, exec (.opSetdt c o sign mag) s = .next s' ∧ Performed s s' [] ∧ OnlyOperator s s' c o ∧
      s'.opr c o = { s.opr c o with detune := d } ∧
      d.value = (if sign then -1 else 1) * (mag.toNat : Int) ∧ (mag = 0 → d = ⟨false, 0⟩)

/-- R160, R161: OP.KEYON and OP.KEYOFF are exactly EG.KEYON and EG.KEYOFF with the operator's stored key code; so
they are performed whenever those are. -/
def Obligations.OperatorKeysUseStoredKeyCode : Prop :=
  ∀ (s : State) (c : Fin 16) (o : Fin 4) (tv : Bool) (tag : BitVec 8),
    exec (.opKeyon c o tv tag) s = exec (.egKeyon c o tv tag (s.opr c o).keyCode) s ∧
    exec (.opKeyoff c o tv tag) s = exec (.egKeyoff c o tv tag (s.opr c o).keyCode) s ∧
    ∀ t b : ExReal, Ready s c tv t → (s.env c o).lastTime.val ≤ t.val → s.level c o t = some b →
      (∃ s' evs, exec (.opKeyon c o tv tag) s = .next s' ∧ Answered s s' .ok (.rat 0) evs ∧
        OnlyEnvelope s s' c o ∧ (s'.env c o).egKey = .on ∧ (s'.env c o).beginLevel = b ∧
        (s'.env c o).beginAttack = t ∧ (s'.env c o).srcTag = tag) ∧
      (∃ s' evs, exec (.opKeyoff c o tv tag) s = .next s' ∧ Answered s s' .ok (.rat 0) evs ∧
        OnlyEnvelope s s' c o ∧ (s'.env c o).egKey = .off ∧ (s'.env c o).releaseLevel = b ∧
        (s'.env c o).beginRelease = t ∧ (s'.env c o).srcTag = tag)

/-! ### Routing -/

/-- R170: the slot function on operator numbers 1 to 4; it is not defined for backward connections nor for
feedback on operator numbers 2 and 4. -/
def Obligations.SlotFunction : Prop :=
  slot 1 1 = some 0 ∧ slot 3 3 = some 1 ∧ slot 1 2 = some 2 ∧ slot 1 3 = some 3 ∧ slot 1 4 = some 4 ∧
  slot 2 3 = some 5 ∧ slot 2 4 = some 6 ∧ slot 3 4 = some 7 ∧
  (∀ m k, k < m → slot m k = none) ∧ slot 2 2 = none ∧ slot 4 4 = none ∧
  (∀ m k, 1 ≤ m → m < k → k ≤ 4 → ∀ i, slot m k = some i → i.val = 2 + (m - 1) * (8 - m) / 2 + (k - m - 1))

/-- R174, R73, R175: a four-operator CH.USEALG writes slots 2 to 7, the output levels and `algorithm` in one
batch, and touches neither the feedback slots nor any envelope or operator. -/
def Obligations.UseAlgWritesFourOperatorTable : Prop :=
  ∀ (s : State) (c : Fin 16) (tv : Bool) (n : BitVec 4) (t : ExReal) (h : n.toNat < 8),
    Ready s c tv t → (s.chan c).routeLastTime.val ≤ t.val →
    let a := Config.cfg.data.alg4 ⟨n.toNat, h⟩
    let ch := s.chan c
    ∃ s', exec (.chUsealg c tv .four n) s = .next s' ∧
      Performed s s'
        ((List.finRange 6).map (fun i => Event.set (.mod c ⟨i.val + 2, by omega⟩) (.rat a.d[i.val]) t) ++
          (List.finRange 4).map (fun o => Event.set (.out c o) (.rat a.out[o.val]) t)) ∧
      OnlyControl s s' c ∧
      (∀ i : Fin 6, (s'.chan c).g[i.val + 2] = a.d[i.val]) ∧
      (s'.chan c).g[0] = ch.g[0] ∧ (s'.chan c).g[1] = ch.g[1] ∧ (s'.chan c).outLevel = a.out ∧
      (s'.chan c).algorithm = n ∧ (s'.chan c).routeLastTime = t ∧ (s'.chan c).alg2 = ch.alg2 ∧
      (s'.chan c).fbCode = ch.fbCode ∧ (s'.chan c).pan = ch.pan ∧ (s'.chan c).stopped = ch.stopped

/-- R174, R171: a two-operator CH.USEALG writes only the view's own slot (2 or 7), its two output levels and its
`alg2`. -/
def Obligations.UseAlgWritesTwoOperatorTable : Prop :=
  ∀ (s : State) (c : Fin 16) (tv : Bool) (v : Fin 2) (n : BitVec 4) (t : ExReal) (h : n.toNat < 2),
    Ready s c tv t → (s.chan c).routeLastTime.val ≤ t.val →
    let a := Config.cfg.data.alg2 ⟨n.toNat, h⟩
    let ch := s.chan c
    let view : View := if v = 0 then .two0 else .two1
    let own : Fin 8 := if v = 0 then 2 else 7
    ∃ s', exec (.chUsealg c tv view n) s = .next s' ∧
      Performed s s'
        [.set (.mod c own) (.rat a.d) t, .set (.out c ⟨2 * v.val, by omega⟩) (.rat a.out[0]) t,
         .set (.out c ⟨2 * v.val + 1, by omega⟩) (.rat a.out[1]) t] ∧
      OnlyControl s s' c ∧
      (∀ i : Fin 8, (s'.chan c).g[i.val] = if i = own then a.d else ch.g[i.val]) ∧
      (∀ o : Fin 4, (s'.chan c).outLevel[o.val] =
        if o.val = 2 * v.val then a.out[0] else if o.val = 2 * v.val + 1 then a.out[1] else ch.outLevel[o.val]) ∧
      (∀ w : Fin 2, ((s'.chan c).alg2[w.val]).toNat = if w = v then n.toNat else (ch.alg2[w.val]).toNat) ∧
      (s'.chan c).algorithm = ch.algorithm ∧ (s'.chan c).routeLastTime = t ∧ (s'.chan c).fbCode = ch.fbCode ∧
      (s'.chan c).pan = ch.pan ∧ (s'.chan c).stopped = ch.stopped

/-- R178, R232: CH.SETFB on operator number 1 or 3 (index `2k`) writes feedback slot `k` and its code and emits one
event of the method; on operator number 2 or 4, or at a time before the routing group's last, it is UNDEFINED. -/
def Obligations.SetFbWritesFeedbackSlot : Prop :=
  ∀ (s : State) (c : Fin 16) (tv : Bool) (m : Method) (amount : BitVec 3) (t : ExReal), Ready s c tv t →
    (∀ o : Fin 4, o = 1 ∨ o = 3 → exec (.chSetfb c o tv m amount) s = .refused .undefinedOperatorNumber) ∧
    (∀ k : Fin 2, t.val < (s.chan c).routeLastTime.val →
      exec (.chSetfb c ⟨2 * k.val, by omega⟩ tv m amount) s = .refused .undefinedTimeOrder) ∧
    ∀ k : Fin 2, (s.chan c).routeLastTime.val ≤ t.val →
      let depth := Config.cfg.data.feedbackDepth amount
      let ch := s.chan c
      let p := Param.mod c ⟨k.val, by omega⟩
      let ev : Event :=
        match m with
        | .set => .set p (.rat depth) t
        | .lin => .linRamp p (.rat depth) t
        | .exp => .expRamp p (.rat depth) t
      ∃ s', exec (.chSetfb c ⟨2 * k.val, by omega⟩ tv m amount) s = .next s' ∧ Performed s s' [ev] ∧
        OnlyControl s s' c ∧
        (∀ i : Fin 8, (s'.chan c).g[i.val] = if i.val = k.val then depth else ch.g[i.val]) ∧
        (∀ w : Fin 2, (s'.chan c).fbCode[w.val] = if w = k then amount else ch.fbCode[w.val]) ∧
        (s'.chan c).routeLastTime = t ∧ (s'.chan c).outLevel = ch.outLevel ∧ (s'.chan c).algorithm = ch.algorithm ∧
        (s'.chan c).alg2 = ch.alg2 ∧ (s'.chan c).pan = ch.pan ∧ (s'.chan c).stopped = ch.stopped ∧
        (amount = 0 → depth = 0)

/-- R180, R89: CH.SETPAN stores the pan operand and emits one event of the method with value `p / 127`, where `p`
is the operand read as two's complement. -/
def Obligations.SetPanWritesPan : Prop :=
  ∀ (s : State) (c : Fin 16) (tv : Bool) (m : Method) (p : BitVec 8) (t : ExReal),
    Ready s c tv t → p ≠ 0x80#8 →
    (t.val < (s.chan c).routeLastTime.val → exec (.chSetpan c tv m p) s = .refused .undefinedTimeOrder) ∧
    ((s.chan c).routeLastTime.val ≤ t.val →
    let signed : Int := if p.toNat < 128 then p.toNat else (p.toNat : Int) - 256
    let v : Rat := signed / 127
    let ch := s.chan c
    let ev : Event :=
      match m with
      | .set => .set (.pan c) (.rat v) t
      | .lin => .linRamp (.pan c) (.rat v) t
      | .exp => .expRamp (.pan c) (.rat v) t
    ∃ s', exec (.chSetpan c tv m p) s = .next s' ∧ Performed s s' [ev] ∧
      s'.chan c = { ch with pan := p, routeLastTime := t } ∧ OnlyChannel s s' c ∧ -1 ≤ v ∧ v ≤ 1)

/-! ### Lifecycle and keying of the channel -/

/-- R182, R183: CH.ENOP sets `enabled` and does nothing else; CH.DISOP performs EG.SOUNDOFF, with its events, and
clears `enabled`. -/
def Obligations.LifecycleBitIsSetAndCleared : Prop :=
  ∀ (s : State) (c : Fin 16) (o : Fin 4),
    (Config.cfg.hasChannel c = true → (s.chan c).stopped = false →
      ∃ s', exec (.chEnop c o) s = .next s' ∧ Performed s s' [] ∧
        s'.opr c o = { s.opr c o with enabled := true } ∧ OnlyOperator s s' c o) ∧
    (∀ (tv : Bool) (t : ExReal), Ready s c tv t → t.val < (s.env c o).lastTime.val →
      exec (.chDisop c o tv) s = .refused .undefinedTimeOrder) ∧
    ∀ (tv : Bool) (t : ExReal), Ready s c tv t → (s.env c o).lastTime.val ≤ t.val →
      ∃ s' u, exec (.chDisop c o tv) s = .next s' ∧ Performs (.egSoundoff c o tv) s u ∧
        Performed s s' [.cancelHold (.gain c o) t, .set (.gain c o) (.rat 0) t] ∧
        (∀ c' o', s'.env c' o' = u.env c' o') ∧
        (∀ c' o', ¬(c' = c ∧ o' = o) → s'.env c' o' = s.env c' o') ∧
        s'.opr c o = { s.opr c o with enabled := false } ∧
        (∀ c' o', ¬(c' = c ∧ o' = o) → s'.opr c' o' = s.opr c' o') ∧
        (∀ c', Channel.sameControl (s.chan c') (s'.chan c'))

/-- R184: CH.KEYON performs EG.KEYON with the stored key code on every enabled operator, in order; disabled
operators, and everything else, are untouched. Where one of the key-ons would be UNDEFINED the command is. -/
def Obligations.ChannelKeyOnKeysEnabledOperators : Prop :=
  ∀ (s : State) (c : Fin 16) (tv : Bool) (tag : BitVec 8) (t : ExReal), Ready s c tv t →
    ((∃ o, (s.opr c o).enabled = true ∧ (t.val < (s.env c o).lastTime.val ∨ s.level c o t = none)) →
      ∃ r, exec (.chKeyon c tv tag) s = .refused r) ∧
    ((∀ o, (s.opr c o).enabled = true →
      (s.env c o).lastTime.val ≤ t.val ∧ (s.level c o t).isSome = true) →
    ∃ s' u, exec (.chKeyon c tv tag) s = .next s' ∧
      PerformsEach (fun o => (s.opr c o).enabled) (fun o => .egKeyon c o tv tag (s.opr c o).keyCode) s u ∧
      s' = u.respond .ok (.rat 0) ∧
      (∀ o, (s.opr c o).enabled = false → s'.env c o = s.env c o) ∧
      (∀ o, (s.opr c o).enabled = true → (s'.env c o).egKey = .on ∧ (s'.env c o).srcTag = tag ∧
        (s'.env c o).beginAttack = t ∧ some (s'.env c o).beginLevel = s.level c o t) ∧
      (∀ c' o', s'.opr c' o' = s.opr c' o') ∧ OnlyChannel s s' c ∧
      Channel.sameControl (s.chan c) (s'.chan c))

/-- R185: CH.KEYOFF performs EG.KEYOFF likewise. -/
def Obligations.ChannelKeyOffReleasesEnabledOperators : Prop :=
  ∀ (s : State) (c : Fin 16) (tv : Bool) (tag : BitVec 8) (t : ExReal), Ready s c tv t →
    ((∃ o, (s.opr c o).enabled = true ∧ (t.val < (s.env c o).lastTime.val ∨ s.level c o t = none)) →
      ∃ r, exec (.chKeyoff c tv tag) s = .refused r) ∧
    ((∀ o, (s.opr c o).enabled = true →
      (s.env c o).lastTime.val ≤ t.val ∧ (s.level c o t).isSome = true) →
    ∃ s' u, exec (.chKeyoff c tv tag) s = .next s' ∧
      PerformsEach (fun o => (s.opr c o).enabled) (fun o => .egKeyoff c o tv tag (s.opr c o).keyCode) s u ∧
      s' = u.respond .ok (.rat 0) ∧
      (∀ o, (s.opr c o).enabled = false → s'.env c o = s.env c o) ∧
      (∀ o, (s.opr c o).enabled = true → (s'.env c o).egKey = .off ∧ (s'.env c o).srcTag = tag ∧
        (s'.env c o).beginRelease = t ∧ some (s'.env c o).releaseLevel = s.level c o t) ∧
      (∀ c' o', s'.opr c' o' = s.opr c' o') ∧ OnlyChannel s s' c ∧
      Channel.sameControl (s.chan c) (s'.chan c))

/-- R187: CH.SOUNDOFF performs EG.SOUNDOFF on all four operators, enabled or not, in order; it stops nothing,
changes no `enabled` bit and emits no STOP. -/
def Obligations.ChannelSoundOffSilencesAllOperators : Prop :=
  ∀ (s : State) (c : Fin 16) (tv : Bool) (t : ExReal), Ready s c tv t →
    ((∃ o, t.val < (s.env c o).lastTime.val) → exec (.chSoundoff c tv) s = .refused .undefinedTimeOrder) ∧
    ((∀ o, (s.env c o).lastTime.val ≤ t.val) →
    ∃ s' u, exec (.chSoundoff c tv) s = .next s' ∧
      PerformsEach (fun _ => true) (fun o => .egSoundoff c o tv) s u ∧ s' = u.respond .ok (.rat 0) ∧
      Performed s s' ((List.finRange 4).flatMap fun o =>
        [Event.cancelHold (.gain c o) t, Event.set (.gain c o) (.rat 0) t]) ∧
      (∀ o, (s'.env c o).egKey = .off ∧ (s'.env c o).silentAt = .fin t) ∧
      (∀ c' o', s'.opr c' o' = s.opr c' o') ∧ OnlyChannel s s' c ∧
      Channel.sameControl (s.chan c) (s'.chan c))

/-- R186: CH.STOP emits one STOP for each operator, enabled or not, moves `silentAt` back to `T` where it was
later, and sets `stopped`; there is no time order check, and nothing else changes; a second one is UNDEFINED. -/
def Obligations.ChannelStopTearsDown : Prop :=
  ∀ (s : State) (c : Fin 16) (tv : Bool) (t : ExReal), Ready s c tv t →
    ∃ s', exec (.chStop c tv) s = .next s' ∧
      Performed s s' ((List.finRange 4).map fun o => Event.stop c o (s.env c o).srcTag t) ∧
      (∀ o, ∃ x : ETime, s'.env c o = { s.env c o with silentAt := x } ∧
        x.val = min (s.env c o).silentAt.val (t.val : EReal)) ∧
      (s'.chan c).stopped = true ∧ (s'.chan c).oprs = (s.chan c).oprs ∧ (s'.chan c).g = (s.chan c).g ∧
      (s'.chan c).outLevel = (s.chan c).outLevel ∧ (s'.chan c).algorithm = (s.chan c).algorithm ∧
      (s'.chan c).alg2 = (s.chan c).alg2 ∧ (s'.chan c).fbCode = (s.chan c).fbCode ∧
      (s'.chan c).pan = (s.chan c).pan ∧ (s'.chan c).routeLastTime = (s.chan c).routeLastTime ∧
      OnlyChannel s s' c ∧
      ∀ tv', (commandTime s'.ports tv').isSome = true → exec (.chStop c tv') s' = .refused .undefinedStopped

/-! ### The whole machine -/

/-- R189: a command writes only its own channel, and emits events only on its channel's parameters and sources. -/
def Obligations.CommandWritesOnlyItsChannel : Prop :=
  ∀ (i : Instr) (s s' : State), exec i s = .next s' →
    OnlyChannel s s' i.chan ∧ (∀ c, c ≠ i.chan → s'.freeCount c = s.freeCount c) ∧
    ∃ evs, s'.events = s.events ++ evs ∧ ∀ ev ∈ evs, ev.chan = i.chan

/-- R189: a command reads only its own channel: what it does to it, emits and answers is the same in two states
that agree on it (and on the ports it samples). -/
def Obligations.CommandReadsOnlyItsChannel : Prop :=
  ∀ (i : Instr) (s u s' : State), s.chan i.chan = u.chan i.chan → s.freeCount i.chan = u.freeCount i.chan →
    s.ports = u.ports → exec i s = .next s' →
    ∃ u', exec i u = .next u' ∧ u'.chan i.chan = s'.chan i.chan ∧
      u'.freeCount i.chan = s'.freeCount i.chan ∧ newEvents u u' = newEvents s s' ∧
      u'.responses.drop u.responses.length = s'.responses.drop s.responses.length

/-- R189: commands on different channels commute, as far as the state and each channel's own events go. -/
def Obligations.DifferentChannelsCommute : Prop :=
  ∀ (i j : Instr) (p q : Ports) (s s1 s2 u1 u2 : State), i.chan ≠ j.chan →
    exec i { s with ports := p } = .next s1 → exec j { s1 with ports := q } = .next s2 →
    exec j { s with ports := q } = .next u1 → exec i { u1 with ports := p } = .next u2 →
    s2.chans = u2.chans ∧ s2.freeCounts = u2.freeCounts ∧
    ∀ c, (newEvents s s2).filter (fun ev => ev.chan = c) = (newEvents s u2).filter (fun ev => ev.chan = c)

/-- R34, "written by": a register of an envelope, an operator or a channel changes only by a command on that
envelope, operator or channel that the table names as its writer (with the composites that perform it, a
channel-wide one on any of its operators; CH.STOP writes `silentAt` by R186). -/
def Obligations.RegistersHaveTheirWriters : Prop :=
  ∀ (i : Instr) (s s' : State) (c : Fin 16) (o : Fin 4), exec i s = .next s' →
    let e := s.env c o
    let e' := s'.env c o
    let q := s.opr c o
    let q' := s'.opr c o
    let ch := s.chan c
    let ch' := s'.chan c
    (e'.attackRate ≠ e.attackRate → ∃ r, i = .egSetar c o r) ∧
    (e'.decayRate ≠ e.decayRate → ∃ r, i = .egSetdr c o r) ∧
    (e'.sustainLevel ≠ e.sustainLevel → ∃ l, i = .egSetsl c o l) ∧
    (e'.sustainRate ≠ e.sustainRate → ∃ r, i = .egSetsr c o r) ∧
    (e'.releaseRate ≠ e.releaseRate → ∃ r, i = .egSetrr c o r) ∧
    (e'.rateScaling ≠ e.rateScaling → ∃ r, i = .egSetrs c o r) ∧
    (¬(e'.ssgEnabled = e.ssgEnabled ∧ e'.inverted = e.inverted ∧ e'.jump = e.jump ∧ e'.looping = e.looping) →
      ∃ m, i = .egSetssg c o m) ∧
    (¬Envelope.sameNote e e' → i.KeysOn c o) ∧
    (¬Envelope.sameRelease e e' → i.KeysOff c o ∨ i.SoundsOff c o) ∧
    (e'.egKey ≠ e.egKey ∨ e'.lastTime ≠ e.lastTime → i.KeysOn c o ∨ i.KeysOff c o ∨ i.SoundsOff c o) ∧
    (e'.srcTag ≠ e.srcTag → i.KeysOn c o ∨ i.KeysOff c o) ∧
    (e'.silentAt ≠ e.silentAt →
      i.KeysOn c o ∨ i.KeysOff c o ∨ i.SoundsOff c o ∨ ∃ tv, i = .chStop c tv) ∧
    (e'.ssgCacheValid ≠ e.ssgCacheValid → i.KeysOn c o ∨ ∃ m, i = .egSetssg c o m) ∧
    (q'.detune ≠ q.detune → ∃ sign mag, i = .opSetdt c o sign mag) ∧
    (q'.enabled ≠ q.enabled → i = .chEnop c o ∨ ∃ tv, i = .chDisop c o tv) ∧
    (q' ≠ { q with detune := q'.detune, enabled := q'.enabled } → ∃ tv m b fn, i = .opSetfreq c o tv m b fn) ∧
    (ch'.g[0] ≠ ch.g[0] ∨ ch'.g[1] ≠ ch.g[1] ∨ ch'.fbCode ≠ ch.fbCode → ∃ k tv m a, i = .chSetfb c k tv m a) ∧
    ((∃ k : Fin 6, ch'.g[k.val + 2] ≠ ch.g[k.val + 2]) ∨ ch'.outLevel ≠ ch.outLevel ∨
      ch'.algorithm ≠ ch.algorithm ∨ ch'.alg2 ≠ ch.alg2 → ∃ tv v n, i = .chUsealg c tv v n) ∧
    (ch'.pan ≠ ch.pan → ∃ tv m p, i = .chSetpan c tv m p) ∧
    (ch'.stopped ≠ ch.stopped → ∃ tv, i = .chStop c tv) ∧
    (ch'.routeLastTime ≠ ch.routeLastTime → (∃ tv v n, i = .chUsealg c tv v n) ∨
      (∃ k tv m a, i = .chSetfb c k tv m a) ∨ ∃ tv m p, i = .chSetpan c tv m p)

/-- The invariant of R22, R26, R30, R33, R164 and R203 (7) holds after reset. -/
def Obligations.InvariantAtReset : Prop := State.reset.Inv

/-- R26: the invariant holds after every step from every state that has it, a command or a reset. -/
def Obligations.InvariantKeptByStep : Prop :=
  ∀ s s' : State, s.Inv → step s = .next s' → s'.Inv

/-- R71, R72: within one command the events on one parameter come in non-decreasing times, and the first of
them on a gain is a CANCEL_HOLD at the command's time. -/
def Obligations.EventsComeInTimeOrder : Prop :=
  ∀ (i : Instr) (s s' : State), s.Inv → exec i s = .next s' →
    InTimeOrder (newEvents s s') ∧
    ∀ (c : Fin 16) (o : Fin 4), eventsOn (.gain c o) (newEvents s s') = [] ∨
      ∃ t, commandTime s.ports i.timeValid = some t ∧
        (eventsOn (.gain c o) (newEvents s s')).head? = some (.cancelHold (.gain c o) t)

/-- R67: a sink that reads the gain's event stream by R66 sees `Level / 1023`, from the time of a key-on, key-off
or sound-off on, whatever was in the stream before; for a note keyed with SSG, up to and at the end of its attack
(at the key-on itself where the attack is skipped). -/
def Obligations.SinkReadsTheLevel : Prop :=
  ∀ (s s' : State) (c : Fin 16) (o : Fin 4) (tv : Bool) (tag : BitVec 8) (kc : BitVec 5) (t u : ExReal),
    s.Inv → Ready s c tv t → t.val ≤ u.val →
    (exec (.egKeyon c o tv tag kc) s = .next s' ∧
        ((s.env c o).ssgEnabled = true → (u.val : EReal) ≤ (s'.env c o).endAttack.val)) ∨
      exec (.egKeyoff c o tv tag kc) s = .next s' ∨ exec (.egSoundoff c o tv) s = .next s' →
    ∃ x, s'.level c o u = some x ∧ sinkValue (.gain c o) s'.events u.val = some (x.val / 1023)
end

