-- ==== Sys2Proof/Laws/Exact.lean ====
section
/-!
SUPPORT. What the operations of Machine/Exact.lean denote: arithmetic on terms is arithmetic on the real
numbers, the enclosures hold the value, and the comparisons are the order of the real numbers.
-/

namespace Sys2Proof

namespace ExReal

@[simp] theorem val_rat (q : Rat) : (rat q).val = (q : ℝ) := rfl
@[simp] theorem val_atom (n : Nat) : (atom n).val = Config.atomValue n := rfl
@[simp] theorem val_add (a b : ExReal) : (add a b).val = a.val + b.val := rfl
@[simp] theorem val_mul (a b : ExReal) : (mul a b).val = a.val * b.val := rfl
@[simp] theorem val_div (a b : ExReal) : (div a b).val = a.val / b.val := rfl
@[simp] theorem val_exp (a : ExReal) : (exp a).val = Real.exp a.val := rfl
@[simp] theorem val_ln (a : ExReal) : (ln a).val = Real.log a.val := rfl

/-- The `k * x + p` reading denotes the same number. -/
theorem val_parts (a : ExReal) : (a.parts.k : ℝ) * a.parts.x.val + (a.parts.p : ℝ) = a.val := by
  unfold parts
  split <;> simp

@[simp] theorem val_ofParts (k : Rat) (x : ExReal) (p : Rat) :
    (ofParts k x p).val = (k : ℝ) * x.val + (p : ℝ) := by
  unfold ofParts
  split
  · next h => simp [h]
  · split
    · next h => simp [h.1, h.2]
    · simp

@[simp] theorem val_plus (a b : ExReal) : (plus a b).val = a.val + b.val := by
  rw [← val_parts a, ← val_parts b]
  unfold plus
  simp only
  split
  · next h => simp [h]; ring
  · split
    · next h => simp [h]; ring
    · split
      · next h => simp [h]; ring
      · simp; ring

@[simp] theorem val_scale (r : Rat) (a : ExReal) : (scale r a).val = (r : ℝ) * a.val := by
  rw [← val_parts a]
  simp [scale]
  ring

@[simp] theorem val_minus (a b : ExReal) : (minus a b).val = a.val - b.val := by
  simp [minus]
  ring

@[simp] theorem val_times (a b : ExReal) : (times a b).val = a.val * b.val := by
  unfold times
  split
  · simp
  · simp; ring
  · simp

@[simp] theorem val_divBy (a b : ExReal) : (divBy a b).val = a.val / b.val := by
  unfold divBy
  split
  · simp; ring
  · split
    · next h => simp [h]
    · simp

@[simp] theorem val_expOf (a : ExReal) : (expOf a).val = Real.exp a.val := by
  unfold expOf
  split
  · next h => simp [h]
  · simp

@[simp] theorem val_lnOf (a : ExReal) : (lnOf a).val = Real.log a.val := by
  unfold lnOf
  split
  · next h => simp [h]
  · simp

/-! ### Enclosures -/

theorem roundDown_le (r : Rat) : roundDown r ≤ r := by
  unfold roundDown
  rw [div_le_iff₀ (by positivity)]
  exact Int.floor_le (r * 2 ^ 160)

theorem roundDown_nonneg {r : Rat} (h : 0 ≤ r) : 0 ≤ roundDown r := by
  unfold roundDown
  apply div_nonneg _ (by positivity)
  exact_mod_cast Int.floor_nonneg.mpr (by positivity : (0 : ℚ) ≤ r * 2 ^ 160)

theorem le_roundUp (r : Rat) : r ≤ roundUp r := by
  have := roundDown_le (-r)
  unfold roundUp
  linarith

theorem squareDown_bound (n : Nat) : ∀ (r : Rat) (y : ℝ), 0 ≤ r → (r : ℝ) ≤ y →
    ((squareDown n r : Rat) : ℝ) ≤ y ^ 2 ^ n := by
  induction n with
  | zero => intro r y _ h; simpa [squareDown] using h
  | succ n ih =>
    intro r y h0 h
    have hr : (0 : ℝ) ≤ (r : ℝ) := by exact_mod_cast h0
    have h1 : ((roundDown (r * r) : Rat) : ℝ) ≤ y * y := by
      have : ((roundDown (r * r) : Rat) : ℝ) ≤ ((r * r : Rat) : ℝ) := by exact_mod_cast roundDown_le _
      push_cast at this
      nlinarith
    have h2 := ih _ (y * y) (roundDown_nonneg (mul_self_nonneg r)) h1
    rw [pow_succ, mul_comm (2 ^ n) 2, pow_mul, pow_two]
    exact h2

theorem squareUp_bound (n : Nat) : ∀ (r : Rat) (y : ℝ), 0 ≤ y → y ≤ (r : ℝ) →
    y ^ 2 ^ n ≤ ((squareUp n r : Rat) : ℝ) := by
  induction n with
  | zero => intro r y _ h; simpa [squareUp] using h
  | succ n ih =>
    intro r y h0 h
    have h1 : y * y ≤ ((roundUp (r * r) : Rat) : ℝ) := by
      have : ((r * r : Rat) : ℝ) ≤ ((roundUp (r * r) : Rat) : ℝ) := by exact_mod_cast le_roundUp _
      push_cast at this
      nlinarith
    have h2 := ih _ (y * y) (mul_self_nonneg y) h1
    rw [pow_succ, mul_comm (2 ^ n) 2, pow_mul, pow_two]
    exact h2

theorem exp_split (x : ℝ) : Real.exp x = Real.exp (x / 2 ^ 48) ^ (2 ^ 48) := by
  rw [← Real.exp_nat_mul]
  congr 1
  push_cast
  ring

theorem expLower_le (x : Rat) : ((expLower x : Rat) : ℝ) ≤ Real.exp x := by
  unfold expLower
  split
  · next h =>
    rw [exp_split]
    apply squareDown_bound _ _ _ h
    push_cast
    have := Real.add_one_le_exp ((x : ℝ) / 2 ^ 48)
    linarith
  · simpa using (Real.exp_pos _).le

theorem le_expUpper {x u : Rat} (h : expUpper x = some u) : Real.exp x ≤ (u : ℝ) := by
  unfold expUpper at h
  split at h
  · next hx =>
    cases h
    rw [exp_split]
    refine squareUp_bound _ _ _ (Real.exp_pos _).le (le_trans ?_ (Rat.cast_le.mpr (le_roundUp _)))
    push_cast
    have hx' : (x : ℝ) / 2 ^ 48 < 1 := by exact_mod_cast hx
    rw [le_div_iff₀ (by linarith)]
    have h1 := Real.add_one_le_exp (-((x : ℝ) / 2 ^ 48))
    have h2 : Real.exp ((x : ℝ) / 2 ^ 48) * Real.exp (-((x : ℝ) / 2 ^ 48)) = 1 := by
      rw [← Real.exp_add]; simp
    nlinarith [Real.exp_pos ((x : ℝ) / 2 ^ 48)]
  · cases h

theorem lnLower_le {r : Rat} (h : 0 < r) : ((lnLower r : Rat) : ℝ) ≤ Real.log r := by
  have hr : (0 : ℝ) < (r : ℝ) := by exact_mod_cast h
  have coarse : (((1 - r⁻¹ : Rat)) : ℝ) ≤ Real.log r := by
    push_cast
    exact Real.one_sub_inv_le_log_of_pos hr
  unfold lnLower
  simp only
  split
  · next u hu =>
    split
    · next hle =>
      rw [Real.le_log_iff_exp_le hr]
      exact le_trans (le_expUpper hu) (by exact_mod_cast hle)
    · exact coarse
  · exact coarse

theorem le_lnUpper {r : Rat} (h : 0 < r) : Real.log r ≤ ((lnUpper r : Rat) : ℝ) := by
  have hr : (0 : ℝ) < (r : ℝ) := by exact_mod_cast h
  unfold lnUpper
  simp only
  split
  · next hle =>
    rw [Real.log_le_iff_le_exp hr]
    exact le_trans (by exact_mod_cast hle) (expLower_le _)
  · push_cast
    exact Real.log_le_sub_one_of_pos hr

theorem mul_between {l h m k x y : ℝ} (hl : l ≤ x) (hh : x ≤ h) (hm : m ≤ y) (hk : y ≤ k) :
    min (min (l * m) (l * k)) (min (h * m) (h * k)) ≤ x * y ∧
      x * y ≤ max (max (l * m) (l * k)) (max (h * m) (h * k)) := by
  rcases le_total 0 y with hy | hy
  · have lo : l * y ≤ x * y := mul_le_mul_of_nonneg_right hl hy
    have hi : x * y ≤ h * y := mul_le_mul_of_nonneg_right hh hy
    constructor
    · rcases le_total 0 l with h0 | h0
      · exact le_trans (le_trans (min_le_left _ _) (min_le_left _ _)) (le_trans (mul_le_mul_of_nonneg_left hm h0) lo)
      · exact le_trans (le_trans (min_le_left _ _) (min_le_right _ _)) (le_trans (mul_le_mul_of_nonpos_left hk h0) lo)
    · rcases le_total 0 h with h0 | h0
      · exact le_trans hi (le_trans (mul_le_mul_of_nonneg_left hk h0) (le_trans (le_max_right _ _) (le_max_right _ _)))
      · exact le_trans hi (le_trans (mul_le_mul_of_nonpos_left hm h0) (le_trans (le_max_left _ _) (le_max_right _ _)))
  · have lo : h * y ≤ x * y := mul_le_mul_of_nonpos_right hh hy
    have hi : x * y ≤ l * y := mul_le_mul_of_nonpos_right hl hy
    constructor
    · rcases le_total 0 h with h0 | h0
      · exact le_trans (le_trans (min_le_right _ _) (min_le_left _ _)) (le_trans (mul_le_mul_of_nonneg_left hm h0) lo)
      · exact le_trans (le_trans (min_le_right _ _) (min_le_right _ _)) (le_trans (mul_le_mul_of_nonpos_left hk h0) lo)
    · rcases le_total 0 l with h0 | h0
      · exact le_trans hi (le_trans (mul_le_mul_of_nonneg_left hk h0) (le_trans (le_max_right _ _) (le_max_left _ _)))
      · exact le_trans hi (le_trans (mul_le_mul_of_nonpos_left hm h0) (le_trans (le_max_left _ _) (le_max_left _ _)))

/-- The enclosure holds the value. -/
theorem encl_sound (a : ExReal) : ∀ l h, encl a = some (l, h) → (l : ℝ) ≤ a.val ∧ a.val ≤ (h : ℝ) := by
  induction a with
  | rat q => intro l h e; cases e; simp
  | atom n => intro l h e; cases e
  | add a b iha ihb =>
    intro l h e
    simp only [encl] at e
    split at e
    · next l1 h1 l2 h2 e1 e2 =>
      cases e
      have A := iha _ _ e1
      have B := ihb _ _ e2
      push_cast
      exact ⟨by simpa using add_le_add A.1 B.1, by simpa using add_le_add A.2 B.2⟩
    · cases e
  | mul a b iha ihb =>
    intro l h e
    simp only [encl] at e
    split at e
    · next l1 h1 l2 h2 e1 e2 =>
      cases e
      have A := iha _ _ e1
      have B := ihb _ _ e2
      push_cast
      exact mul_between A.1 A.2 B.1 B.2
    · cases e
  | div a b iha ihb =>
    intro l h e
    simp only [encl] at e
    split at e
    · next l1 h1 l2 h2 e1 e2 =>
      split at e
      · next hs =>
        cases e
        have A := iha _ _ e1
        have B := ihb _ _ e2
        have inv : ((h2 : ℝ))⁻¹ ≤ b.val⁻¹ ∧ b.val⁻¹ ≤ ((l2 : ℝ))⁻¹ := by
          rcases hs with hs | hs
          · have h0 : (0 : ℝ) < (l2 : ℝ) := by exact_mod_cast hs
            exact ⟨inv_anti₀ (lt_of_lt_of_le h0 B.1) B.2, inv_anti₀ h0 B.1⟩
          · have h0 : ((h2 : ℝ)) < 0 := by exact_mod_cast hs
            have hb := lt_of_le_of_lt B.2 h0
            exact ⟨(inv_le_inv_of_neg h0 hb).mpr B.2, (inv_le_inv_of_neg hb (lt_of_le_of_lt B.1 hb)).mpr B.1⟩
        have M := mul_between A.1 A.2 inv.1 inv.2
        push_cast
        simp only [div_eq_mul_inv, val_div]
        rw [min_comm (_ * _) (_ * ((h2 : ℝ))⁻¹), min_comm ((h1 : ℝ) * ((l2 : ℝ))⁻¹),
          max_comm ((l1 : ℝ) * ((l2 : ℝ))⁻¹), max_comm ((h1 : ℝ) * ((l2 : ℝ))⁻¹)]
        exact M
      · cases e
    · cases e
  | exp a iha =>
    intro l h e
    simp only [encl] at e
    split at e
    · next l1 h1 e1 =>
      split at e
      · next u eu =>
        cases e
        have A := iha _ _ e1
        exact ⟨le_trans (expLower_le _) (Real.exp_le_exp.mpr A.1), le_trans (Real.exp_le_exp.mpr A.2) (le_expUpper eu)⟩
      · cases e
    · cases e
  | ln a iha =>
    intro l h e
    simp only [encl] at e
    split at e
    · next l1 h1 e1 =>
      split at e
      · next h0 =>
        cases e
        have A := iha _ _ e1
        have hl : (0 : ℝ) < (l1 : ℝ) := by exact_mod_cast h0
        have hh : 0 < h1 := by exact_mod_cast lt_of_lt_of_le hl (le_trans A.1 A.2)
        exact ⟨le_trans (lnLower_le h0) (Real.log_le_log hl A.1),
          le_trans (Real.log_le_log (lt_of_lt_of_le hl A.1) A.2) (le_lnUpper hh)⟩
      · cases e
    · cases e

/-! ### Order -/

/-- The sign test is exact. -/
theorem isNeg_iff (d : ExReal) : isNeg d = true ↔ d.val < 0 := by
  unfold isNeg
  split
  · simp
  · split
    · next l h e =>
      have B := encl_sound _ _ _ e
      split
      · next hh =>
        have : ((h : Rat) : ℝ) < 0 := by exact_mod_cast hh
        simp [lt_of_le_of_lt B.2 this]
      · split
        · next hl =>
          have : (0 : ℝ) ≤ ((l : Rat) : ℝ) := by exact_mod_cast hl
          simp [le_trans this B.1]
        · simp
    · simp

/-- The comparison is the order of the real numbers. -/
@[simp] theorem lt_iff (a b : ExReal) : lt a b = true ↔ a.val < b.val := by
  unfold lt
  split
  · simp
  · simp [isNeg_iff]

@[simp] theorem le_iff (a b : ExReal) : le a b = true ↔ a.val ≤ b.val := by
  simp only [le, Bool.not_eq_true', ← Bool.not_eq_true, lt_iff, not_lt]

@[simp] theorem same_iff (a b : ExReal) : same a b = true ↔ a.val = b.val := by
  rw [same, Bool.and_eq_true, le_iff, le_iff, le_antisymm_iff]

theorem lt_eq_false_iff (a b : ExReal) : lt a b = false ↔ b.val ≤ a.val := by
  rw [← Bool.not_eq_true, lt_iff, not_lt]

theorem le_eq_false_iff (a b : ExReal) : le a b = false ↔ b.val < a.val := by
  rw [← Bool.not_eq_true, le_iff, not_le]

/-- `floor` is the greatest integer not above the value. -/
@[simp] theorem floor_eq (a : ExReal) : floor a = ⌊a.val⌋ := by
  unfold floor
  split
  · next q => exact (Rat.floor_cast q).symm
  · split
    · next l h e =>
      have B := encl_sound _ _ _ e
      split
      · next hf =>
        apply le_antisymm
        · rw [Int.le_floor]
          exact le_trans (by exact_mod_cast Int.floor_le l) B.1
        · rw [hf]
          have : ⌊((h : Rat) : ℝ)⌋ = h.floor := Rat.floor_cast h
          rw [← this]
          exact Int.floor_le_floor B.2
      · exact (floorFact _).property
    · exact (floorFact _).property

@[simp] theorem round_eq (a : ExReal) : round a = ⌊a.val + 1 / 2⌋ := by
  simp [round]

@[simp] theorem val_clamp (lo hi x : ExReal) (h : lo.val ≤ hi.val) :
    (clamp lo hi x).val = max lo.val (min hi.val x.val) := by
  unfold clamp
  split
  · next h1 =>
    rw [lt_iff] at h1
    rw [min_eq_right (le_trans h1.le h), max_eq_left h1.le]
  · next h1 =>
    rw [lt_iff, not_lt] at h1
    split
    · next h2 =>
      rw [lt_iff] at h2
      rw [min_eq_left h2.le, max_eq_right h]
    · next h2 =>
      rw [lt_iff, not_lt] at h2
      rw [min_eq_right h2, max_eq_right h1]

end ExReal

namespace ETime

@[simp] theorem val_fin (x : ExReal) : (fin x).val = (x.val : EReal) := rfl
@[simp] theorem val_inf : inf.val = (⊤ : EReal) := rfl

@[simp] theorem lt_iff (a b : ETime) : lt a b = true ↔ a.val < b.val := by
  cases a <;> cases b <;> simp [lt, EReal.coe_lt_top]

@[simp] theorem le_iff (a b : ETime) : le a b = true ↔ a.val ≤ b.val := by
  simp only [le, Bool.not_eq_true', ← Bool.not_eq_true, lt_iff, not_lt]

theorem lt_eq_false_iff (a b : ETime) : lt a b = false ↔ b.val ≤ a.val := by
  rw [← Bool.not_eq_true, lt_iff, not_lt]

@[simp] theorem val_min (a b : ETime) : (min a b).val = Min.min a.val b.val := by
  unfold ETime.min
  split
  · next h => rw [lt_iff] at h; rw [min_eq_right h.le]
  · next h => rw [lt_iff, not_lt] at h; rw [min_eq_left h]

@[simp] theorem isFin_fin (x : ExReal) : (fin x).isFin = true := rfl
@[simp] theorem isFin_inf : inf.isFin = false := rfl

end ETime

end Sys2Proof
end

