-- ==== Sys2Proof/Laws/State.lean ====
section
/-!
SUPPORT. One lemma per accessor and update of the state: what a read gives after a write, of the same place
and of another. Later proofs use these and unfold no record update.
-/

namespace Sys2Proof.Machine

open Sys2Proof

variable (s : State) (c c' : Fin 16) (o o' : Fin 4)

/-! ### Channels -/

@[simp] theorem chan_putChan_same (ch : Channel) : (s.putChan c ch).chan c = ch := by
  simp [State.chan, State.putChan]

@[simp] theorem chan_putChan_other (ch : Channel) (h : c' ≠ c) : (s.putChan c ch).chan c' = s.chan c' := by
  have : c.val ≠ c'.val := fun e => h (Fin.ext e.symm)
  simp [State.chan, State.putChan, Vector.getElem_set_ne _ _ this]

theorem chan_putChan (ch : Channel) : (s.putChan c ch).chan c' = if c' = c then ch else s.chan c' := by
  split
  · next h => subst h; simp
  · next h => simp [h]

@[simp] theorem putChan_inputs (ch : Channel) : (s.putChan c ch).inputs = s.inputs := rfl
@[simp] theorem putChan_ports (ch : Channel) : (s.putChan c ch).ports = s.ports := rfl
@[simp] theorem putChan_responses (ch : Channel) : (s.putChan c ch).responses = s.responses := rfl
@[simp] theorem putChan_events (ch : Channel) : (s.putChan c ch).events = s.events := rfl
@[simp] theorem putChan_freeCounts (ch : Channel) : (s.putChan c ch).freeCounts = s.freeCounts := rfl
@[simp] theorem putChan_freeCount (ch : Channel) : (s.putChan c ch).freeCount c' = s.freeCount c' := rfl

/-! ### Envelopes -/

@[simp] theorem env_putEnv_same (e : Envelope) : (s.putEnv c o e).env c o = e := by
  simp [State.env, State.putEnv]

theorem env_putEnv_other (e : Envelope) (h : ¬(c' = c ∧ o' = o)) : (s.putEnv c o e).env c' o' = s.env c' o' := by
  unfold State.env State.putEnv
  by_cases hc : c' = c
  · subst hc
    have : o.val ≠ o'.val := fun x => h ⟨rfl, Fin.ext x.symm⟩
    simp [Vector.getElem_set_ne _ _ this]
  · simp [hc]

theorem env_putEnv (e : Envelope) :
    (s.putEnv c o e).env c' o' = if c' = c ∧ o' = o then e else s.env c' o' := by
  split
  · next h => rw [h.1, h.2, env_putEnv_same]
  · next h => rw [env_putEnv_other _ _ _ _ _ _ h]

@[simp] theorem opr_putEnv (e : Envelope) : (s.putEnv c o e).opr c' o' = s.opr c' o' := by
  unfold State.opr State.putEnv
  by_cases hc : c' = c
  · subst hc; simp
  · simp [hc]

@[simp] theorem putEnv_inputs (e : Envelope) : (s.putEnv c o e).inputs = s.inputs := rfl
@[simp] theorem putEnv_ports (e : Envelope) : (s.putEnv c o e).ports = s.ports := rfl
@[simp] theorem putEnv_responses (e : Envelope) : (s.putEnv c o e).responses = s.responses := rfl
@[simp] theorem putEnv_events (e : Envelope) : (s.putEnv c o e).events = s.events := rfl
@[simp] theorem putEnv_freeCounts (e : Envelope) : (s.putEnv c o e).freeCounts = s.freeCounts := rfl
@[simp] theorem putEnv_freeCount (e : Envelope) : (s.putEnv c o e).freeCount c' = s.freeCount c' := rfl

/-- A write of an envelope changes no other part of its channel. -/
theorem chan_putEnv (e : Envelope) :
    (s.putEnv c o e).chan c' =
      if c' = c then { s.chan c with envs := (s.chan c).envs.set o.val e } else s.chan c' := by
  unfold State.putEnv
  rw [chan_putChan]

@[simp] theorem stopped_putEnv (e : Envelope) : ((s.putEnv c o e).chan c').stopped = (s.chan c').stopped := by
  rw [chan_putEnv]; split
  · next h => rw [h]
  · rfl

/-! ### Operators -/

@[simp] theorem opr_putOpr_same (r : Operator) : (s.putOpr c o r).opr c o = r := by
  simp [State.opr, State.putOpr]

theorem opr_putOpr_other (r : Operator) (h : ¬(c' = c ∧ o' = o)) : (s.putOpr c o r).opr c' o' = s.opr c' o' := by
  unfold State.opr State.putOpr
  by_cases hc : c' = c
  · subst hc
    have : o.val ≠ o'.val := fun x => h ⟨rfl, Fin.ext x.symm⟩
    simp [Vector.getElem_set_ne _ _ this]
  · simp [hc]

theorem opr_putOpr (r : Operator) :
    (s.putOpr c o r).opr c' o' = if c' = c ∧ o' = o then r else s.opr c' o' := by
  split
  · next h => rw [h.1, h.2, opr_putOpr_same]
  · next h => rw [opr_putOpr_other _ _ _ _ _ _ h]

@[simp] theorem env_putOpr (r : Operator) : (s.putOpr c o r).env c' o' = s.env c' o' := by
  unfold State.env State.putOpr
  by_cases hc : c' = c
  · subst hc; simp
  · simp [hc]

@[simp] theorem putOpr_inputs (r : Operator) : (s.putOpr c o r).inputs = s.inputs := rfl
@[simp] theorem putOpr_ports (r : Operator) : (s.putOpr c o r).ports = s.ports := rfl
@[simp] theorem putOpr_responses (r : Operator) : (s.putOpr c o r).responses = s.responses := rfl
@[simp] theorem putOpr_events (r : Operator) : (s.putOpr c o r).events = s.events := rfl
@[simp] theorem putOpr_freeCounts (r : Operator) : (s.putOpr c o r).freeCounts = s.freeCounts := rfl
@[simp] theorem putOpr_freeCount (r : Operator) : (s.putOpr c o r).freeCount c' = s.freeCount c' := rfl

/-- A write of an operator changes no other part of its channel. -/
theorem chan_putOpr (r : Operator) :
    (s.putOpr c o r).chan c' =
      if c' = c then { s.chan c with oprs := (s.chan c).oprs.set o.val r } else s.chan c' := by
  unfold State.putOpr
  rw [chan_putChan]

/-! ### Outputs -/

@[simp] theorem emit_chans (evs : List Event) : (s.emit evs).chans = s.chans := rfl
@[simp] theorem emit_chan (evs : List Event) : (s.emit evs).chan c = s.chan c := rfl
@[simp] theorem emit_env (evs : List Event) : (s.emit evs).env c o = s.env c o := rfl
@[simp] theorem emit_opr (evs : List Event) : (s.emit evs).opr c o = s.opr c o := rfl
@[simp] theorem emit_inputs (evs : List Event) : (s.emit evs).inputs = s.inputs := rfl
@[simp] theorem emit_ports (evs : List Event) : (s.emit evs).ports = s.ports := rfl
@[simp] theorem emit_responses (evs : List Event) : (s.emit evs).responses = s.responses := rfl
@[simp] theorem emit_events (evs : List Event) : (s.emit evs).events = s.events ++ evs := rfl
@[simp] theorem emit_freeCounts (evs : List Event) : (s.emit evs).freeCounts = s.freeCounts := rfl
@[simp] theorem emit_freeCount (evs : List Event) : (s.emit evs).freeCount c' = s.freeCount c' := rfl

@[simp] theorem respond_chans (st : Status) (v : ExReal) : (s.respond st v).chans = s.chans := rfl
@[simp] theorem respond_chan (st : Status) (v : ExReal) : (s.respond st v).chan c = s.chan c := rfl
@[simp] theorem respond_env (st : Status) (v : ExReal) : (s.respond st v).env c o = s.env c o := rfl
@[simp] theorem respond_opr (st : Status) (v : ExReal) : (s.respond st v).opr c o = s.opr c o := rfl
@[simp] theorem respond_inputs (st : Status) (v : ExReal) : (s.respond st v).inputs = s.inputs := rfl
@[simp] theorem respond_ports (st : Status) (v : ExReal) : (s.respond st v).ports = s.ports := rfl
@[simp] theorem respond_responses (st : Status) (v : ExReal) :
    (s.respond st v).responses = s.responses ++ [⟨st, v⟩] := rfl
@[simp] theorem respond_events (st : Status) (v : ExReal) : (s.respond st v).events = s.events := rfl
@[simp] theorem respond_freeCounts (st : Status) (v : ExReal) : (s.respond st v).freeCounts = s.freeCounts := rfl
@[simp] theorem respond_freeCount (st : Status) (v : ExReal) : (s.respond st v).freeCount c' = s.freeCount c' := rfl

/-! ### Counters of free values -/

@[simp] theorem useFree_chans : (s.useFree c).chans = s.chans := rfl
@[simp] theorem useFree_chan : (s.useFree c).chan c' = s.chan c' := rfl
@[simp] theorem useFree_env : (s.useFree c).env c' o = s.env c' o := rfl
@[simp] theorem useFree_opr : (s.useFree c).opr c' o = s.opr c' o := rfl
@[simp] theorem useFree_inputs : (s.useFree c).inputs = s.inputs := rfl
@[simp] theorem useFree_ports : (s.useFree c).ports = s.ports := rfl
@[simp] theorem useFree_responses : (s.useFree c).responses = s.responses := rfl
@[simp] theorem useFree_events : (s.useFree c).events = s.events := rfl

theorem useFree_freeCount :
    (s.useFree c).freeCount c' = if c' = c then s.freeCount c + 1 else s.freeCount c' := by
  unfold State.useFree State.freeCount
  by_cases h : c' = c
  · subst h; simp
  · have : c.val ≠ c'.val := fun e => h (Fin.ext e.symm)
    simp [h, Vector.getElem_set_ne _ _ this]

/-! ### Reset -/

@[simp] theorem chan_reset : State.reset.chan c = Channel.reset := by
  simp [State.chan, State.reset]

@[simp] theorem env_reset : State.reset.env c o = Envelope.reset := by
  simp [State.env, Channel.reset]

@[simp] theorem opr_reset : State.reset.opr c o = Operator.reset := by
  simp [State.opr, Channel.reset]

end Sys2Proof.Machine
end

