-- ==== Sys2Proof/Laws/Ops.lean ====
section
/-!
SUPPORT. What each shared operation of the machine can do, said once: the common checks, the answers, the
composite loop, and the three keying operations.
-/

namespace Sys2Proof.Machine

open Sys2Proof

/-! ### Times and configuration -/

@[simp] theorem timeOrdered_iff (t last : ExReal) : timeOrdered t last = true ↔ last.val ≤ t.val := by
  simp [timeOrdered]

@[simp] theorem hasChannel_zero (cfg : Cfg) : cfg.hasChannel 0 = true := rfl

theorem commandTime_now (p : Ports) : commandTime p false = some p.now := rfl

/-- The TIME port is taken exactly where it holds a non-negative real (rule R88 (5)). -/
theorem commandTime_true_iff (p : Ports) (t : ExReal) :
    commandTime p true = some t ↔ p.time = .real t ∧ 0 ≤ t.val := by
  unfold commandTime
  simp only
  split
  · next h => simp [h]
  · next x h =>
    rw [h]
    split
    · next hx =>
      rw [ExReal.lt_iff] at hx
      simp only [reduceCtorEq, TimePort.real.injEq, false_iff, not_and, not_le]
      rintro rfl
      simpa using hx
    · next hx =>
      rw [ExReal.lt_iff, not_lt] at hx
      simp only [Option.some.injEq, TimePort.real.injEq]
      constructor
      · rintro rfl; exact ⟨rfl, by simpa using hx⟩
      · rintro ⟨rfl, -⟩; rfl

namespace Laws

theorem nCh_range (cfg : Cfg) : 1 ≤ cfg.data.nCh ∧ cfg.data.nCh ≤ 16 := cfg.valid.1
theorem envTick_pos (cfg : Cfg) : 0 < cfg.data.envTick := cfg.valid.2.1
theorem envIncrement_nonneg (cfg : Cfg) (c : BitVec 6) : 0 ≤ cfg.data.envIncrement c := cfg.valid.2.2.1 c
theorem attackTarget_gt (cfg : Cfg) (c : BitVec 6) : 1023 < (cfg.data.attackTarget c).val := by
  simpa using cfg.valid.2.2.2.1 c
theorem attackConstant_pos (cfg : Cfg) (c : BitVec 6) : 0 < (cfg.data.attackConstant c).val := by
  simpa using cfg.valid.2.2.2.2.1 c
theorem ssgDecode_zero (cfg : Cfg) : cfg.data.ssgDecode 0 = ⟨false, false, true⟩ := cfg.valid.2.2.2.2.2.1
theorem frequencyStep_pos (cfg : Cfg) : 0 < cfg.data.frequencyStep := cfg.valid.2.2.2.2.2.2.1
theorem detuneTable_zero (cfg : Cfg) (kc : BitVec 5) : cfg.data.detuneTable 0 kc = 0 := cfg.valid.2.2.2.2.2.2.2.1 kc
theorem feedbackDepth_zero (cfg : Cfg) : cfg.data.feedbackDepth 0 = 0 := cfg.valid.2.2.2.2.2.2.2.2

theorem tau_pos (cfg : Cfg) (c : BitVec 6) : 0 < (tau cfg c).val := by
  have h : (0 : ℝ) < (cfg.data.envTick : ℝ) := by exact_mod_cast envTick_pos cfg
  simpa [tau] using mul_pos h (attackConstant_pos cfg c)

theorem incPerSec_nonneg (cfg : Cfg) (c : BitVec 6) : 0 ≤ incPerSec cfg c :=
  div_nonneg (envIncrement_nonneg cfg c) (envTick_pos cfg).le

end Laws

/-! ### The common checks -/

/-- The three outcomes of the checks and what each of them means. -/
theorem commonChecks_time (cfg : Cfg) (c : Fin 16) (tv form : Bool) (s : State) (t : ExReal) :
    commonChecks cfg c tv form s = .time t ↔
      cfg.hasChannel c = true ∧ form = true ∧ commandTime s.ports tv = some t ∧ (s.chan c).stopped = false := by
  unfold commonChecks
  rcases h1 : cfg.hasChannel c <;> rcases h2 : form <;> rcases h3 : commandTime s.ports tv <;>
    rcases h4 : (s.chan c).stopped <;> simp

theorem commonChecks_stopped (cfg : Cfg) (c : Fin 16) (tv form : Bool) (s : State) :
    commonChecks cfg c tv form s = .stopped ↔
      cfg.hasChannel c = true ∧ form = true ∧ (commandTime s.ports tv).isSome = true ∧ (s.chan c).stopped = true := by
  unfold commonChecks
  rcases h1 : cfg.hasChannel c <;> rcases h2 : form <;> rcases h3 : commandTime s.ports tv <;>
    rcases h4 : (s.chan c).stopped <;> simp

theorem commonChecks_illegal (cfg : Cfg) (c : Fin 16) (tv form : Bool) (s : State) :
    commonChecks cfg c tv form s = .illegal ↔
      ¬(cfg.hasChannel c = true ∧ form = true ∧ (commandTime s.ports tv).isSome = true) := by
  unfold commonChecks
  rcases h1 : cfg.hasChannel c <;> rcases h2 : form <;> rcases h3 : commandTime s.ports tv <;>
    rcases h4 : (s.chan c).stopped <;> simp

/-- A command whose checks pass is its body at the command's time. -/
theorem withChecks_pass {cfg : Cfg} {c : Fin 16} {tv form : Bool} {s : State} {t : ExReal} {body : ExReal → Result}
    (h1 : cfg.hasChannel c = true) (h2 : form = true) (h3 : commandTime s.ports tv = some t)
    (h4 : (s.chan c).stopped = false) : withChecks cfg c tv form s body = body t := by
  unfold withChecks
  rw [(commonChecks_time cfg c tv form s t).mpr ⟨h1, h2, h3, h4⟩]

/-- A next state comes from ILLEGAL or from the body. -/
theorem withChecks_next {cfg : Cfg} {c : Fin 16} {tv form : Bool} {s s' : State} {body : ExReal → Result}
    (h : withChecks cfg c tv form s body = .next s') :
    (s' = s.respond .illegal (.rat 0)) ∨
      ∃ t, cfg.hasChannel c = true ∧ form = true ∧ commandTime s.ports tv = some t ∧
        (s.chan c).stopped = false ∧ body t = .next s' := by
  unfold withChecks at h
  split at h
  · left; cases h; rfl
  · cases h
  · next t ht =>
    right
    have := (commonChecks_time cfg c tv form s t).mp ht
    exact ⟨t, this.1, this.2.1, this.2.2.1, this.2.2.2, h⟩

@[simp] theorem finish_ok (s : State) : finish (.ok s) = .next (s.respond .ok (.rat 0)) := rfl
@[simp] theorem finish_error (r : Refusal) : finish (.error r) = .refused r := rfl

theorem finish_next {r : Except Refusal State} {s' : State} (h : finish r = .next s') :
    ∃ u, r = .ok u ∧ s' = u.respond .ok (.rat 0) := by
  cases r with
  | error u => cases h
  | ok u => cases h; exact ⟨u, rfl, rfl⟩

/-- The composite loop is its four parts in order. -/
theorem forOperators_ok {f : Fin 4 → State → Except Refusal State} {s s' : State}
    (h : forOperators f s = .ok s') :
    ∃ s1 s2 s3, f 0 s = .ok s1 ∧ f 1 s1 = .ok s2 ∧ f 2 s2 = .ok s3 ∧ f 3 s3 = .ok s' := by
  simp only [forOperators, List.foldlM, bind, Except.bind, pure, Except.pure] at h
  rcases h0 : f 0 s with _ | s1 <;> simp only [h0] at h <;> try cases h
  rcases h1 : f 1 s1 with _ | s2 <;> simp only [h1] at h <;> try cases h
  rcases h2 : f 2 s2 with _ | s3 <;> simp only [h2] at h <;> try cases h
  rcases h3 : f 3 s3 with _ | s4 <;> simp only [h3] at h <;> cases h
  exact ⟨s1, s2, s3, rfl, h1, h2, h3⟩

/-- Four steps that succeed make the loop succeed. -/
theorem forOperators_of_steps {f : Fin 4 → State → Except Refusal State} {s s1 s2 s3 s4 : State}
    (h0 : f 0 s = .ok s1) (h1 : f 1 s1 = .ok s2) (h2 : f 2 s2 = .ok s3) (h3 : f 3 s3 = .ok s4) :
    forOperators f s = .ok s4 := by
  simp [forOperators, List.foldlM, bind, Except.bind, pure, Except.pure, h0, h1, h2, h3]

/-! ### Keying -/

/-- The state a key-on of one envelope from begin level `b` leaves. -/
def keyedOn (cfg : Cfg) (c : Fin 16) (o : Fin 4) (tag : BitVec 8) (kc : BitVec 5) (t b : ExReal) (s : State) : State :=
  let e := (s.env c o).keyOn cfg tag kc t b
  let u := (s.putEnv c o e).emit (keyOnEvents cfg c o t (s.freeCount c) e)
  if e.snapSSG then u.useFree c else u

@[simp] theorem keyedOn_chan (cfg : Cfg) (c c' : Fin 16) (o : Fin 4) (tag : BitVec 8) (kc : BitVec 5) (t b : ExReal)
    (s : State) : (keyedOn cfg c o tag kc t b s).chan c' =
      (s.putEnv c o ((s.env c o).keyOn cfg tag kc t b)).chan c' := by
  unfold keyedOn; simp only; split <;> simp

@[simp] theorem keyedOn_env (cfg : Cfg) (c c' : Fin 16) (o o' : Fin 4) (tag : BitVec 8) (kc : BitVec 5)
    (t b : ExReal) (s : State) : (keyedOn cfg c o tag kc t b s).env c' o' =
      (s.putEnv c o ((s.env c o).keyOn cfg tag kc t b)).env c' o' := by
  simp only [State.env, keyedOn_chan]

@[simp] theorem keyedOn_events (cfg : Cfg) (c : Fin 16) (o : Fin 4) (tag : BitVec 8) (kc : BitVec 5) (t b : ExReal)
    (s : State) : (keyedOn cfg c o tag kc t b s).events =
      s.events ++ keyOnEvents cfg c o t (s.freeCount c) ((s.env c o).keyOn cfg tag kc t b) := by
  unfold keyedOn; simp only; split <;> simp

@[simp] theorem keyedOn_ports (cfg : Cfg) (c : Fin 16) (o : Fin 4) (tag : BitVec 8) (kc : BitVec 5) (t b : ExReal)
    (s : State) : (keyedOn cfg c o tag kc t b s).ports = s.ports := by
  unfold keyedOn; simp only; split <;> simp

@[simp] theorem keyedOn_inputs (cfg : Cfg) (c : Fin 16) (o : Fin 4) (tag : BitVec 8) (kc : BitVec 5) (t b : ExReal)
    (s : State) : (keyedOn cfg c o tag kc t b s).inputs = s.inputs := by
  unfold keyedOn; simp only; split <;> simp

@[simp] theorem keyedOn_responses (cfg : Cfg) (c : Fin 16) (o : Fin 4) (tag : BitVec 8) (kc : BitVec 5) (t b : ExReal)
    (s : State) : (keyedOn cfg c o tag kc t b s).responses = s.responses := by
  unfold keyedOn; simp only; split <;> simp

/-- What a key-on of one envelope does when it is defined. -/
theorem keyOnEnvelope_ok {cfg : Cfg} {c : Fin 16} {o : Fin 4} {tag : BitVec 8} {kc : BitVec 5} {t : ExReal}
    {s s' : State} (h : keyOnEnvelope cfg c o tag kc t s = .ok s') :
    ∃ b, (s.env c o).lastTime.val ≤ t.val ∧ (s.env c o).level cfg t = some b ∧
      s' = keyedOn cfg c o tag kc t b s := by
  unfold keyOnEnvelope at h
  simp only at h
  split at h
  · next ho =>
    split at h
    · cases h
    · next b hb => cases h; exact ⟨b, (timeOrdered_iff _ _).mp ho, hb, rfl⟩
  · cases h

/-- A key-on in time order at a time where the level is defined is performed. -/
theorem keyOnEnvelope_of {cfg : Cfg} {c : Fin 16} {o : Fin 4} {t b : ExReal} {s : State} (tag : BitVec 8)
    (kc : BitVec 5) (ho : (s.env c o).lastTime.val ≤ t.val) (hb : (s.env c o).level cfg t = some b) :
    keyOnEnvelope cfg c o tag kc t s =
      .ok (keyedOn cfg c o tag kc t b s) := by
  simp [keyOnEnvelope, keyedOn, ho, hb]

/-- What a key-off of one envelope does when it is defined. -/
theorem keyOffEnvelope_ok {cfg : Cfg} {c : Fin 16} {o : Fin 4} {tag : BitVec 8} {kc : BitVec 5} {t : ExReal}
    {s s' : State} (h : keyOffEnvelope cfg c o tag kc t s = .ok s') :
    ∃ l, (s.env c o).lastTime.val ≤ t.val ∧ (s.env c o).level cfg t = some l ∧
      s' = (s.putEnv c o ((s.env c o).keyOff cfg tag kc t l)).emit
              (keyOffEvents c o t ((s.env c o).keyOff cfg tag kc t l)) := by
  unfold keyOffEnvelope at h
  simp only at h
  split at h
  · next ho =>
    split at h
    · cases h
    · next l hl => cases h; exact ⟨l, (timeOrdered_iff _ _).mp ho, hl, rfl⟩
  · cases h

/-- A key-off in time order at a time where the level is defined is performed. -/
theorem keyOffEnvelope_of {cfg : Cfg} {c : Fin 16} {o : Fin 4} {t l : ExReal} {s : State} (tag : BitVec 8)
    (kc : BitVec 5) (ho : (s.env c o).lastTime.val ≤ t.val) (hl : (s.env c o).level cfg t = some l) :
    keyOffEnvelope cfg c o tag kc t s =
      .ok ((s.putEnv c o ((s.env c o).keyOff cfg tag kc t l)).emit
              (keyOffEvents c o t ((s.env c o).keyOff cfg tag kc t l))) := by
  simp [keyOffEnvelope, ho, hl]

/-- What a sound-off of one envelope does when it is defined. -/
theorem soundOffEnvelope_ok {c : Fin 16} {o : Fin 4} {t : ExReal} {s s' : State}
    (h : soundOffEnvelope c o t s = .ok s') :
    (s.env c o).lastTime.val ≤ t.val ∧
      s' = (s.putEnv c o ((s.env c o).soundOff t)).emit (soundOffEvents c o t) := by
  unfold soundOffEnvelope at h
  simp only at h
  split at h
  · next ho => cases h; exact ⟨(timeOrdered_iff _ _).mp ho, rfl⟩
  · cases h

/-- A sound-off in time order is performed. -/
theorem soundOffEnvelope_of {c : Fin 16} {o : Fin 4} {t : ExReal} {s : State}
    (ho : (s.env c o).lastTime.val ≤ t.val) :
    soundOffEnvelope c o t s = .ok ((s.putEnv c o ((s.env c o).soundOff t)).emit (soundOffEvents c o t)) := by
  simp [soundOffEnvelope, ho]

/-! ### Setters and routing -/

/-- What a setter does when it answers a next state. -/
theorem setEnvelope_next {cfg : Cfg} {c : Fin 16} {o : Fin 4} {f : Envelope → Envelope} {s s' : State}
    (h : setEnvelope cfg c o f s = .next s') :
    s' = s.respond .illegal (.rat 0) ∨ s' = (s.putEnv c o (f (s.env c o))).respond .ok (.rat 0) := by
  rcases withChecks_next h with h | ⟨t, -, -, -, -, h⟩
  · exact .inl h
  · cases h; exact .inr rfl

/-- What a routing command does when its body answers a next state. -/
theorem routed_next {s s' : State} {c : Fin 16} {t : ExReal} {ch : Channel} {evs : List Event}
    (h : routed s c t ch evs = .next s') :
    (s.chan c).routeLastTime.val ≤ t.val ∧ s' = ((s.putChan c ch).emit evs).respond .ok (.rat 0) := by
  unfold routed at h
  split at h
  · next ho => cases h; exact ⟨(timeOrdered_iff _ _).mp ho, rfl⟩
  · cases h

theorem routed_of {s : State} {c : Fin 16} {t : ExReal} (ch : Channel) (evs : List Event)
    (ho : (s.chan c).routeLastTime.val ≤ t.val) :
    routed s c t ch evs = .next (((s.putChan c ch).emit evs).respond .ok (.rat 0)) := by
  simp [routed, answerOk, ho]

end Sys2Proof.Machine
end

