-- ==== Sys2Proof/Laws/Sink.lean ====
section
/-!
SUPPORT. What the sink's reading of the events (rule R66) does, one fact per operation.
-/

namespace Sys2Proof.Machine

open Sys2Proof

@[simp] theorem expDefined_some (x v : ℝ) : expDefined (some x) v = true ↔ 0 < x * v := by simp [expDefined]
@[simp] theorem expDefined_none (v : ℝ) : expDefined none v = false := rfl

/-- At the time of the last event the parameter has that event's value, whatever the next event is. -/
@[simp] theorem SinkCursor.between_self (e0 : SinkCursor) (next : Option SinkEvent) :
    e0.between next e0.time = e0.value := by
  rcases e0 with ⟨t, v, ap⟩
  rcases next with _ | ⟨t1, _ | _ | _ | _⟩ <;> rcases ap with _ | ⟨g, tc⟩ <;> cases v <;> simp [between]

@[simp] theorem SinkCursor.pass_set (e0 : SinkCursor) (t : ℝ) (v : Option ℝ) :
    e0.pass ⟨t, .set v⟩ = ⟨t, v, none⟩ := rfl
@[simp] theorem SinkCursor.pass_lin (e0 : SinkCursor) (t v : ℝ) : e0.pass ⟨t, .lin v⟩ = ⟨t, some v, none⟩ := rfl

/-- An exponential ramp reaches its end value exactly where it has one (U8). -/
theorem SinkCursor.pass_exp (e0 : SinkCursor) (t v : ℝ) :
    e0.pass ⟨t, .exp v⟩ = ⟨t, if expDefined e0.value v then some v else none, none⟩ := rfl

@[simp] theorem SinkCursor.pass_time (e0 : SinkCursor) (e : SinkEvent) : (e0.pass e).time = e.time := by
  rcases e with ⟨t, _ | _ | _ | _⟩ <;> rfl

@[simp] theorem SinkCursor.read_nil (e0 : SinkCursor) (t : ℝ) : e0.read [] t = e0.between none t := rfl

theorem SinkCursor.read_past (e0 : SinkCursor) (e : SinkEvent) (rest : List SinkEvent) (t : ℝ) (h : e.time ≤ t) :
    e0.read (e :: rest) t = (e0.pass e).read rest t := if_pos h

theorem SinkCursor.read_ahead (e0 : SinkCursor) (e : SinkEvent) (rest : List SinkEvent) (t : ℝ) (h : t < e.time) :
    e0.read (e :: rest) t = e0.between (some e) t := if_neg (not_le.mpr h)

/-- Events later than `t` do not change the value at `t`, where it is read at the last event's own time. -/
theorem SinkCursor.read_self (e0 : SinkCursor) (line : List SinkEvent) (h : ∀ e ∈ line, e0.time < e.time) :
    e0.read line e0.time = e0.value := by
  cases line with
  | nil => simp
  | cons e rest => rw [read_ahead _ _ _ _ (h e (by simp)), between_self]

/-- An event put in keeps the others. -/
theorem mem_insertEvent (e x : SinkEvent) (line : List SinkEvent) : x ∈ insertEvent e line ↔ x = e ∨ x ∈ line := by
  induction line with
  | nil => simp [insertEvent]
  | cons y rest ih =>
    unfold insertEvent
    split
    · rw [List.mem_cons, ih, List.mem_cons]; tauto
    · rw [List.mem_cons]

/-- An event that is not earlier than the others goes to the end. -/
theorem insertEvent_last (e : SinkEvent) (line : List SinkEvent) (h : ∀ x ∈ line, x.time ≤ e.time) :
    insertEvent e line = line ++ [e] := by
  induction line with
  | nil => rfl
  | cons y rest ih => simp [insertEvent, h y (by simp), ih fun x hx => h x (by simp [hx])]

end Sys2Proof.Machine
end

