-- ==== Sys2Proof/Tests/Slice0.lean ====
section
/-!
SUPPORT. Tests. Expected words and values come from the spec: the opcode map (rule R86), the worked examples of
the command rules, and 95_test_vectors.md (named in each comment), under its fixture CFG_TEST. Then a witness for
every obligation that has hypotheses.
-/

namespace Sys2Proof.Tests

open Sys2Proof Sys2Proof.Machine

/-! ### Well-formedness: an ill-formed term for each check -/

theorem test_wf_algorithm_of_channel : WellFormed (.chUsealg 0 false .four 8) = false := by decide
theorem test_wf_algorithm_of_view0 : WellFormed (.chUsealg 0 false .two0 2) = false := by decide
theorem test_wf_algorithm_of_view1 : WellFormed (.chUsealg 0 false .two1 2) = false := by decide
theorem test_wf_pan : WellFormed (.chSetpan 0 false .set 0x80) = false := by decide
theorem test_wf_channel : Config.cfgTest.hasChannel 2 = false := by decide
theorem test_wf_channel_one : Config.cfgTest.hasChannel 1 = true := by decide
theorem test_wf_accepts : WellFormed (.chUsealg 0 false .four 7) = true ∧ WellFormed (.chSetpan 0 false .set 0x81) = true := by
  decide

/-! ### Decoding: words of the rules' examples and of 95_test_vectors.md 3.1 to 3.8 -/

theorem test_decode_egSetar : decode 0x0400001F = .ok (.egSetar 0 0 31) := by rfl
theorem test_decode_egSetar_channel : decode 0x04400001 = .ok (.egSetar 1 0 1) := by rfl
theorem test_decode_egSetdr : decode 0x08000005 = .ok (.egSetdr 0 0 5) := by rfl
theorem test_decode_egSetsl : decode 0x0C100200 = .ok (.egSetsl 0 1 512) := by rfl
theorem test_decode_egSetsr : decode 0x1030001F = .ok (.egSetsr 0 3 31) := by rfl
theorem test_decode_egSetrr : decode 0x1460000A = .ok (.egSetrr 1 2 10) := by rfl
theorem test_decode_egSetrs : decode 0x18000003 = .ok (.egSetrs 0 0 3) := by rfl
theorem test_decode_egSetssg : decode 0x1C00000D = .ok (.egSetssg 0 0 13) := by rfl
theorem test_decode_egKeyon : decode 0x2028070C = .ok (.egKeyon 0 2 true 7 12) := by rfl
theorem test_decode_egKeyon_now : decode 0x20000100 = .ok (.egKeyon 0 0 false 1 0) := by rfl
theorem test_decode_egKeyoff : decode 0x2408021F = .ok (.egKeyoff 0 0 true 2 31) := by rfl
theorem test_decode_egSoundoff : decode 0x28080000 = .ok (.egSoundoff 0 0 true) := by rfl
theorem test_decode_egLevel : decode 0x2C180000 = .ok (.egLevel 0 1 true) := by rfl
theorem test_decode_opSetfreq : decode 0x407A3FFF = .ok (.opSetfreq 1 3 true .lin 7 2047) := by rfl
theorem test_decode_opSetfreq_now : decode 0x40201A8D = .ok (.opSetfreq 0 2 false .set 3 653) := by rfl
theorem test_decode_opSetdt : decode 0x44100006 = .ok (.opSetdt 0 1 true 2) := by rfl
theorem test_decode_opSetdt_zero : decode 0x44000004 = .ok (.opSetdt 0 0 true 0) := by rfl
theorem test_decode_opKeyon : decode 0x48180900 = .ok (.opKeyon 0 1 true 9) := by rfl
theorem test_decode_opKeyoff : decode 0x4C180900 = .ok (.opKeyoff 0 1 true 9) := by rfl
theorem test_decode_chUsealg : decode 0x60080004 = .ok (.chUsealg 0 true .four 4) := by rfl
theorem test_decode_chUsealg_view : decode 0x60080021 = .ok (.chUsealg 0 true .two1 1) := by rfl
theorem test_decode_chSetfb : decode 0x642A0007 = .ok (.chSetfb 0 2 true .lin 7) := by rfl
theorem test_decode_chSetpan : decode 0x680800C0 = .ok (.chSetpan 0 true .set 0xC0) := by rfl
theorem test_decode_chEnop : decode 0x6C300000 = .ok (.chEnop 0 3) := by rfl
theorem test_decode_chDisop : decode 0x70380000 = .ok (.chDisop 0 3 true) := by rfl
theorem test_decode_chKeyon : decode 0x74080700 = .ok (.chKeyon 0 true 7) := by rfl
theorem test_decode_chKeyoff : decode 0x78080700 = .ok (.chKeyoff 0 true 7) := by rfl
theorem test_decode_chSoundoff : decode 0x7C080000 = .ok (.chSoundoff 0 true) := by rfl
theorem test_decode_chStop : decode 0x80080000 = .ok (.chStop 0 true) := by rfl

/-- The words of 95_test_vectors.md 3.1 that match no row. -/
theorem test_decode_no_row :
    [0x00000000, 0x30000000, 0x5C000000, 0x84000000, 0xFFFFFFFF, 0x04080005, 0x04010005, 0x04000020, 0x0C000400,
      0x20080120, 0x2C0A0000, 0x2C080001, 0x74180700, 0x44000008].map rowOf = List.replicate 14 none := by decide

/-- Those that match a row and fail a value condition. -/
theorem test_decode_conditions :
    decode 0x400E0005 = .error .method ∧ decode 0x640E0001 = .error .method ∧ decode 0x60080030 = .error .view ∧
      decode 0x60080008 = .error .algorithm ∧ decode 0x60080012 = .error .algorithm ∧
      decode 0x68080080 = .error .pan := ⟨rfl, rfl, rfl, rfl, rfl, rfl⟩

theorem test_encode_words :
    encode (.egKeyon 0 2 true 7 12) = 0x2028070C ∧ encode (.opSetfreq 0 0 true .exp 0 2) = 0x400C0002 ∧
      encode (.opSetdt 0 0 true 3) = 0x44000007 ∧ encode (.chSetpan 0 true .lin 127) = 0x680A007F ∧
      encode (.chUsealg 0 true .two0 1) = 0x60080011 := by decide

theorem test_decodeTableWord : decodeTableWord 32 0x44100006 = some (.opSetdt 0 1 true 2) := by rfl

/-- The example of rule R92. -/
theorem test_asm :
    asm (.egKeyon 0 2 true 7 12) ⟨.real (.rat (3 / 2)), none, .rat 0⟩ = "EG.KEYON 0, 2, 7, 12 @3/2" := by decide +kernel

/-- 95_test_vectors.md 3.1: a negative detune, and minus zero. -/
theorem test_asm_detune :
    asm (.opSetdt 0 1 true 2) State.reset.ports = "OP.SETDT 0, 1, -2" ∧
      asm (.opSetdt 0 0 true 0) State.reset.ports = "OP.SETDT 0, 0, -0" := by decide +kernel

/-- 95_test_vectors.md 3.6: two whole commands, with and without a RATIO. -/
theorem test_asm_ratio :
    asm (.opSetfreq 1 3 true .lin 7 2047) ⟨.real (.rat 2), some ⟨15, by decide⟩, .rat 0⟩ =
        "OP.SETFREQ 1, 3, 7, 2047, 15/1 @2 !lin" ∧
      asm (.opSetfreq 0 1 true .set 4 1100) ⟨.real (.rat 0), none, .rat 0⟩ = "OP.SETFREQ 0, 1, 4, 1100 @0" := by
  decide +kernel

/-! ### Small states under CFG_TEST -/

/-- The state a result leaves; the reset state where there is none. -/
def left : Result → State
  | .next s => s
  | .fault _ => State.reset
  | .refused _ => State.reset

/-- Why a result stops, where it does. -/
def refusal : Result → Option Refusal
  | .next _ => none
  | .fault _ => none
  | .refused r => some r

/-- The state with TIME t, RATIO 1/1, NOW 0 on its ports. -/
def atTime (t : Rat) (s : State) : State := { s with ports := ⟨.real (.rat t), some PosRat.one, .rat 0⟩ }

/-- The reset state with envelope (0, 0) as given. -/
def with00 (e : Envelope) : State := State.reset.putEnv 0 0 e

/-- The parameters of program P1 (and of the source's example X5). -/
def p1 : Envelope := { Envelope.reset with attackRate := 31, decayRate := 5, sustainLevel := 200, releaseRate := 10 }

/-- After a key-on at 0 with key code kc. -/
def keyed (e : Envelope) (kc : BitVec 5) : State :=
  left (egKeyon Config.cfgTest 0 0 true 1 kc (atTime 0 (with00 e)))

/-- After a key-off at t. -/
def released (s : State) (t : Rat) : State := left (egKeyoff Config.cfgTest 0 0 true 1 0 (atTime t s))

def near (t : ETime) (q : Rat) : Bool :=
  match t with
  | .fin x => x.near q (1 / 10 ^ 9)
  | .inf => false

def levelNear (s : State) (t : ExReal) (q : Rat) : Bool :=
  match (s.env 0 0).level Config.cfgTest t with
  | some x => x.near q (1 / 10 ^ 6)
  | none => false

/-- `endAttack + x`. -/
def afterAttack (s : State) (x : Rat) : ExReal :=
  match (s.env 0 0).endAttack with
  | .fin a => ExReal.plus a (.rat x)
  | .inf => .rat 0

/-! ### Rates (95_test_vectors.md 3.3) -/

theorem test_rateAdjust :
    [rateAdjust 1 3, rateAdjust 7 2, rateAdjust 8 0, rateAdjust 18 1, rateAdjust 18 2, rateAdjust 31 2] =
      [1, 3, 1, 4, 9, 15] := by decide

theorem test_rateCode :
    [rateCode 0 0 0, rateCode 0 0 1, rateCode 5 0 0, rateCode 10 0 1, rateCode 31 2 0, rateCode 16 31 0,
      rateCode 15 31 0, rateCode 4 9 1] = [0, 1, 10, 21, 63, 63, 61, 18] := by decide

/-! ### Setters (95_test_vectors.md 3.2) -/

theorem test_egSetar : ((left (exec (.egSetar 0 0 31) State.reset)).env 0 0).attackRate = 31 := by decide
theorem test_egSetdr : ((left (exec (.egSetdr 0 0 5) State.reset)).env 0 0).decayRate = 5 := by decide
theorem test_egSetsl : ((left (exec (.egSetsl 0 0 1023) State.reset)).env 0 0).sustainLevel = 1023 := by decide
theorem test_egSetsr : ((left (exec (.egSetsr 0 3 31) State.reset)).env 0 3).sustainRate = 31 := by decide
theorem test_egSetrr : ((left (exec (.egSetrr 0 2 10) State.reset)).env 0 2).releaseRate = 10 := by decide
theorem test_egSetrs : ((left (exec (.egSetrs 0 0 3) State.reset)).env 0 0).rateScaling = 3 := by decide

/-- Mode 8 from reset, then modes 9, 10 and 12 from mode 8 with the cache valid. -/
theorem test_egSetssg :
    let e8 := Envelope.reset.setMode (modeFlags Config.cfgTest 8)
    let v := { e8 with ssgCacheValid := true }
    (e8.ssgEnabled, e8.inverted, e8.jump, e8.looping, e8.ssgCacheValid) = (true, false, false, true, false) ∧
      (v.setMode (modeFlags Config.cfgTest 9)).ssgCacheValid = true ∧
      (v.setMode (modeFlags Config.cfgTest 10)).ssgCacheValid = false ∧
      (v.setMode (modeFlags Config.cfgTest 12)).ssgCacheValid = false ∧
      (v.setMode (modeFlags Config.cfgTest 5)).ssgEnabled = false := by decide

/-! ### Keying (95_test_vectors.md 3.4, programs P1, P2, P4) -/

/-- P1, command 6. -/
theorem test_egKeyon :
    let e := (keyed p1 0).env 0 0
    e.prevAttackRate = 62 ∧ near e.endAttack (13862944 / 10 ^ 10) = true ∧
      near e.endDecay (836862944 / 10 ^ 10) = true ∧ e.endSustain = .inf ∧ e.silentAt = .inf ∧
      (keyed p1 0).events.take 3 =
        [.cancelHold (.gain 0 0) (.rat 0), .set (.gain 0 0) (.rat 0) (.rat 0),
         .target (.gain 0 0) (.rat 2) (.rat 0) (.rat (1 / 500))] ∧
      (keyed p1 0).events.length = 5 := by decide +kernel

/-- K3: sustain level 1023 skips the decay ramp; K6: clamped rate codes. -/
theorem test_egKeyon_stop :
    let s := keyed { p1 with sustainLevel := 1023, sustainRate := 4 } 0
    let u := keyed { p1 with decayRate := 31, sustainLevel := 512, sustainRate := 31, rateScaling := 3 } 31
    (s.env 0 0).endDecay = (s.env 0 0).endAttack ∧ near (s.env 0 0).silentAt (1292612944 / 10 ^ 10) = true ∧
      s.events.length = 6 ∧ (u.env 0 0).prevAttackRate = 63 ∧ near (u.env 0 0).silentAt (169312424 / 10 ^ 10) = true := by
  decide +kernel

/-- P1, commands 7 to 9, and `EG.LEVEL` before the key-on of K12. -/
theorem test_egLevel :
    levelNear (keyed p1 0) (.rat (1 / 1000)) (8050382702 / 10 ^ 7) = true ∧
      levelNear (keyed p1 0) (.rat (1 / 20)) (5368629436 / 10 ^ 7) = true ∧
      ((keyed p1 0).env 0 0).level Config.cfgTest (.rat 1) = some (.rat 200) ∧
      (keyed p1 0).level 0 0 (.rat (-1)) = none := by decide +kernel

/-- P1, command 10 and 11. -/
theorem test_egKeyoff :
    let s := released (keyed p1 0) 2
    (s.env 0 0).endRelease = .fin (.rat (211 / 105)) ∧
      (s.env 0 0).level Config.cfgTest (.rat (401 / 200)) = some (.rat 95) ∧
      s.events.drop 5 =
        [.cancelHold (.gain 0 0) (.rat 2), .set (.gain 0 0) (.rat (200 / 1023)) (.rat 2),
         .linRamp (.gain 0 0) (.rat 0) (.rat (211 / 105)), .stop 0 0 1 (.rat (211 / 105))] := by decide +kernel

/-- K5: on an idle envelope, a zero-length release and an immediate STOP; `EG.LEVEL` before it is 0. -/
theorem test_egKeyoff_idle :
    let s := released (with00 p1) 1
    (s.env 0 0).silentAt = .fin (.rat 1) ∧ s.events.length = 3 ∧
      (s.env 0 0).level Config.cfgTest (.rat (1 / 2)) = some (.rat 0) := by decide +kernel

/-- K11. -/
theorem test_egSoundoff :
    let e := ((keyed p1 0).env 0 0).soundOff (.rat (1 / 20))
    e.level Config.cfgTest (.rat 7) = some (.rat 0) ∧
      ((e.level Config.cfgTest (.rat (1 / 25))).map fun x => x.near (636862944 / 10 ^ 6) (1 / 10 ^ 5)) = some true := by
  decide +kernel

/-- K7: retrigger during the attack. -/
theorem test_retrigger :
    let s := left (egKeyon Config.cfgTest 0 0 true 2 0 (atTime (1 / 100) (keyed { p1 with attackRate := 10 } 0)))
    (s.env 0 0).beginLevel.near (4159447006 / 10 ^ 7) (1 / 10 ^ 6) = true ∧
      near (s.env 0 0).endAttack (304984759 / 10 ^ 10) = true ∧ (s.env 0 0).srcTag = 2 := by decide +kernel

/-- K12: an earlier time is UNDEFINED. -/
theorem test_time_order :
    refusal (egKeyoff Config.cfgTest 0 0 true 1 0
      (atTime (1 / 2) (left (egKeyon Config.cfgTest 0 0 true 1 0 (atTime 1 (with00 p1)))))) =
      some .undefinedTimeOrder := by decide +kernel

/-- The note of 95_test_vectors.md 3.5 in a given mode, at `endAttack + 0.04`, `+ P + 0.04`, `+ 2P + 0.04`. -/
def ssgLevels (mode : BitVec 4) (x y z : Rat) : Bool :=
  let s := keyed ({ p1 with sustainRate := 3 }.setMode (modeFlags Config.cfgTest mode)) 0
  let p : Rat := 3469 / 30000
  levelNear s (afterAttack s (1 / 25)) x && levelNear s (afterAttack s (p + 1 / 25)) y &&
    levelNear s (afterAttack s (2 * p + 1 / 25)) z

theorem test_ssg_plain : ssgLevels 8 623 400 623 = true ∧ ssgLevels 9 623 0 0 = true ∧ ssgLevels 10 623 623 623 = true ∧
    ssgLevels 11 623 1023 1023 = true := by decide +kernel
theorem test_ssg_inverted : ssgLevels 12 400 623 400 = true ∧ ssgLevels 13 400 1023 1023 = true ∧
    ssgLevels 14 400 400 400 = true ∧ ssgLevels 15 400 0 0 = true := by decide +kernel

/-! ### Frequency (95_test_vectors.md 3.6, 3.7) -/

/-- The Hertz value and the key code for a detune setting. -/
def hz (neg : Bool) (mag : BitVec 2) (block : BitVec 3) (fn : BitVec 11) (ratio : PosRat) : Rat :=
  scheduledHz Config.cfgTest ⟨neg, mag⟩ block fn ratio

theorem test_opSetfreq_hz :
    hz false 3 4 1100 PosRat.one = 8809 / 16 ∧ hz true 3 4 1100 PosRat.one = 8791 / 16 ∧
      hz true 3 0 2 PosRat.one = 131070 / 16 ∧ hz false 0 0 1 PosRat.one = 0 ∧
      hz false 3 7 2047 PosRat.one = 131030 / 16 ∧ hz true 3 7 2047 ⟨15, by decide +kernel⟩ = 130986 * 15 / 16 ∧
      hz false 2 3 653 ⟨2, by decide +kernel⟩ = 327 := by decide +kernel

/-- The last whole command of 3.6. -/
theorem test_opSetfreq :
    let s := left (opSetfreq Config.cfgTest 1 3 true .lin 7 2047
      { State.reset.putOpr 1 3 { Operator.reset with detune := ⟨true, 3⟩ } with
        ports := ⟨.real (.rat 2), some ⟨15, by decide +kernel⟩, .rat 0⟩ })
    s.events = [.linRamp (.freq 1 3) (.rat (1964790 / 16)) (.rat 2)] ∧ (s.opr 1 3).keyCode = 31 ∧
      (s.opr 1 3).freqLastTime = .rat 2 := by decide +kernel

theorem test_keyCode :
    [calcKeyCode Config.cfgTest 4 1100, calcKeyCode Config.cfgTest 2 895, calcKeyCode Config.cfgTest 2 896,
      calcKeyCode Config.cfgTest 2 1024, calcKeyCode Config.cfgTest 2 1152] = [18, 8, 9, 10, 11] := by decide

theorem test_opSetdt :
    ((left (exec (.opSetdt 0 1 true 2) State.reset)).opr 0 1).detune.value = -2 ∧
      ((left (exec (.opSetdt 0 0 true 0) State.reset)).opr 0 0).detune = ⟨false, 0⟩ := by decide

/-- P2: the stored key code 18 with `rateScaling = 2` gives attack code 29 and release code 18. -/
theorem test_opKeyon :
    ((keyed { p1 with attackRate := 10, rateScaling := 2 } 18).env 0 0).prevAttackRate = 29 ∧
      (left (exec (.opKeyon 0 1 true 9) (atTime 0 State.reset))).events.length = 2 := by decide +kernel
theorem test_opKeyoff :
    rateCode 4 (rateAdjust 18 2) 1 = 18 ∧
      (left (exec (.opKeyoff 0 1 true 9) (atTime 0 State.reset))).events.length = 3 := by decide +kernel

theorem test_fullFreq :
    [componentsToFullFreq 0 1, componentsToFullFreq 0 2047, componentsToFullFreq 4 1100, componentsToFullFreq 7 2047] =
      [0, 1023, 8800, 131008] ∧
    [fullFreqToComponents (.rat 0), fullFreqToComponents (.rat 1200), fullFreqToComponents (.rat (4095 / 4)),
      fullFreqToComponents (.rat (4095 / 2)), fullFreqToComponents (.rat 131039), fullFreqToComponents (.rat 131040)] =
      [some (0, 0), some (1, 1200), some (1, 1024), some (2, 1024), some (7, 2047), none] := by decide +kernel

/-! ### Routing and lifecycle (95_test_vectors.md 3.8) -/

theorem test_chUsealg :
    let s := left (chUsealg Config.cfgTest 0 true .four 4 (atTime 0 State.reset))
    (s.chan 0).g = #v[0, 0, 1, 0, 0, 0, 0, 1] ∧ (s.chan 0).outLevel = #v[0, 1, 0, 1] ∧ (s.chan 0).algorithm = 4 ∧
      s.events.length = 10 := by decide +kernel

theorem test_chUsealg_view :
    let s := left (chUsealg Config.cfgTest 0 true .four 4 (atTime 0 State.reset))
    let u := left (chUsealg Config.cfgTest 0 true .two1 1 (atTime 0 s))
    (u.chan 0).g = #v[0, 0, 1, 0, 0, 0, 0, 0] ∧ (u.chan 0).outLevel = #v[0, 1, 1, 1] ∧
      (u.chan 0).alg2 = #v[0, 1] ∧ (u.chan 0).algorithm = 4 ∧
      u.events.drop 10 = [.set (.mod 0 7) (.rat 0) (.rat 0), .set (.out 0 2) (.rat 1) (.rat 0),
        .set (.out 0 3) (.rat 1) (.rat 0)] := by decide +kernel

theorem test_chSetfb :
    let s := left (chSetfb Config.cfgTest 0 0 true .set 5 (atTime 0 State.reset))
    (s.chan 0).g[0] = 1 / 4 ∧ (s.chan 0).fbCode = #v[5, 0] ∧
      s.events = [.set (.mod 0 0) (.rat (1 / 4)) (.rat 0)] := by decide +kernel
theorem test_chSetfb_undefined :
    refusal (exec (.chSetfb 0 1 true .set 3) (atTime 0 State.reset)) = some .undefinedOperatorNumber ∧
      refusal (exec (.chSetfb 0 3 true .set 3) (atTime 0 State.reset)) = some .undefinedOperatorNumber := by decide +kernel

theorem test_chSetpan :
    let s := left (exec (.chSetpan 0 true .set 0xC0) (atTime 0 State.reset))
    (s.chan 0).pan.toInt = -64 ∧ s.events = [.set (.pan 0) (.rat (-64 / 127)) (.rat 0)] := by decide +kernel

theorem test_chEnop :
    let s := left (exec (.chEnop 0 3) State.reset)
    (s.opr 0 3).enabled = true ∧ s.life 0 3 (.rat 5) = .enabled ∧ s.events = [] := by decide
theorem test_chDisop :
    let s := left (exec (.chDisop 0 3 true) (atTime 1 (State.reset.setEnabled 0 3 true)))
    (s.opr 0 3).enabled = false ∧ (s.env 0 3).silentAt = .fin (.rat 1) ∧
      s.events = [.cancelHold (.gain 0 3) (.rat 1), .set (.gain 0 3) (.rat 0) (.rat 1)] := by decide +kernel

/-- The rows with no operator enabled; and P3's command 12 on two enabled operators. -/
theorem test_chKeyon :
    (left (exec (.chKeyon 0 true 7) (atTime 0 State.reset))).events = [] ∧
      ((left (chKeyon Config.cfgTest 0 true 7 (atTime 0
        ((State.reset.setEnabled 0 0 true).setEnabled 0 1 true)))).events.map Event.param) =
        [some (.gain 0 0), some (.gain 0 0), some (.gain 0 1), some (.gain 0 1)] := by decide +kernel
theorem test_chKeyoff :
    (left (exec (.chKeyoff 0 true 7) (atTime 0 State.reset))).events = [] ∧
      ((left (exec (.chKeyoff 0 true 7) (atTime 2 (State.reset.setEnabled 0 1 true)))).events.drop 2) =
        [.stop 0 1 7 (.rat 2)] := by decide +kernel
theorem test_chSoundoff :
    let s := left (exec (.chSoundoff 0 true) (atTime (1 / 2) State.reset))
    s.events.length = 8 ∧ (s.env 0 3).egKey = .off ∧ (s.env 0 3).lastTime = .rat (1 / 2) := by decide +kernel
theorem test_chStop :
    let s := left (exec (.chStop 0 true) (atTime 3 State.reset))
    (s.chan 0).stopped = true ∧ (s.env 0 2).silentAt = .fin (.rat 3) ∧
      s.events = [.stop 0 0 0 (.rat 3), .stop 0 1 0 (.rat 3), .stop 0 2 0 (.rat 3), .stop 0 3 0 (.rat 3)] := by
  decide +kernel
theorem test_chStop_second :
    refusal (exec (.chStop 0 true) (left (exec (.chStop 0 true) (atTime 3 State.reset)))) =
      some .undefinedStopped := by
  decide +kernel

/-- The slots of rule R170's example list, in (modulator, carrier) order. -/
theorem test_slot :
    [slot 1 1, slot 3 3, slot 1 2, slot 1 3, slot 1 4, slot 2 3, slot 2 4, slot 3 4, slot 2 2, slot 4 4, slot 2 1] =
      [some 0, some 1, some 2, some 3, some 4, some 5, some 6, some 7, none, none, none] := by decide

/-- A step performs the word placed as the next input. -/
theorem test_step :
    ((left (step (State.reset.withFetchWord 32 0x0400001F))).env 0 0).attackRate = 31 := by decide
theorem test_step_illegal :
    (left (step (State.reset.withFetchWord 32 0))).responses = [⟨.illegal, .rat 0⟩] := by decide

/-! ### Witnesses: states and operands that meet each obligation's hypotheses -/

/-- The reset state with envelope (0, 0) as given and TIME 1 on its ports. -/
def wState (e : Envelope) : State := atTime 1 (with00 e)

theorem wState_ready (e : Envelope) : Ready (wState e) 0 true (.rat 1) := by
  refine ⟨rfl, (commandTime_true_iff _ _).mpr ⟨rfl, by norm_num⟩, ?_⟩
  show ((State.reset.putEnv 0 0 e).chan 0).stopped = false
  simp [Channel.reset]

theorem wState_env (e : Envelope) : (wState e).env 0 0 = e := env_putEnv_same State.reset 0 0 e

theorem wState_idle (e : Envelope) (h : e.egKey = .idle) : (wState e).level 0 0 (.rat 1) = some (.rat 0) := by
  rw [State.level, wState_env, Envelope.level, h]

theorem envelopeReset_inv : Envelope.reset.Inv := by constructor <;> simp [Envelope.reset]

/-- The invariant of the reset state with one envelope and the ports replaced. -/
theorem wState_inv (e : Envelope) (h : e.Inv) : (wState e).Inv := by
  have hc : ∀ c, (wState e).chan c =
      if c = 0 then { Channel.reset with envs := Channel.reset.envs.set 0 e } else Channel.reset := fun c => by
    show (State.reset.putEnv 0 0 e).chan c = _
    rw [chan_putEnv]; simp
  have hr : Channel.reset.Inv := by
    refine ⟨fun o => ?_, fun o => ?_, by simp [Channel.reset], by simp [Channel.reset, nAlg4], fun k => ?_⟩
    · simpa [Channel.reset] using envelopeReset_inv
    · simp [Channel.reset, Operator.reset]
    · simp only [Channel.reset, Vector.getElem_replicate]; exact (Laws.feedbackDepth_zero _).symm
  refine ⟨fun c => ?_, fun c hn => ?_⟩
  · rw [hc]; split
    · refine ⟨fun o => ?_, hr.detune, hr.pan, hr.algorithm, hr.feedback⟩
      by_cases ho : o = 0
      · subst ho; simpa using h
      · have : (0 : Nat) ≠ o.val := fun x => ho (Fin.ext x.symm)
        simpa [Channel.reset, Vector.getElem_set_ne _ _ this] using envelopeReset_inv
    · exact hr
  · rw [hc, if_neg]; rintro rfl; cases hn

/-- A result that goes on is the next state it leaves. -/
theorem next_left {r : Result} (h : refusal r = none) : r = .next (left r) := by
  cases r with
  | next s => rfl
  | fault f => cases f
  | refused u => cases h

/-- A note without SSG, keyed on at 0: attack to 1, decay to 2, sustain to 3. -/
def note : Envelope :=
  { Envelope.reset with
    egKey := .on
    hasAttack := true
    prevAttackRate := 62
    endAttack := .fin (.rat 1)
    endDecay := .fin (.rat 2)
    endSustain := .fin (.rat 3)
    snapSL := 512 }

theorem note_inv : note.Inv := by
  constructor <;> simp [note, Envelope.reset] <;> norm_cast

/-- The same with SSG: inverted, looping, without a jump. -/
def ssgNote : Envelope := { note with snapSSG := true, snapInv := true, snapLoop := true }

theorem ssgNote_inv : ssgNote.Inv := by
  constructor <;> simp [ssgNote, note, Envelope.reset] <;> norm_cast

theorem witness_DecodeOfEncode : WellFormed (.chUsealg 15 true .four 7) = true ∧ WellFormed (.chUsealg 0 true .two1 1) = true ∧
    WellFormed (.chSetpan 0 true .exp 0x7F) = true := by decide
theorem witness_EncodeOfDecode : decode 0x407A3FFF = .ok (.opSetfreq 1 3 true .lin 7 2047) := by rfl
theorem witness_RowsAreDisjoint : (∃ a ∈ opcodeMap, 0x0400001F#32 &&& a.mask = a.matchBits) ∧
    ∀ a ∈ opcodeMap, 0#32 &&& a.mask ≠ a.matchBits := by decide
theorem witness_UnmatchedWordIsIllegal :
    (∀ a ∈ opcodeMap, 0#32 &&& a.mask ≠ a.matchBits) ∧ BitVec.extractLsb' 17 2 0x400E0005#32 = 3#2 ∧
      (∃ a ∈ opcodeMap, 0x400E0005#32 &&& a.mask = a.matchBits) ∧
      decode 0x400E0005 = .error .method ∧ decode 0x60080030 = .error .view ∧
      decode 0x60080008 = .error .algorithm ∧ decode 0x60080012 = .error .algorithm ∧
      decode 0x68080080 = .error .pan ∧
      [0x30000000#32, 0x3FFFFFFF#32, 0x50000000#32, 0x5FFFFFFF#32, 0x84000000#32, 0xFFFFFFFF#32].map
        (fun w => w.toNat / 2 ^ 26) = [0x0C, 0x0F, 0x14, 0x17, 0x21, 0x3F] ∧
      ∃ p, (State.reset.withFetchWord 32 0).inputs = [.command 0 p] := by
  refine ⟨by decide, by decide, by decide, by decide, by decide, by decide, by decide, by decide, by decide, ⟨_, rfl⟩⟩
theorem witness_StepRunsDecodedCommand :
    (∃ p, (State.reset.withFetchWord 32 0x0400001F).inputs = [.command 0x0400001F p]) ∧
      decode 0x0400001F = .ok (.egSetar 0 0 31) ∧ State.reset.inputs = [] := ⟨⟨_, rfl⟩, rfl, rfl⟩
theorem witness_ResetInputRestoresEveryRegister :
    { State.reset with inputs := [.reset] }.inputs = HostInput.reset :: [] := rfl
theorem witness_FailedConditionAnswersIllegal :
    (0 : ℝ) ≤ (ExReal.rat 0).val ∧ (ExReal.rat (-1)).val < 0 ∧
      ¬(WellFormed (.chUsealg 0 false .four 8) = true) ∧ ¬((2 : Fin 16).val < Config.cfgTest.data.nCh) ∧
      (commandTime { State.reset.ports with time := .notFinite } true).isSome = false := by
  refine ⟨by norm_num, by norm_num, by decide, by decide, rfl⟩
theorem witness_StoppedChannelRefusesEveryCommand :
    let s := left (exec (.chStop 0 false) State.reset)
    Config.cfg.hasChannel 0 = true ∧ (commandTime s.ports false).isSome = true ∧ (s.chan 0).stopped = true ∧
      refusal (exec (.egSetar 15 0 0) { s with ports := s.ports }) = none := by
  refine ⟨rfl, rfl, by decide +kernel, ?_⟩
  simp only [exec, execEgSetar, setEnvelope, withChecks]
  split <;> first | rfl | skip
  next h =>
    rw [commonChecks_stopped] at h
    exact absurd h.2.2.2 (by decide +kernel)
theorem witness_MissingRatioAnswersMissingOperand :
    Ready { wState p1 with ports := { (wState p1).ports with ratio := none } } 0 true (.rat 1) := wState_ready p1
theorem witness_EarlierTimeIsUndefined :
    let e := { Envelope.reset with lastTime := .rat 2 }
    (wState e).Inv ∧ Ready (wState e) 0 true (.rat 1) ∧ (ExReal.rat 1).val < ((wState e).env 0 0).lastTime.val := by
  refine ⟨wState_inv _ ?_, wState_ready _, ?_⟩
  · constructor <;> simp [Envelope.reset]
  · rw [wState_env]; norm_num
theorem witness_EarlierTimeIsUndefined_others :
    let s := (wState p1).putOpr 0 0 { Operator.reset with freqLastTime := .rat 2 }
    let u := s.putChan 0 { s.chan 0 with routeLastTime := .rat 2 }
    (ExReal.rat 1).val < (u.opr 0 0).freqLastTime.val ∧ (ExReal.rat 1).val < (u.chan 0).routeLastTime.val ∧
      u.ports.ratio.isSome = true := by
  refine ⟨?_, ?_, rfl⟩
  · simp [State.opr, State.putOpr]
  · simp
theorem witness_EveryCommandAnswersOnce :
    exec (.egLevel 0 0 false) State.reset = .next (left (exec (.egLevel 0 0 false) State.reset)) :=
  next_left (by decide +kernel)
theorem witness_RateSettersWriteOneRegister :
    Config.cfg.hasChannel 0 = true ∧ (State.reset.chan 0).stopped = false := ⟨rfl, rfl⟩
theorem witness_SsgModeReplacesFlags : (7#4).toNat < 8 ∧ ¬(8#4).toNat < 8 := by decide
theorem witness_SettersAreIdempotentAndCommute :
    (Instr.egSetar 0 0 31).setter = some (0, 0, 0) ∧ (Instr.egSetssg 0 1 8).setter = some (6, 0, 1) ∧
      refusal (exec (.egSetar 0 0 31) State.reset) = none ∧ refusal (exec (.egSetssg 0 1 8) State.reset) = none := by
  refine ⟨rfl, rfl, by decide +kernel, ?_⟩
  rw [exec, execEgSetssg, egSetssg, setEnvelope, withChecks_pass rfl rfl rfl rfl]; rfl

/-- The hypotheses of the key-on and key-off statements, at envelope (0, 0) and time 1. -/
def KeyingHypotheses (e : Envelope) : Prop :=
  Ready (wState e) 0 true (.rat 1) ∧ ((wState e).env 0 0).lastTime.val ≤ (ExReal.rat 1).val ∧
    (wState e).level 0 0 (.rat 1) = some (.rat 0)

/-- They are met by any parameters of an idle envelope. -/
theorem keying_hypotheses (e : Envelope) (h : e.egKey = .idle) (hl : e.lastTime = .rat 0) : KeyingHypotheses e := by
  refine ⟨wState_ready e, ?_, wState_idle e h⟩
  rw [wState_env, hl]; norm_num

theorem p1_inv : p1.Inv := by constructor <;> simp [p1, Envelope.reset]

theorem witness_KeyOnTakesSnapshot : KeyingHypotheses p1 := keying_hypotheses p1 rfl rfl
theorem witness_AttackEndsAsComputed : KeyingHypotheses p1 := keying_hypotheses p1 rfl rfl
theorem witness_AttackEndsAsComputed_inverted :
    KeyingHypotheses { p1 with ssgEnabled := true, inverted := true } :=
  keying_hypotheses { p1 with ssgEnabled := true, inverted := true } rfl rfl
theorem witness_AttackEndsAsComputed_never :
    KeyingHypotheses { p1 with attackRate := 0 } :=
  keying_hypotheses { p1 with attackRate := 0 } rfl rfl
theorem witness_DecayEndsAsComputed : KeyingHypotheses p1 := keying_hypotheses p1 rfl rfl
theorem witness_DecayEndsAsComputed_never :
    KeyingHypotheses { p1 with decayRate := 0 } :=
  keying_hypotheses { p1 with decayRate := 0 } rfl rfl
theorem witness_DecayEndsAsComputed_empty :
    KeyingHypotheses { p1 with sustainLevel := 1023 } :=
  keying_hypotheses { p1 with sustainLevel := 1023 } rfl rfl
theorem witness_SustainEndsAsComputed :
    KeyingHypotheses { p1 with sustainRate := 1 } :=
  keying_hypotheses { p1 with sustainRate := 1 } rfl rfl
theorem witness_SustainEndsAsComputed_never :
    KeyingHypotheses { p1 with sustainRate := 0 } :=
  keying_hypotheses { p1 with sustainRate := 0 } rfl rfl
theorem witness_SustainEndsAsComputed_empty :
    KeyingHypotheses { p1 with sustainLevel := 0 } :=
  keying_hypotheses { p1 with sustainLevel := 0 } rfl rfl
theorem witness_SilenceIsDetectedAtKeyOn : KeyingHypotheses p1 := keying_hypotheses p1 rfl rfl
theorem witness_KeyOnEmitsItsEvents : KeyingHypotheses p1 := keying_hypotheses p1 rfl rfl
theorem witness_KeyOnEmitsItsEvents_ssg :
    KeyingHypotheses { p1 with ssgEnabled := true } :=
  keying_hypotheses { p1 with ssgEnabled := true } rfl rfl
theorem witness_KeyOffStartsRelease : KeyingHypotheses p1 := keying_hypotheses p1 rfl rfl
theorem witness_SoundOffSilences : KeyingHypotheses p1 := keying_hypotheses p1 rfl rfl
theorem witness_OperatorKeysUseStoredKeyCode : KeyingHypotheses p1 := keying_hypotheses p1 rfl rfl
theorem witness_LevelAtKeyOnAndKeyOff :
    (wState p1).Inv ∧ KeyingHypotheses p1 :=
  ⟨wState_inv p1 p1_inv, keying_hypotheses p1 rfl rfl⟩

/-- A key-off of an idle envelope at 1 names the time 1 in its STOP. -/
theorem witness_LevelIsZeroFromStop :
    (wState p1).Inv ∧ Ready (wState p1) 0 true (.rat 1) ∧
      ∃ s', exec (.egKeyoff 0 0 true 1 0) (wState p1) = .next s' ∧ (s'.env 0 0).silentAt = .fin (.rat 1) :=
  ⟨wState_inv p1 p1_inv, wState_ready p1, _, next_left (by decide +kernel), by decide +kernel⟩

theorem witness_LevelQueryHasNoSideEffect :
    Ready (wState note) 0 true (.rat 1) ∧ Ready (wState { note with beginAttack := .rat 2 }) 0 true (.rat 1) ∧
      (wState { note with beginAttack := .rat 2 }).level 0 0 (.rat 1) = none ∧
      (wState p1).level 0 0 (.rat 1) = some (.rat 0) := by
  refine ⟨wState_ready _, wState_ready _, ?_, wState_idle _ rfl⟩
  rw [State.level, wState_env]; decide +kernel
theorem witness_AttackAndReleaseBranches :
    note.ReadsNote (.rat 0) ∧ ((ExReal.rat 0).val : EReal) < note.endAttack.val ∧
      (note.soundOff (.rat 5)).egKey = .off ∧ (note.soundOff (.rat 5)).beginRelease.val ≤ (ExReal.rat 5).val := by
  refine ⟨⟨.inl rfl, ?_⟩, ?_, rfl, le_refl _⟩
  · simp [note, Envelope.reset]
  · simp [note]
theorem witness_PostAttackBranches :
    note.ReadsNote (.rat 1) ∧ note.endAttack = .fin (.rat 1) ∧ (ExReal.rat 1).val ≤ (ExReal.rat 1).val ∧
      ssgNote.ReadsNote (.rat 4) ∧ ssgNote.endSustain = .fin (.rat 3) := by
  refine ⟨⟨.inl rfl, ?_⟩, rfl, le_refl _, ⟨.inl rfl, ?_⟩, rfl⟩ <;> simp [ssgNote, note, Envelope.reset]
theorem witness_LevelStaysInBounds :
    (wState note).Inv ∧ (wState note).level 0 0 (.rat 5) = some (.rat 0) := by
  refine ⟨wState_inv note note_inv, ?_⟩
  rw [State.level, wState_env, Envelope.level]; decide +kernel
theorem witness_LevelIsDefinedInTimeOrder :
    (wState note).Inv ∧ ((wState note).env 0 0).lastTime.val ≤ (ExReal.rat 0).val :=
  ⟨wState_inv note note_inv, by rw [wState_env]; exact le_refl _⟩

/-- A time is read from the note, so its level is defined. -/
theorem level_of_note (e : Envelope) (h : e.egKey = .on) (hb : e.beginAttack = .rat 0) (q : Rat) (hq : 0 ≤ q) :
    ∃ x, (wState e).level 0 0 (.rat q) = some x := by
  refine ⟨e.noteLevel Config.cfg (.rat q), ?_⟩
  rw [State.level, wState_env, Envelope.level, h]
  simp [Envelope.keyedLevel, hb, hq]

theorem witness_LevelIsMonotone :
    (wState ssgNote).Inv ∧ ssgNote.egKey = .on ∧ ssgNote.endAttack.val ≤ ((ExReal.rat 1).val : EReal) ∧
      ((ExReal.rat (3 / 2)).val : EReal) < ssgNote.endSustain.val ∧
      (∃ x, (wState ssgNote).level 0 0 (.rat 1) = some x) ∧ ∃ y, (wState ssgNote).level 0 0 (.rat (3 / 2)) = some y := by
  refine ⟨wState_inv _ ssgNote_inv, rfl, ?_, ?_, level_of_note _ rfl rfl _ (by norm_num), level_of_note _ rfl rfl _ (by norm_num)⟩
  · simp [ssgNote, note]
  · simp only [ssgNote, note, ETime.val_fin, EReal.coe_lt_coe_iff]; norm_num
theorem witness_LevelIsMonotone_plain :
    (wState note).Inv ∧ note.egKey = .on ∧ note.snapSSG = false ∧
      ((ExReal.rat (1 / 2)).val : EReal) < note.endAttack.val ∧
      ∃ x, (wState note).level 0 0 (.rat (1 / 2)) = some x := by
  refine ⟨wState_inv _ note_inv, rfl, rfl, ?_, level_of_note _ rfl rfl _ (by norm_num)⟩
  simp only [note, ETime.val_fin, EReal.coe_lt_coe_iff]; norm_num
theorem witness_LoopingLevelIsPeriodic :
    (wState ssgNote).Inv ∧ ssgNote.snapSSG = true ∧ ssgNote.snapLoop = true ∧ ssgNote.endAttack = .fin (.rat 1) ∧
      ssgNote.endSustain = .fin (.rat 3) ∧ (ExReal.rat 1).val ≤ (ExReal.rat 2).val ∧
      (ExReal.rat 6).val = (ExReal.rat 2).val + 2 * ((ExReal.rat 3).val - (ExReal.rat 1).val) ∧
      (∃ x, (wState ssgNote).level 0 0 (.rat 2) = some x) ∧ ∃ y, (wState ssgNote).level 0 0 (.rat 6) = some y := by
  refine ⟨wState_inv _ ssgNote_inv, rfl, rfl, rfl, rfl, by norm_num, by norm_num, level_of_note _ rfl rfl _ (by norm_num),
    level_of_note _ rfl rfl _ (by norm_num)⟩
theorem witness_PhasesComeInOrder :
    note.egKey = .on ∧ note.snapSSG = false ∧ note.beginAttack.val ≤ (ExReal.rat 0).val := ⟨rfl, rfl, le_refl _⟩
/-- Each interval of rule R140, at its first time. -/
theorem witness_PhasesComeInOrder_intervals :
    note.Inv ∧ Envelope.reset.phase (.rat 0) = some .idle ∧
      note.ReadsNote (.rat 0) ∧ note.phase (.rat 0) = some .attack ∧ note.phase (.rat 1) = some .decay ∧
      note.phase (.rat 2) = some .sustain ∧ note.phase (.rat 3) = some .ended := by
  refine ⟨note_inv, by decide +kernel, ⟨.inl rfl, le_refl _⟩, ?_, ?_, ?_, ?_⟩ <;> decide +kernel
theorem witness_PhasesComeInOrder_ssg :
    ssgNote.Inv ∧ ssgNote.ReadsNote (.rat 3) ∧ ssgNote.endAttack = .fin (.rat 1) ∧ ssgNote.endSustain = .fin (.rat 3) ∧
      ssgNote.phase (.rat 1) = some (.cycle 0) ∧ ssgNote.phase (.rat 3) = some (.cycle 1) ∧
      { ssgNote with snapLoop := false }.phase (.rat 3) = some .hold ∧
      { ssgNote with endSustain := .inf }.phase (.rat 9) = some (.cycle 0) := by
  refine ⟨ssgNote_inv, ⟨.inl rfl, ?_⟩, rfl, rfl, ?_, ?_, ?_, ?_⟩
  · simp [ssgNote, note, Envelope.reset]
  all_goals decide +kernel
theorem witness_PhasesComeInOrder_release :
    let e := { note with egKey := .off, beginRelease := .rat 2, endRelease := .fin (.rat 4), lastTime := .rat 2 }
    e.Inv ∧ e.phase (.rat 1) = some .decay ∧ e.phase (.rat 2) = some .release ∧ e.phase (.rat 4) = some .silent := by
  refine ⟨?_, by decide +kernel, by decide +kernel, by decide +kernel⟩
  constructor <;> simp [note, Envelope.reset] <;> norm_cast
theorem witness_LifeIsComputed :
    ((wState note).putOpr 0 0 { Operator.reset with enabled := true }).life 0 0 (.rat 1) = .keyedOn := by decide +kernel
theorem witness_FrequencyArithmetic : 1 ≤ (1#3).toNat ∧ componentsToFullFreq 1 1 = 1 := by decide
theorem witness_FullFrequencyTakesLeastBlock :
    (0 : ℝ) ≤ (ExReal.rat 131040).val ∧ (131040 : ℝ) ≤ (ExReal.rat 131040).val ∧ (ExReal.rat 131039).val < 131040 := by
  norm_num
theorem witness_FullFrequencyRoundTrip :
    (1 ≤ (1#3).toNat ∧ 1024 ≤ (1024#11).toNat) ∧ (1 ≤ (7#3).toNat ∧ (1#11).toNat < 1024) := by decide
theorem witness_SetFreqSchedulesFrequency :
    Ready (wState p1) 0 true (.rat 1) ∧ (wState p1).ports.ratio = some PosRat.one ∧
      ((wState p1).opr 0 0).freqLastTime.val ≤ (ExReal.rat 1).val := by
  refine ⟨wState_ready p1, rfl, ?_⟩
  show ((State.reset.putEnv 0 0 p1).opr 0 0).freqLastTime.val ≤ _
  rw [opr_putEnv, opr_reset]; norm_num [Operator.reset]
theorem witness_SetDtStoresDetune : Config.cfg.hasChannel 0 = true ∧ (State.reset.chan 0).stopped = false := ⟨rfl, rfl⟩
theorem witness_SlotFunction : ∃ i, slot 2 4 = some i := ⟨6, by decide⟩

/-- The hypotheses of the routing statements. -/
def RoutingHypotheses : Prop :=
  Ready (wState p1) 0 true (.rat 1) ∧ ((wState p1).chan 0).routeLastTime.val ≤ (ExReal.rat 1).val

theorem routing_hypotheses : RoutingHypotheses := by
  refine ⟨wState_ready p1, ?_⟩
  show ((State.reset.putEnv 0 0 p1).chan 0).routeLastTime.val ≤ _
  rw [chan_putEnv]; norm_num [Channel.reset]
theorem witness_UseAlgWritesFourOperatorTable : RoutingHypotheses ∧ (7#4).toNat < 8 := ⟨routing_hypotheses, by decide⟩
theorem witness_UseAlgWritesTwoOperatorTable : RoutingHypotheses ∧ (1#4).toNat < 2 := ⟨routing_hypotheses, by decide⟩
theorem witness_SetFbWritesFeedbackSlot : RoutingHypotheses := routing_hypotheses
theorem witness_SetPanWritesPan : RoutingHypotheses ∧ 0x81#8 ≠ 0x80#8 := ⟨routing_hypotheses, by decide⟩
theorem witness_LifecycleBitIsSetAndCleared : KeyingHypotheses p1 := keying_hypotheses p1 rfl rfl

/-- One operator of four enabled, its time in order and its level defined. -/
def ChannelHypotheses : Prop :=
  let s := (wState p1).setEnabled 0 0 true
  Ready s 0 true (.rat 1) ∧ (s.opr 0 0).enabled = true ∧ (s.opr 0 1).enabled = false ∧
    ∀ o, (s.opr 0 o).enabled = true →
      (s.env 0 o).lastTime.val ≤ (ExReal.rat 1).val ∧ (s.level 0 o (.rat 1)).isSome = true

theorem channel_hypotheses : ChannelHypotheses := by
  refine ⟨⟨rfl, (commandTime_true_iff _ _).mpr ⟨rfl, by norm_num⟩, by decide +kernel⟩, by decide +kernel,
    by decide +kernel, fun o ho => ?_⟩
  have h0 : o = 0 := by
    revert ho; revert o; decide +kernel
  subst h0
  have he : ((wState p1).setEnabled 0 0 true).env 0 0 = p1 := by
    unfold State.setEnabled; rw [env_putOpr, wState_env]
  refine ⟨by rw [he]; norm_num [p1, Envelope.reset], ?_⟩
  rw [State.level, he]; rfl
theorem witness_ChannelKeyOnKeysEnabledOperators : ChannelHypotheses := channel_hypotheses
theorem witness_ChannelKeyOffReleasesEnabledOperators : ChannelHypotheses := channel_hypotheses
theorem witness_ChannelKey_undefined :
    let s := (wState { p1 with lastTime := .rat 2 }).setEnabled 0 0 true
    (s.opr 0 0).enabled = true ∧ ExReal.lt (.rat 1) (s.env 0 0).lastTime = true := by decide +kernel
theorem witness_ChannelSoundOffSilencesAllOperators :
    Ready (wState p1) 0 true (.rat 1) ∧ ∀ o, ((wState p1).env 0 o).lastTime.val ≤ (ExReal.rat 1).val := by
  refine ⟨wState_ready p1, fun o => ?_⟩
  show ((State.reset.putEnv 0 0 p1).env 0 o).lastTime.val ≤ _
  rw [env_putEnv]; split <;> norm_num [p1, Envelope.reset]
theorem witness_ChannelStopTearsDown : Ready (wState p1) 0 true (.rat 1) := wState_ready p1
theorem witness_CommandWritesOnlyItsChannel :
    exec (.chStop 0 true) (wState p1) = .next (left (exec (.chStop 0 true) (wState p1))) :=
  next_left (by decide +kernel)
theorem witness_CommandReadsOnlyItsChannel :
    let u := (wState p1).putEnv 1 0 note
    (wState p1).chan 0 = u.chan 0 ∧ (wState p1).freeCount 0 = u.freeCount 0 ∧ (wState p1).ports = u.ports ∧
      refusal (exec (.egSoundoff 0 0 true) (wState p1)) = none := by
  refine ⟨?_, rfl, rfl, by decide +kernel⟩
  rw [chan_putEnv, if_neg (by decide)]
/-- (Channel 1 exists or not; where not, its command answers ILLEGAL, and goes on too.) -/
theorem witness_DifferentChannelsCommute :
    (Instr.egSoundoff 0 0 false).chan ≠ (Instr.egSetar 1 0 3).chan ∧
      refusal (exec (.egSoundoff 0 0 false) State.reset) = none ∧ refusal (exec (.egSetar 1 0 3) State.reset) = none := by
  refine ⟨by decide, by decide +kernel, ?_⟩
  simp only [exec, execEgSetar, setEnvelope, withChecks]
  split <;> first | rfl | skip
  next h => rw [commonChecks_stopped] at h; exact absurd h.2.2.2 (by simp [Channel.reset])
theorem witness_RegistersHaveTheirWriters :
    exec (.chDisop 0 0 true) (wState p1) = .next (left (exec (.chDisop 0 0 true) (wState p1))) :=
  next_left (by decide +kernel)
theorem witness_InvariantKeptByStep :
    (wState note).Inv ∧ step (wState note) = .next (wState note) := ⟨wState_inv note note_inv, rfl⟩
theorem witness_EventsComeInTimeOrder :
    (wState p1).Inv ∧ exec (.egKeyoff 0 0 true 1 0) (wState p1) =
      .next (left (exec (.egKeyoff 0 0 true 1 0) (wState p1))) :=
  ⟨wState_inv p1 p1_inv, next_left (by decide +kernel)⟩
theorem witness_SinkReadsTheLevel :
    (wState p1).Inv ∧ Ready (wState p1) 0 true (.rat 1) ∧ (ExReal.rat 1).val ≤ (ExReal.rat 1).val ∧
      exec (.egKeyon 0 0 true 1 0) (wState p1) = .next (left (exec (.egKeyon 0 0 true 1 0) (wState p1))) ∧
      exec (.egSoundoff 0 0 true) (wState p1) = .next (left (exec (.egSoundoff 0 0 true) (wState p1))) := by
  refine ⟨wState_inv p1 p1_inv, wState_ready p1, le_refl _, next_left ?_, next_left (by decide +kernel)⟩
  have h := keying_hypotheses p1 rfl rfl
  rw [exec, execEgKeyon, egKeyon, withChecks_pass h.1.1 rfl h.1.2.1 h.1.2.2, keyOnEnvelope_of 1 0 h.2.1 h.2.2]
  rfl
/-- The parameters of P1 with an inverted SSG mode. -/
def inv1 : Envelope := { p1 with ssgEnabled := true, inverted := true }

/-- The boundary of an inverted SSG note, whose attack ends at the key-on. -/
theorem witness_SinkReadsTheLevel_inverted :
    (wState inv1).Inv ∧ Ready (wState inv1) 0 true (.rat 1) ∧ ((wState inv1).env 0 0).ssgEnabled = true ∧
      ∃ s', exec (.egKeyon 0 0 true 1 0) (wState inv1) = .next s' ∧ (s'.env 0 0).endAttack = .fin (.rat 1) := by
  have h := keying_hypotheses inv1 rfl rfl
  refine ⟨wState_inv _ (by constructor <;> simp [inv1, p1, Envelope.reset]), h.1, by rw [wState_env]; rfl,
    (keyedOn Config.cfg 0 0 1 0 (.rat 1) (.rat 0) (wState inv1)).respond .ok (.rat 0), ?_, ?_⟩
  · rw [exec, execEgKeyon, egKeyon, withChecks_pass h.1.1 rfl h.1.2.1 h.1.2.2, keyOnEnvelope_of 1 0 h.2.1 h.2.2]
    rfl
  · show ((keyedOn Config.cfg 0 0 1 0 (.rat 1) (.rat 0) (wState inv1)).env 0 0).endAttack = _
    rw [keyedOn_env, env_putEnv_same, wState_env]; rfl

end Sys2Proof.Tests
end

section
/-!
LEMMAS. What a step does with each kind of next input: one equation per branch of `step` (rules R17, R70, R80, R91,
R220), and the obligation that these equations settle.
-/

namespace Sys2Proof.Machine

open Sys2Proof

variable {s : State} {rest : List HostInput} {w : Word} {p : Ports}

theorem step_of_no_input (hinputs : s.inputs = []) : step s = .next s := by
  simp only [step, hinputs]

theorem step_of_reset (hinputs : s.inputs = .reset :: rest) : step s = .next (s.resetInput rest) := by
  simp only [step, hinputs]

theorem step_of_decoded {i : Instr} (hinputs : s.inputs = .command w p :: rest) (hdecode : decode w = .ok i) :
    step s = exec i (s.take rest p) := by
  simp only [step, hinputs, hdecode]

theorem step_of_undecodable {e : Illegal} (hinputs : s.inputs = .command w p :: rest)
    (hdecode : decode w = .error e) : step s = illegal (s.take rest p) := by
  simp only [step, hinputs, hdecode]

end Sys2Proof.Machine

namespace Sys2Proof.Proofs

open Sys2Proof Sys2Proof.Machine

/-- Settles O6: the two clauses are the equations of `step` for a word that decodes and for no input. -/
theorem stepRunsDecodedCommand : Obligations.StepRunsDecodedCommand :=
  ⟨fun _ _ _ _ _ hinputs hdecode => step_of_decoded hinputs hdecode, fun _ hinputs => step_of_no_input hinputs⟩

end Sys2Proof.Proofs
end

section
/-!
LEMMAS. What a command can write, said once: of every register group (envelope, operator, control registers of a
channel) the one write the command can make, with the command named (rule R34).
-/

namespace Sys2Proof.Machine

open Sys2Proof

/-- What command `i` can leave of envelope (c, o), which held `e`. -/
inductive EnvelopeWrite (i : Instr) (c : Fin 16) (o : Fin 4) (e : Envelope) : Envelope → Prop
  | same : EnvelopeWrite i c o e e
  | attackRate (r : BitVec 5) (hi : i = .egSetar c o r) : EnvelopeWrite i c o e { e with attackRate := r }
  | decayRate (r : BitVec 5) (hi : i = .egSetdr c o r) : EnvelopeWrite i c o e { e with decayRate := r }
  | sustainLevel (l : BitVec 10) (hi : i = .egSetsl c o l) : EnvelopeWrite i c o e { e with sustainLevel := l }
  | sustainRate (r : BitVec 5) (hi : i = .egSetsr c o r) : EnvelopeWrite i c o e { e with sustainRate := r }
  | releaseRate (r : BitVec 5) (hi : i = .egSetrr c o r) : EnvelopeWrite i c o e { e with releaseRate := r }
  | rateScaling (r : BitVec 2) (hi : i = .egSetrs c o r) : EnvelopeWrite i c o e { e with rateScaling := r }
  | mode (m : BitVec 4) (hi : i = .egSetssg c o m) : EnvelopeWrite i c o e (e.setMode (modeFlags Config.cfg m))
  | keyOn (tag : BitVec 8) (kc : BitVec 5) (t b : ExReal) (hi : i.KeysOn c o) (horder : e.lastTime.val ≤ t.val)
      (hlevel : e.level Config.cfg t = some b) : EnvelopeWrite i c o e (e.keyOn Config.cfg tag kc t b)
  | keyOff (tag : BitVec 8) (kc : BitVec 5) (t l : ExReal) (hi : i.KeysOff c o) (horder : e.lastTime.val ≤ t.val)
      (hlevel : e.level Config.cfg t = some l) : EnvelopeWrite i c o e (e.keyOff Config.cfg tag kc t l)
  | soundOff (t : ExReal) (hi : i.SoundsOff c o) (horder : e.lastTime.val ≤ t.val) :
      EnvelopeWrite i c o e (e.soundOff t)
  | stop (tv : Bool) (t : ExReal) (hi : i = .chStop c tv) :
      EnvelopeWrite i c o e { e with silentAt := ETime.min e.silentAt (.fin t) }

/-- What command `i` can leave of operator (c, o), which held `q`. -/
inductive OperatorWrite (i : Instr) (c : Fin 16) (o : Fin 4) (q : Operator) : Operator → Prop
  | same : OperatorWrite i c o q q
  | frequency (tv : Bool) (m : Method) (block : BitVec 3) (fn : BitVec 11) (mult : PosRat) (t : ExReal)
      (hi : i = .opSetfreq c o tv m block fn) : OperatorWrite i c o q (q.setFreq Config.cfg block fn mult t)
  | detune (sign : Bool) (mag : BitVec 2) (hi : i = .opSetdt c o sign mag) :
      OperatorWrite i c o q { q with detune := detuneOperand sign mag }
  | enabled (b : Bool) (hi : i = .chEnop c o ∨ ∃ tv, i = .chDisop c o tv) :
      OperatorWrite i c o q { q with enabled := b }

/-- What command `i` can leave of the control registers of channel c, which held those of `ch`. -/
inductive ControlWrite (i : Instr) (c : Fin 16) (ch : Channel) : Channel → Prop
  | same : ControlWrite i c ch ch
  | useAlg4 (tv : Bool) (n : BitVec 4) (a : Alg4) (t : ExReal) (hi : i = .chUsealg c tv .four n)
      (hn : n.toNat < nAlg4) : ControlWrite i c ch (ch.useAlg4 n a t)
  | useAlg2 (tv : Bool) (view : View) (v : Fin 2) (n : BitVec 4) (a : Alg2) (t : ExReal)
      (hi : i = .chUsealg c tv view n) : ControlWrite i c ch (ch.useAlg2 v n a t)
  | feedback (o : Fin 4) (tv : Bool) (m : Method) (amount : BitVec 3) (k : Fin 2) (t : ExReal)
      (hi : i = .chSetfb c o tv m amount) :
      ControlWrite i c ch (ch.setFeedback k amount (Config.cfg.data.feedbackDepth amount) t)
  | pan (tv : Bool) (m : Method) (p : BitVec 8) (t : ExReal) (hi : i = .chSetpan c tv m p) (hp : p ≠ 0x80#8) :
      ControlWrite i c ch { ch with pan := p, routeLastTime := t }
  | stop (tv : Bool) (hi : i = .chStop c tv) : ControlWrite i c ch { ch with stopped := true }

/-- What command `i` can leave of channel c: each of its envelopes and operators and its control registers written
at most once, and nothing where the channel does not exist. -/
structure ChannelWrite (i : Instr) (c : Fin 16) (ch ch' : Channel) : Prop where
  envelopes : ∀ o : Fin 4, EnvelopeWrite i c o ch.envs[o.val] ch'.envs[o.val]
  operators : ∀ o : Fin 4, OperatorWrite i c o ch.oprs[o.val] ch'.oprs[o.val]
  control : ∃ ch₀, ControlWrite i c ch ch₀ ∧ Channel.sameControl ch₀ ch'
  absent : Config.cfg.hasChannel c = false → ch' = ch

/-- Every register of `s'` is as in `s` or as one write of `i` leaves it. -/
def Writes (i : Instr) (s s' : State) : Prop := ∀ c, ChannelWrite i c (s.chan c) (s'.chan c)

theorem Channel.sameControl_refl (ch : Channel) : Channel.sameControl ch ch :=
  ⟨rfl, rfl, rfl, rfl, rfl, rfl, rfl, rfl⟩

theorem ChannelWrite.refl (i : Instr) (c : Fin 16) (ch : Channel) : ChannelWrite i c ch ch :=
  ⟨fun _ => .same, fun _ => .same, ⟨ch, .same, ch.sameControl_refl⟩, fun _ => rfl⟩

theorem Writes.refl (i : Instr) (s : State) : Writes i s s := fun _ => .refl ..

/-! ### The writes of one channel -/

section

variable {i : Instr} {c : Fin 16} {o : Fin 4} {ch ch' : Channel} {s s' : State}

/-- A vector with one element replaced: that element is written as `R` says, and every other is as it was. -/
theorem getElem_set_of_refl {α : Type} {R : Fin 4 → α → α → Prop} {v : Vector α 4} {x : α}
    (hrefl : ∀ o' y, R o' y y) (h : R o v[o.val] x) (o' : Fin 4) : R o' v[o'.val] (v.set o.val x)[o'.val] := by
  by_cases ho : o = o'
  · subst ho; simpa using h
  · have hne : o.val ≠ o'.val := fun hv => ho (Fin.ext hv)
    rw [Vector.getElem_set_ne _ _ hne]
    exact hrefl ..

theorem ChannelWrite.of_envelopes {envs : Vector Envelope 4} (hc : Config.cfg.hasChannel c = true)
    (h : ∀ o : Fin 4, EnvelopeWrite i c o ch.envs[o.val] envs[o.val]) :
    ChannelWrite i c ch { ch with envs := envs } where
  envelopes := h
  operators _ := .same
  control := ⟨ch, .same, ch.sameControl_refl⟩
  absent hn := absurd hc (by simp [hn])

theorem ChannelWrite.of_operator {q : Operator} (hc : Config.cfg.hasChannel c = true)
    (h : OperatorWrite i c o ch.oprs[o.val] q) : ChannelWrite i c ch { ch with oprs := ch.oprs.set o.val q } where
  envelopes _ := .same
  operators := getElem_set_of_refl (fun _ _ => .same) h
  control := ⟨ch, .same, ch.sameControl_refl⟩
  absent hn := absurd hc (by simp [hn])

theorem ChannelWrite.of_control (hc : Config.cfg.hasChannel c = true) (henvs : ch'.envs = ch.envs)
    (hoprs : ch'.oprs = ch.oprs) (h : ControlWrite i c ch ch') : ChannelWrite i c ch ch' where
  envelopes _ := henvs ▸ .same
  operators _ := hoprs ▸ .same
  control := ⟨ch', h, ch'.sameControl_refl⟩
  absent hn := absurd hc (by simp [hn])

/-- A state with channel c written as its command may, and every other channel as it was. -/
theorem writes_of_chan (h : ChannelWrite i c (s.chan c) ch) (hchan : ∀ c', s'.chan c' = (s.putChan c ch).chan c') :
    Writes i s s' := by
  intro c'
  rw [hchan, chan_putChan]
  split
  · next hc => subst hc; exact h
  · exact .refl ..

theorem writes_putChan (h : ChannelWrite i c (s.chan c) ch) : Writes i s (s.putChan c ch) :=
  writes_of_chan h fun _ => rfl

theorem writes_putEnv {e : Envelope} (hc : Config.cfg.hasChannel c = true) (h : EnvelopeWrite i c o (s.env c o) e) :
    Writes i s (s.putEnv c o e) :=
  writes_putChan (.of_envelopes hc (getElem_set_of_refl (fun _ _ => .same) h))

theorem writes_putOpr {q : Operator} (hc : Config.cfg.hasChannel c = true) (h : OperatorWrite i c o (s.opr c o) q) :
    Writes i s (s.putOpr c o q) :=
  writes_putChan (.of_operator hc h)

end

/-! ### One write of each envelope of a channel -/

/-- Envelope (c, o) is written as `R` says, and no other register is. -/
def WritesEnvelope (R : Envelope → Envelope → Prop) (c : Fin 16) (o : Fin 4) (s s' : State) : Prop :=
  ∃ e, R (s.env c o) e ∧ ∀ c', s'.chan c' = (s.putEnv c o e).chan c'

/-- The envelopes of channel c are each written as `R` says, and no other register is. -/
def WritesEnvelopes (R : Fin 4 → Envelope → Envelope → Prop) (c : Fin 16) (s s' : State) : Prop :=
  ∃ envs : Vector Envelope 4, (∀ o : Fin 4, R o (s.env c o) envs[o.val]) ∧
    ∀ c', s'.chan c' = (s.putChan c { s.chan c with envs := envs }).chan c'

section

variable {i : Instr} {c : Fin 16} {R : Fin 4 → Envelope → Envelope → Prop} {s s' : State}

theorem writesEnvelopes_of_four {s1 s2 s3 : State} (h0 : WritesEnvelope (R 0) c 0 s s1)
    (h1 : WritesEnvelope (R 1) c 1 s1 s2) (h2 : WritesEnvelope (R 2) c 2 s2 s3)
    (h3 : WritesEnvelope (R 3) c 3 s3 s') : WritesEnvelopes R c s s' := by
  obtain ⟨e0, hr0, hc0⟩ := h0
  obtain ⟨e1, hr1, hc1⟩ := h1
  obtain ⟨e2, hr2, hc2⟩ := h2
  obtain ⟨e3, hr3, hc3⟩ := h3
  simp only [State.env, hc0, hc1, hc2, chan_putEnv] at hr1 hr2 hr3
  refine ⟨#v[e0, e1, e2, e3], fun o => ?_, fun c' => ?_⟩
  · fin_cases o
    · exact hr0
    · simpa [State.env] using hr1
    · simpa [State.env] using hr2
    · simpa [State.env] using hr3
  · by_cases h : c' = c
    · subst h
      have hset : ((((s.chan c').envs.set 0 e0).set 1 e1).set 2 e2).set 3 e3 = #v[e0, e1, e2, e3] := by
        ext j hj
        interval_cases j <;> simp
      simp [hc3, hc2, hc1, hc0, chan_putEnv, hset]
    · simp [hc3, hc2, hc1, hc0, chan_putEnv, h]

theorem writes_envelopes (hc : Config.cfg.hasChannel c = true)
    (h : WritesEnvelopes (EnvelopeWrite i c) c s s') : Writes i s s' := by
  obtain ⟨envs, hw, hchan⟩ := h
  exact writes_of_chan (.of_envelopes hc hw) hchan

end

/-! ### The keying operations and the common checks -/

section

variable {i : Instr} {c : Fin 16} {o : Fin 4} {tag : BitVec 8} {kc : BitVec 5} {t : ExReal} {tv form : Bool}
  {s s' : State}

theorem keyOnEnvelope_writes (hi : i.KeysOn c o) (h : keyOnEnvelope Config.cfg c o tag kc t s = .ok s') :
    WritesEnvelope (EnvelopeWrite i c o) c o s s' := by
  obtain ⟨b, horder, hlevel, rfl⟩ := keyOnEnvelope_ok h
  exact ⟨_, .keyOn tag kc t b hi horder hlevel, fun _ => keyedOn_chan ..⟩

theorem keyOffEnvelope_writes (hi : i.KeysOff c o) (h : keyOffEnvelope Config.cfg c o tag kc t s = .ok s') :
    WritesEnvelope (EnvelopeWrite i c o) c o s s' := by
  obtain ⟨l, horder, hlevel, rfl⟩ := keyOffEnvelope_ok h
  exact ⟨_, .keyOff tag kc t l hi horder hlevel, fun _ => emit_chan ..⟩

theorem soundOffEnvelope_writes (hi : i.SoundsOff c o) (h : soundOffEnvelope c o t s = .ok s') :
    WritesEnvelope (EnvelopeWrite i c o) c o s s' := by
  obtain ⟨horder, rfl⟩ := soundOffEnvelope_ok h
  exact ⟨_, .soundOff t hi horder, fun _ => emit_chan ..⟩

theorem stopOperator_writes (hi : i = .chStop c tv) :
    WritesEnvelope (EnvelopeWrite i c o) c o s (stopOperator c t o s) :=
  ⟨_, .stop tv t hi, fun _ => emit_chan ..⟩

/-- An operation that leaves envelope (c, o) alone writes it as it was. -/
theorem writesEnvelope_refl : WritesEnvelope (EnvelopeWrite i c o) c o s s := by
  refine ⟨s.env c o, .same, fun c' => ?_⟩
  rw [chan_putEnv]
  split
  · next hc => subst hc; simp [State.env]
  · rfl

theorem writes_envelope (hc : Config.cfg.hasChannel c = true) (h : WritesEnvelope (EnvelopeWrite i c o) c o s s') :
    Writes i s s' := by
  obtain ⟨e, hw, hchan⟩ := h
  exact writes_of_chan (.of_envelopes hc (getElem_set_of_refl (fun _ _ => .same) hw)) hchan

theorem keyOnIfEnabled_writes (hi : i.KeysOn c o) (h : keyOnIfEnabled Config.cfg c tag t o s = .ok s') :
    WritesEnvelope (EnvelopeWrite i c o) c o s s' := by
  unfold keyOnIfEnabled at h
  split at h
  · exact keyOnEnvelope_writes hi h
  · cases h; exact writesEnvelope_refl

theorem keyOffIfEnabled_writes (hi : i.KeysOff c o) (h : keyOffIfEnabled Config.cfg c tag t o s = .ok s') :
    WritesEnvelope (EnvelopeWrite i c o) c o s s' := by
  unfold keyOffIfEnabled at h
  split at h
  · exact keyOffEnvelope_writes hi h
  · cases h; exact writesEnvelope_refl

/-- The composite loop over an operation of one envelope writes each envelope of the channel once. -/
theorem forOperators_writes {f : Fin 4 → State → Except Refusal State}
    (hf : ∀ o u u', f o u = .ok u' → WritesEnvelope (EnvelopeWrite i c o) c o u u')
    (h : forOperators f s = .ok s') : WritesEnvelopes (EnvelopeWrite i c) c s s' := by
  obtain ⟨s1, s2, s3, h0, h1, h2, h3⟩ := forOperators_ok h
  exact writesEnvelopes_of_four (hf _ _ _ h0) (hf _ _ _ h1) (hf _ _ _ h2) (hf _ _ _ h3)

/-- A command behind the common checks writes what its body writes: ILLEGAL writes nothing. -/
theorem writes_withChecks {body : ExReal → Result} (h : withChecks Config.cfg c tv form s body = .next s')
    (hbody : ∀ t, Config.cfg.hasChannel c = true → form = true → body t = .next s' → Writes i s s') :
    Writes i s s' := by
  obtain rfl | ⟨t, hc, hform, -, -, hnext⟩ := withChecks_next h
  · exact .refl i s
  · exact hbody t hc hform hnext

theorem writes_setEnvelope (f : Envelope → Envelope) (h : setEnvelope Config.cfg c o f s = .next s')
    (hw : EnvelopeWrite i c o (s.env c o) (f (s.env c o))) : Writes i s s' :=
  writes_withChecks h fun _ hc _ hnext => by
    cases hnext
    exact writes_putEnv hc hw

theorem writes_routed {ch : Channel} {evs : List Event} (hc : Config.cfg.hasChannel c = true)
    (h : routed s c t ch evs = .next s') (henvs : ch.envs = (s.chan c).envs) (hoprs : ch.oprs = (s.chan c).oprs)
    (hw : ControlWrite i c (s.chan c) ch) : Writes i s s' := by
  obtain ⟨-, rfl⟩ := routed_next h
  exact writes_putChan (.of_control hc henvs hoprs hw)

theorem writes_finish_envelope {r : Except Refusal State} (hc : Config.cfg.hasChannel c = true)
    (h : finish r = .next s') (hr : ∀ u, r = .ok u → WritesEnvelope (EnvelopeWrite i c o) c o s u) :
    Writes i s s' := by
  obtain ⟨u, hu, rfl⟩ := finish_next h
  exact writes_envelope hc (hr u hu)

theorem writes_finish_forOperators {f : Fin 4 → State → Except Refusal State}
    (hc : Config.cfg.hasChannel c = true) (h : finish (forOperators f s) = .next s')
    (hf : ∀ o u u', f o u = .ok u' → WritesEnvelope (EnvelopeWrite i c o) c o u u') : Writes i s s' := by
  obtain ⟨u, hu, rfl⟩ := finish_next h
  exact (writes_envelopes hc (forOperators_writes hf hu) : Writes i s u)

end

/-! ### The commands that write more than one register group, or choose between groups -/

section

variable {c : Fin 16} {o : Fin 4} {tv : Bool} {s s' : State}

theorem egKeyon_writes {i : Instr} {tag : BitVec 8} {kc : BitVec 5} (hi : i.KeysOn c o)
    (h : egKeyon Config.cfg c o tv tag kc s = .next s') : Writes i s s' :=
  writes_withChecks h fun _ hc _ hnext => writes_finish_envelope hc hnext fun _ => keyOnEnvelope_writes hi

theorem egKeyoff_writes {i : Instr} {tag : BitVec 8} {kc : BitVec 5} (hi : i.KeysOff c o)
    (h : egKeyoff Config.cfg c o tv tag kc s = .next s') : Writes i s s' :=
  writes_withChecks h fun _ hc _ hnext => writes_finish_envelope hc hnext fun _ => keyOffEnvelope_writes hi

theorem execEgLevel_writes {i : Instr} (h : execEgLevel c o tv s = .next s') : Writes i s s' :=
  writes_withChecks h fun t _ _ hnext => by
    cases hlevel : (s.env c o).level Config.cfg t with
    | none => simp [hlevel] at hnext
    | some v =>
      simp only [hlevel] at hnext
      cases hnext
      exact .refl i s

theorem execOpSetfreq_writes {m : Method} {block : BitVec 3} {fn : BitVec 11}
    (h : execOpSetfreq c o tv m block fn s = .next s') : Writes (.opSetfreq c o tv m block fn) s s' :=
  writes_withChecks h fun t hc _ hnext => by
    cases hratio : s.ports.ratio with
    | none =>
      simp only [hratio] at hnext
      cases hnext
      exact .refl _ s
    | some mult =>
      simp only [hratio] at hnext
      split at hnext
      · cases hnext
        exact writes_putOpr hc (.frequency tv m block fn mult t rfl)
      · cases hnext

theorem execChUsealg_writes {view : View} {n : BitVec 4} (h : execChUsealg c tv view n s = .next s') :
    Writes (.chUsealg c tv view n) s s' :=
  writes_withChecks h fun t hc hform hnext => by
    cases view with
    | four => exact writes_routed hc hnext rfl rfl (.useAlg4 tv n _ t rfl (of_decide_eq_true hform))
    | two0 => exact writes_routed hc hnext rfl rfl (.useAlg2 tv .two0 0 n _ t rfl)
    | two1 => exact writes_routed hc hnext rfl rfl (.useAlg2 tv .two1 1 n _ t rfl)

theorem execChSetfb_writes {m : Method} {amount : BitVec 3} (h : execChSetfb c o tv m amount s = .next s') :
    Writes (.chSetfb c o tv m amount) s s' :=
  writes_withChecks h fun t hc _ hnext => by
    cases hslot : feedbackSlot o with
    | none => simp [hslot] at hnext
    | some k =>
      simp only [hslot] at hnext
      exact writes_routed hc hnext rfl rfl (.feedback o tv m amount k t rfl)

theorem execChSetpan_writes {m : Method} {p : BitVec 8} (h : execChSetpan c tv m p s = .next s') :
    Writes (.chSetpan c tv m p) s s' :=
  writes_withChecks h fun t hc hform hnext =>
    writes_routed hc hnext rfl rfl (.pan tv m p t rfl (bne_iff_ne.mp hform))

/-- CH.DISOP writes the envelope of its operator and the operator's lifecycle bit. -/
theorem execChDisop_writes (h : execChDisop c o tv s = .next s') : Writes (.chDisop c o tv) s s' :=
  writes_withChecks h fun t hc _ hnext => by
    obtain ⟨u, hu, rfl⟩ := finish_next hnext
    obtain ⟨v, hoff, rfl⟩ : ∃ v, soundOffEnvelope c o t s = .ok v ∧ u = v.setEnabled c o false := by
      cases hoff : soundOffEnvelope c o t s with
      | error r => simp [hoff, Except.map] at hu
      | ok v => simpa [hoff, Except.map, eq_comm] using hu
    obtain ⟨horder, rfl⟩ := soundOffEnvelope_ok hoff
    have hwrite : ChannelWrite (.chDisop c o tv) c (s.chan c)
        { s.chan c with
          envs := (s.chan c).envs.set o.val ((s.env c o).soundOff t)
          oprs := (s.chan c).oprs.set o.val { s.opr c o with enabled := false } } :=
      { envelopes := getElem_set_of_refl (fun _ _ => .same) (.soundOff t (.inr (.inl ⟨tv, rfl⟩)) horder)
        operators := getElem_set_of_refl (fun _ _ => .same) (.enabled false (.inr ⟨tv, rfl⟩))
        control := ⟨s.chan c, .same, Channel.sameControl_refl _⟩
        absent := fun hn => absurd hc (by simp [hn]) }
    refine writes_of_chan hwrite fun c' => ?_
    by_cases h : c' = c
    · subst h
      simp [State.setEnabled, chan_putOpr, chan_putEnv]
    · simp [State.setEnabled, chan_putOpr, chan_putEnv, h]

/-- CH.STOP writes every envelope of the channel and its bit `stopped`. -/
theorem execChStop_writes (h : execChStop c tv s = .next s') : Writes (.chStop c tv) s s' :=
  writes_withChecks h fun t hc _ hnext => by
    cases hnext
    obtain ⟨envs, hw, hchan⟩ : WritesEnvelopes (EnvelopeWrite (.chStop c tv) c) c s
        (stopOperator c t 3 (stopOperator c t 2 (stopOperator c t 1 (stopOperator c t 0 s)))) :=
      writesEnvelopes_of_four (stopOperator_writes rfl) (stopOperator_writes rfl) (stopOperator_writes rfl)
        (stopOperator_writes rfl)
    have hwrite : ChannelWrite (.chStop c tv) c (s.chan c) { s.chan c with envs := envs, stopped := true } :=
      { envelopes := hw
        operators := fun _ => .same
        control := ⟨_, .stop tv rfl, Channel.sameControl_refl _⟩
        absent := fun hn => absurd hc (by simp [hn]) }
    refine writes_of_chan hwrite fun c' => ?_
    by_cases h : c' = c
    · subst h
      simp [hchan]
    · simp [hchan, h]

end

/-- What a command that has a next state writes (rules R21 to R34): of each register group at most one write, which
the command is named for. -/
theorem exec_writes {i : Instr} {s s' : State} (h : exec i s = .next s') : Writes i s s' := by
  cases i with
  | egSetar c o rate => exact writes_setEnvelope (fun e => { e with attackRate := rate }) h (.attackRate rate rfl)
  | egSetdr c o rate => exact writes_setEnvelope (fun e => { e with decayRate := rate }) h (.decayRate rate rfl)
  | egSetsl c o level => exact writes_setEnvelope (fun e => { e with sustainLevel := level }) h (.sustainLevel level rfl)
  | egSetsr c o rate => exact writes_setEnvelope (fun e => { e with sustainRate := rate }) h (.sustainRate rate rfl)
  | egSetrr c o rate => exact writes_setEnvelope (fun e => { e with releaseRate := rate }) h (.releaseRate rate rfl)
  | egSetrs c o scaling => exact writes_setEnvelope (fun e => { e with rateScaling := scaling }) h (.rateScaling scaling rfl)
  | egSetssg c o mode => exact writes_setEnvelope (·.setMode (modeFlags Config.cfg mode)) h (.mode mode rfl)
  | egKeyon c o tv tag kc => exact egKeyon_writes (.inl ⟨tv, tag, kc, rfl⟩) h
  | egKeyoff c o tv tag kc => exact egKeyoff_writes (.inl ⟨tv, tag, kc, rfl⟩) h
  | egSoundoff c o tv =>
    exact writes_withChecks h fun _ hc _ hnext =>
      writes_finish_envelope hc hnext fun _ => soundOffEnvelope_writes (.inl ⟨tv, rfl⟩)
  | egLevel c o tv => exact execEgLevel_writes h
  | opSetfreq c o tv m block fn => exact execOpSetfreq_writes h
  | opSetdt c o sign mag =>
    exact writes_withChecks h fun _ hc _ hnext => by
      cases hnext
      exact writes_putOpr hc (.detune sign mag rfl)
  | opKeyon c o tv tag => exact egKeyon_writes (.inr (.inl ⟨tv, tag, rfl⟩)) h
  | opKeyoff c o tv tag => exact egKeyoff_writes (.inr (.inl ⟨tv, tag, rfl⟩)) h
  | chUsealg c tv view n => exact execChUsealg_writes h
  | chSetfb c o tv m amount => exact execChSetfb_writes h
  | chSetpan c tv m p => exact execChSetpan_writes h
  | chEnop c o =>
    exact writes_withChecks h fun _ hc _ hnext => by
      cases hnext
      exact writes_putOpr hc (.enabled true (.inl rfl))
  | chDisop c o tv => exact execChDisop_writes h
  | chKeyon c tv tag =>
    exact writes_withChecks h fun _ hc _ hnext =>
      writes_finish_forOperators hc hnext fun _ _ _ => keyOnIfEnabled_writes (.inr (.inr ⟨tv, tag, rfl⟩))
  | chKeyoff c tv tag =>
    exact writes_withChecks h fun _ hc _ hnext =>
      writes_finish_forOperators hc hnext fun _ _ _ => keyOffIfEnabled_writes (.inr (.inr ⟨tv, tag, rfl⟩))
  | chSoundoff c tv =>
    exact writes_withChecks h fun _ hc _ hnext =>
      writes_finish_forOperators hc hnext fun _ _ _ => soundOffEnvelope_writes (.inr (.inr ⟨tv, rfl⟩))
  | chStop c tv => exact execChStop_writes h

end Sys2Proof.Machine
end

section
/-!
LEMMAS. The writer of each register (rule R34): where a write changes the register, the command is one that the table
names. Every other write leaves the register as it was, by `rfl`.
-/

namespace Sys2Proof.Machine

open Sys2Proof

section

variable {i : Instr} {c : Fin 16} {o : Fin 4} {e e' : Envelope}

theorem Envelope.sameNote_refl (e : Envelope) : Envelope.sameNote e e :=
  ⟨rfl, rfl, rfl, rfl, rfl, rfl, rfl, rfl, rfl, rfl, rfl, rfl⟩

theorem Envelope.sameRelease_refl (e : Envelope) : Envelope.sameRelease e e := ⟨rfl, rfl, rfl⟩

namespace EnvelopeWrite

theorem attackRate_writer (h : EnvelopeWrite i c o e e') (hne : e'.attackRate ≠ e.attackRate) :
    ∃ r, i = .egSetar c o r := by
  cases h with
  | attackRate r hi => exact ⟨r, hi⟩
  | _ => exact absurd rfl hne

theorem decayRate_writer (h : EnvelopeWrite i c o e e') (hne : e'.decayRate ≠ e.decayRate) :
    ∃ r, i = .egSetdr c o r := by
  cases h with
  | decayRate r hi => exact ⟨r, hi⟩
  | _ => exact absurd rfl hne

theorem sustainLevel_writer (h : EnvelopeWrite i c o e e') (hne : e'.sustainLevel ≠ e.sustainLevel) :
    ∃ l, i = .egSetsl c o l := by
  cases h with
  | sustainLevel l hi => exact ⟨l, hi⟩
  | _ => exact absurd rfl hne

theorem sustainRate_writer (h : EnvelopeWrite i c o e e') (hne : e'.sustainRate ≠ e.sustainRate) :
    ∃ r, i = .egSetsr c o r := by
  cases h with
  | sustainRate r hi => exact ⟨r, hi⟩
  | _ => exact absurd rfl hne

theorem releaseRate_writer (h : EnvelopeWrite i c o e e') (hne : e'.releaseRate ≠ e.releaseRate) :
    ∃ r, i = .egSetrr c o r := by
  cases h with
  | releaseRate r hi => exact ⟨r, hi⟩
  | _ => exact absurd rfl hne

theorem rateScaling_writer (h : EnvelopeWrite i c o e e') (hne : e'.rateScaling ≠ e.rateScaling) :
    ∃ r, i = .egSetrs c o r := by
  cases h with
  | rateScaling r hi => exact ⟨r, hi⟩
  | _ => exact absurd rfl hne

theorem modeFlags_writer (h : EnvelopeWrite i c o e e')
    (hne : ¬(e'.ssgEnabled = e.ssgEnabled ∧ e'.inverted = e.inverted ∧ e'.jump = e.jump ∧ e'.looping = e.looping)) :
    ∃ m, i = .egSetssg c o m := by
  cases h with
  | mode m hi => exact ⟨m, hi⟩
  | _ => exact absurd ⟨rfl, rfl, rfl, rfl⟩ hne

theorem note_writer (h : EnvelopeWrite i c o e e') (hne : ¬Envelope.sameNote e e') : i.KeysOn c o := by
  cases h with
  | keyOn tag kc t b hi => exact hi
  | _ => exact absurd e.sameNote_refl hne

theorem release_writer (h : EnvelopeWrite i c o e e') (hne : ¬Envelope.sameRelease e e') :
    i.KeysOff c o ∨ i.SoundsOff c o := by
  cases h with
  | keyOff tag kc t l hi => exact .inl hi
  | soundOff t hi => exact .inr hi
  | _ => exact absurd e.sameRelease_refl hne

theorem egKey_lastTime_writer (h : EnvelopeWrite i c o e e') (hne : e'.egKey ≠ e.egKey ∨ e'.lastTime ≠ e.lastTime) :
    i.KeysOn c o ∨ i.KeysOff c o ∨ i.SoundsOff c o := by
  cases h with
  | keyOn tag kc t b hi => exact .inl hi
  | keyOff tag kc t l hi => exact .inr (.inl hi)
  | soundOff t hi => exact .inr (.inr hi)
  | _ => exact hne.elim (absurd rfl) (absurd rfl)

theorem srcTag_writer (h : EnvelopeWrite i c o e e') (hne : e'.srcTag ≠ e.srcTag) :
    i.KeysOn c o ∨ i.KeysOff c o := by
  cases h with
  | keyOn tag kc t b hi => exact .inl hi
  | keyOff tag kc t l hi => exact .inr hi
  | _ => exact absurd rfl hne

theorem silentAt_writer (h : EnvelopeWrite i c o e e') (hne : e'.silentAt ≠ e.silentAt) :
    i.KeysOn c o ∨ i.KeysOff c o ∨ i.SoundsOff c o ∨ ∃ tv, i = .chStop c tv := by
  cases h with
  | keyOn tag kc t b hi => exact .inl hi
  | keyOff tag kc t l hi => exact .inr (.inl hi)
  | soundOff t hi => exact .inr (.inr (.inl hi))
  | stop tv t hi => exact .inr (.inr (.inr ⟨tv, hi⟩))
  | _ => exact absurd rfl hne

theorem ssgCacheValid_writer (h : EnvelopeWrite i c o e e') (hne : e'.ssgCacheValid ≠ e.ssgCacheValid) :
    i.KeysOn c o ∨ ∃ m, i = .egSetssg c o m := by
  cases h with
  | keyOn tag kc t b hi => exact .inl hi
  | mode m hi => exact .inr ⟨m, hi⟩
  | _ => exact absurd rfl hne

end EnvelopeWrite

end

namespace OperatorWrite

variable {i : Instr} {c : Fin 16} {o : Fin 4} {q q' : Operator}

theorem detune_writer (h : OperatorWrite i c o q q') (hne : q'.detune ≠ q.detune) :
    ∃ sign mag, i = .opSetdt c o sign mag := by
  cases h with
  | detune sign mag hi => exact ⟨sign, mag, hi⟩
  | _ => exact absurd rfl hne

theorem enabled_writer (h : OperatorWrite i c o q q') (hne : q'.enabled ≠ q.enabled) :
    i = .chEnop c o ∨ ∃ tv, i = .chDisop c o tv := by
  cases h with
  | enabled b hi => exact hi
  | _ => exact absurd rfl hne

theorem frequency_writer (h : OperatorWrite i c o q q')
    (hne : q' ≠ { q with detune := q'.detune, enabled := q'.enabled }) : ∃ tv m b fn, i = .opSetfreq c o tv m b fn := by
  cases h with
  | frequency tv m block fn mult t hi => exact ⟨tv, m, block, fn, hi⟩
  | _ => exact absurd rfl hne

end OperatorWrite

section

variable (ch : Channel)

/-- The slots of a two-operator view lie past the feedback slots (rule R171). -/
theorem two_le_viewSlot (v : Fin 2) : 2 ≤ (viewSlot v).val := by
  fin_cases v <;> decide

/-- The feedback slots of a two-operator selection are as before (rule R174). -/
theorem useAlg2_g_feedback (v k : Fin 2) (n : BitVec 4) (a : Alg2) (t : ExReal) :
    (ch.useAlg2 v n a t).g[k.val] = ch.g[k.val] :=
  Vector.getElem_set_ne (viewSlot v).isLt _ (by have := two_le_viewSlot v; omega)

/-- The feedback slots of a four-operator selection are as before (rule R174). -/
theorem useAlg4_g_feedback (k : Fin 2) (n : BitVec 4) (a : Alg4) (t : ExReal) :
    (ch.useAlg4 n a t).g[k.val] = ch.g[k.val] := by
  fin_cases k <;> rfl

/-- CH.SETFB leaves the slots past the feedback slots as they were (rule R178). -/
theorem setFeedback_g_past (k : Fin 2) (amount : BitVec 3) (depth : Rat) (t : ExReal) (j : Fin 6) :
    (ch.setFeedback k amount depth t).g[j.val + 2] = ch.g[j.val + 2] :=
  Vector.getElem_set_ne (by omega) _ (by omega)

end

namespace ControlWrite

variable {i : Instr} {c : Fin 16} {ch ch' : Channel}

theorem feedback_writer (h : ControlWrite i c ch ch')
    (hne : ch'.g[0] ≠ ch.g[0] ∨ ch'.g[1] ≠ ch.g[1] ∨ ch'.fbCode ≠ ch.fbCode) : ∃ k tv m a, i = .chSetfb c k tv m a := by
  cases h with
  | feedback o tv m amount k t hi => exact ⟨o, tv, m, amount, hi⟩
  | useAlg2 tv view v n a t hi =>
    exact hne.elim (absurd (useAlg2_g_feedback ch v 0 n a t))
      (fun hne => hne.elim (absurd (useAlg2_g_feedback ch v 1 n a t)) (absurd rfl))
  | _ => exact hne.elim (absurd rfl) (fun hne => hne.elim (absurd rfl) (absurd rfl))

theorem algorithm_writer (h : ControlWrite i c ch ch')
    (hne : (∃ k : Fin 6, ch'.g[k.val + 2] ≠ ch.g[k.val + 2]) ∨ ch'.outLevel ≠ ch.outLevel ∨
      ch'.algorithm ≠ ch.algorithm ∨ ch'.alg2 ≠ ch.alg2) : ∃ tv v n, i = .chUsealg c tv v n := by
  cases h with
  | useAlg4 tv n a t hi => exact ⟨tv, .four, n, hi⟩
  | useAlg2 tv view v n a t hi => exact ⟨tv, view, n, hi⟩
  | feedback o tv m amount k t hi =>
    obtain ⟨j, hj⟩ | hout | halg | halg2 := hne
    · exact absurd (setFeedback_g_past ..) hj
    all_goals exact absurd rfl ‹_›
  | _ => obtain ⟨j, hj⟩ | hout | halg | halg2 := hne <;> exact absurd rfl ‹_›

theorem pan_writer (h : ControlWrite i c ch ch') (hne : ch'.pan ≠ ch.pan) : ∃ tv m p, i = .chSetpan c tv m p := by
  cases h with
  | pan tv m p t hi => exact ⟨tv, m, p, hi⟩
  | _ => exact absurd rfl hne

theorem stopped_writer (h : ControlWrite i c ch ch') (hne : ch'.stopped ≠ ch.stopped) : ∃ tv, i = .chStop c tv := by
  cases h with
  | stop tv hi => exact ⟨tv, hi⟩
  | _ => exact absurd rfl hne

theorem routeLastTime_writer (h : ControlWrite i c ch ch') (hne : ch'.routeLastTime ≠ ch.routeLastTime) :
    (∃ tv v n, i = .chUsealg c tv v n) ∨ (∃ k tv m a, i = .chSetfb c k tv m a) ∨ ∃ tv m p, i = .chSetpan c tv m p := by
  cases h with
  | useAlg4 tv n a t hi => exact .inl ⟨tv, .four, n, hi⟩
  | useAlg2 tv view v n a t hi => exact .inl ⟨tv, view, n, hi⟩
  | feedback o tv m amount k t hi => exact .inr (.inl ⟨o, tv, m, amount, hi⟩)
  | pan tv m p t hi => exact .inr (.inr ⟨tv, m, p, hi⟩)
  | _ => exact absurd rfl hne

end ControlWrite

end Sys2Proof.Machine

namespace Sys2Proof.Proofs

open Sys2Proof Sys2Proof.Machine

/-- Settles O55: each register group is written at most once, by a command that the writer lemmas name. -/
theorem registersHaveTheirWriters : Obligations.RegistersHaveTheirWriters := by
  intro i s s' c o h
  obtain ⟨henvs, hoprs, ⟨ch, hch, hg, hout, halg, halg2, hfb, hpan, hstopped, hlast⟩, -⟩ := exec_writes h c
  have he : EnvelopeWrite i c o (s.env c o) (s'.env c o) := henvs o
  have hq : OperatorWrite i c o (s.opr c o) (s'.opr c o) := hoprs o
  simp only [hg, hout, halg, halg2, hfb, hpan, hstopped, hlast]
  exact ⟨he.attackRate_writer, he.decayRate_writer, he.sustainLevel_writer, he.sustainRate_writer,
    he.releaseRate_writer, he.rateScaling_writer, he.modeFlags_writer, he.note_writer, he.release_writer,
    he.egKey_lastTime_writer, he.srcTag_writer, he.silentAt_writer, he.ssgCacheValid_writer, hq.detune_writer,
    hq.enabled_writer, hq.frequency_writer, hch.feedback_writer, hch.algorithm_writer, hch.pan_writer,
    hch.stopped_writer, hch.routeLastTime_writer⟩

end Sys2Proof.Proofs
end

section
/-!
LEMMAS. The level of an envelope with the invariant lies in 0 to 1023 (rules R26, R141 (a)), branch by branch of
rules R129 to R134.
-/

namespace Sys2Proof.Machine

open Sys2Proof

/-- The value of a term is a level: it lies in 0 to 1023. -/
def InLevelRange (x : ExReal) : Prop := 0 ≤ x.val ∧ x.val ≤ 1023

/-- A part of a line from 0 to `k` stays between them; at an empty interval it is 0. -/
theorem ramp_mem {k s d : ℝ} (hk : 0 ≤ k) (hs : 0 ≤ s) (hsd : s ≤ d) : 0 ≤ k * s / d ∧ k * s / d ≤ k := by
  have hd : 0 ≤ d := hs.trans hsd
  refine ⟨by positivity, ?_⟩
  rw [mul_div_assoc]
  exact mul_le_of_le_one_right hk (div_le_one_of_le₀ hsd hd)

theorem inLevelRange_zero : InLevelRange (.rat 0) := by norm_num [InLevelRange]

theorem inLevelRange_full : InLevelRange (.rat 1023) := by norm_num [InLevelRange]

/-- The inversion of a level is a level. -/
theorem InLevelRange.invert {x : ExReal} (h : InLevelRange x) : InLevelRange (ExReal.minus (.rat 1023) x) := by
  obtain ⟨hlow, hhigh⟩ := h
  simp only [InLevelRange, ExReal.val_minus, ExReal.val_rat]
  push_cast
  constructor <;> linarith

theorem snapSL_le (e : Envelope) : (e.snapSL.toNat : ℝ) ≤ 1023 := by
  exact_mod_cast Nat.le_of_lt_succ e.snapSL.isLt

section

variable {e : Envelope} {a s : ExReal}

theorem baseProfile_inLevelRange (hs : 0 ≤ s.val) : InLevelRange (e.baseProfile a s) := by
  have hsl0 : (0 : ℝ) ≤ e.snapSL.toNat := Nat.cast_nonneg _
  have hsl := snapSL_le e
  unfold Envelope.baseProfile
  simp only
  split
  · exact inLevelRange_full
  · next d hd =>
    split
    · next hlt =>
      rw [ExReal.lt_iff, ExReal.val_minus] at hlt
      have := ramp_mem (sub_nonneg.mpr hsl) hs hlt.le
      simp only [InLevelRange, ExReal.val_minus, ExReal.val_rat, ExReal.val_divBy, ExReal.val_scale]
      push_cast
      constructor <;> linarith
    · next hge =>
      rw [ExReal.lt_iff, not_lt, ExReal.val_minus] at hge
      split
      · simpa [InLevelRange] using hsl
      · next q hq =>
        split
        · next hlt =>
          rw [ExReal.lt_iff, ExReal.val_minus] at hlt
          have := ramp_mem hsl0 (sub_nonneg.mpr hge) (show s.val - (d.val - a.val) ≤ q.val - d.val by linarith)
          simp only [InLevelRange, ExReal.val_minus, ExReal.val_rat, ExReal.val_divBy, ExReal.val_scale]
          push_cast
          constructor <;> linarith
        · exact inLevelRange_zero

/-- The position in a cycle is not before its start. -/
theorem cyclePosition_nonneg {p : ExReal} (hp : 0 < p.val) : 0 ≤ (cyclePosition s p).val := by
  simpa [cyclePosition, cycleNumber] using Int.sub_floor_div_mul_nonneg s.val hp

theorem post_inLevelRange (he : e.Inv) (ha : e.endAttack = .fin a) (hs : 0 ≤ s.val) :
    InLevelRange (e.post a s) := by
  have hbase : ∀ u : ExReal, 0 ≤ u.val → InLevelRange (e.baseProfile a u) := fun _ => baseProfile_inLevelRange
  unfold Envelope.post
  split
  · exact hbase s hs
  · exact hbase s hs
  · next q hssg hq =>
    have hp : 0 < (ExReal.minus q a).val := by
      simpa using he.cycle_length hssg a q ha hq
    have hcycle := hbase _ (cyclePosition_nonneg (s := s) hp)
    simp only
    split
    · exact hbase s hs
    · split
      · exact hbase s hs
      · exact inLevelRange_full
    · exact hcycle
    · split
      · exact hcycle
      · exact hcycle.invert

theorem attackLevel_inLevelRange (cfg : Cfg) (he : e.Inv) (t : ExReal) : InLevelRange (e.attackLevel cfg t) := by
  unfold Envelope.attackLevel
  split
  · exact he.begin_level
  · simp only [InLevelRange]
    rw [ExReal.val_clamp _ _ _ (by norm_num)]
    norm_num

theorem noteLevel_inLevelRange (cfg : Cfg) (he : e.Inv) (t : ExReal) : InLevelRange (e.noteLevel cfg t) := by
  have hattack := attackLevel_inLevelRange cfg he t
  unfold Envelope.noteLevel
  split
  · exact hattack
  · next a ha =>
    split
    · exact hattack
    · next hge =>
      rw [ExReal.lt_iff, not_lt] at hge
      have hpost := post_inLevelRange he ha (s := ExReal.minus t a) (by simpa using hge)
      simp only
      split
      · exact hpost.invert
      · exact hpost

theorem releaseAt_inLevelRange (he : e.Inv) {t : ExReal} (ht : e.beginRelease.val ≤ t.val) :
    InLevelRange (e.releaseAt t) := by
  obtain ⟨hlow, hhigh⟩ := he.release_level
  unfold Envelope.releaseAt
  split
  · exact ⟨hlow, hhigh⟩
  · next r hr =>
    split
    · next hlt =>
      rw [ExReal.lt_iff] at hlt
      have := ramp_mem hlow (sub_nonneg.mpr hlt.le)
        (show r.val - t.val ≤ r.val - e.beginRelease.val by linarith)
      simp only [InLevelRange, ExReal.val_divBy, ExReal.val_times, ExReal.val_minus]
      exact ⟨this.1, this.2.trans hhigh⟩
    · exact inLevelRange_zero

theorem keyedLevel_inLevelRange (cfg : Cfg) (he : e.Inv) {t x : ExReal} (h : e.keyedLevel cfg t = some x) :
    InLevelRange x := by
  unfold Envelope.keyedLevel at h
  split at h
  · cases h
  · cases h
    exact noteLevel_inLevelRange cfg he t

/-- Wherever it is defined, the level lies in 0 to 1023 (rule R141 (a)). -/
theorem level_inLevelRange (cfg : Cfg) (he : e.Inv) {t x : ExReal} (h : e.level cfg t = some x) :
    InLevelRange x := by
  unfold Envelope.level at h
  split at h
  · cases h
    exact inLevelRange_zero
  · split at h
    · next hle =>
      cases h
      exact releaseAt_inLevelRange he ((ExReal.le_iff ..).mp hle)
    · exact keyedLevel_inLevelRange cfg he h
  · exact keyedLevel_inLevelRange cfg he h

end

end Sys2Proof.Machine
end

section
/-!
LEMMAS. What a key-on computes is in order: the attack ends at or after the key-on, the decay at or after the attack,
the sustain at or after the decay, and the last strictly after the first (rules R26, R123 to R125, R164). A release
ends at or after its key-off (rule R135).
-/

namespace Sys2Proof.Machine

open Sys2Proof

/-- A time is not after itself with a delay. -/
theorem le_plus_delay (t : ExReal) {delay : ExReal} (h : 0 ≤ delay.val) :
    (t.val : EReal) ≤ (ETime.fin (ExReal.plus t delay)).val :=
  EReal.coe_le_coe_iff.mpr (by simpa using h)

theorem incPerSec_pos {cfg : Cfg} {code : BitVec 6} (h : incPerSec cfg code ≠ 0) : 0 < incPerSec cfg code :=
  lt_of_le_of_ne (Laws.incPerSec_nonneg cfg code) h.symm

variable (cfg : Cfg)

/-- The attack of rule R123 from a level up to 1023 does not end before it begins: `(g - b) / (g - 1023)` is at
least 1. -/
theorem le_attackPlan_endAttack (t : ExReal) {b : ExReal} (hb : b.val ≤ 1023) (attackRate : BitVec 5) (inverted : Bool)
    (adj : Nat) : (t.val : EReal) ≤ (attackPlan cfg t b attackRate inverted adj).endAttack.val := by
  unfold attackPlan
  split
  · exact le_rfl
  · split
    · exact le_top
    · have hg := Laws.attackTarget_gt cfg (rateCode attackRate adj 0)
      have htau := Laws.tau_pos cfg (rateCode attackRate adj 0)
      have hratio : 1 ≤ ((cfg.data.attackTarget (rateCode attackRate adj 0)).val - b.val) /
          ((cfg.data.attackTarget (rateCode attackRate adj 0)).val - 1023) :=
        (one_le_div (by linarith)).mpr (by linarith)
      refine le_plus_delay t ?_
      simpa using mul_nonneg htau.le (Real.log_nonneg hratio)

/-- A decay that ends takes time, unless it has no way to go. -/
theorem lt_of_decayEnd_eq {a d : ExReal} {decayRate : BitVec 5} {sustainLevel : BitVec 10} {adj : Nat}
    (h : decayEnd cfg (.fin a) decayRate sustainLevel adj = .fin d) :
    a = d ∧ sustainLevel = 1023#10 ∨ a.val < d.val := by
  unfold decayEnd at h
  simp only at h
  split at h
  · cases h
  · split at h
    · next hsl => cases h; exact .inl ⟨rfl, hsl⟩
    · next hsl =>
      split at h
      · cases h
      · next hslope =>
        cases h
        have hlevel : sustainLevel.toNat < 1023 := by
          have hne : sustainLevel.toNat ≠ 1023 := fun h0 => hsl (BitVec.eq_of_toNat_eq h0)
          omega
        have hdelay : (0 : ℚ) < (1023 - sustainLevel.toNat) / incPerSec cfg (rateCode decayRate adj 0) :=
          div_pos (sub_pos.mpr (by exact_mod_cast hlevel)) (incPerSec_pos hslope)
        right
        rw [ExReal.val_plus, ExReal.val_rat]
        exact lt_add_of_pos_right _ (by exact_mod_cast hdelay)

/-- A sustain that ends takes time, unless it has no way to go. -/
theorem lt_of_sustainEnd_eq {d q : ExReal} {sustainRate : BitVec 5} {sustainLevel : BitVec 10} {adj : Nat}
    (h : sustainEnd cfg (.fin d) sustainRate sustainLevel adj = .fin q) :
    d = q ∧ sustainLevel = 0 ∨ d.val < q.val := by
  unfold sustainEnd at h
  simp only at h
  split at h
  · next hsl => cases h; exact .inl ⟨rfl, hsl⟩
  · next hsl =>
    split at h
    · cases h
    · split at h
      · cases h
      · next hslope =>
        cases h
        have hlevel : 0 < sustainLevel.toNat := Nat.pos_of_ne_zero fun h0 => hsl (BitVec.eq_of_toNat_eq h0)
        have hdelay : (0 : ℚ) < sustainLevel.toNat / incPerSec cfg (rateCode sustainRate adj 0) :=
          div_pos (by exact_mod_cast hlevel) (incPerSec_pos hslope)
        right
        rw [ExReal.val_plus, ExReal.val_rat]
        exact lt_add_of_pos_right _ (by exact_mod_cast hdelay)

theorem le_decayEnd (endAttack : ETime) (decayRate : BitVec 5) (sustainLevel : BitVec 10) (adj : Nat) :
    endAttack.val ≤ (decayEnd cfg endAttack decayRate sustainLevel adj).val := by
  cases endAttack with
  | inf => exact le_rfl
  | fin a =>
    cases h : decayEnd cfg (.fin a) decayRate sustainLevel adj with
    | inf => exact le_top
    | fin d =>
      obtain ⟨rfl, -⟩ | hlt := lt_of_decayEnd_eq cfg h
      · exact le_rfl
      · exact EReal.coe_le_coe_iff.mpr hlt.le

theorem le_sustainEnd (endDecay : ETime) (sustainRate : BitVec 5) (sustainLevel : BitVec 10) (adj : Nat) :
    endDecay.val ≤ (sustainEnd cfg endDecay sustainRate sustainLevel adj).val := by
  cases endDecay with
  | inf => exact le_rfl
  | fin d =>
    cases h : sustainEnd cfg (.fin d) sustainRate sustainLevel adj with
    | inf => exact le_top
    | fin q =>
      obtain ⟨rfl, -⟩ | hlt := lt_of_sustainEnd_eq cfg h
      · exact le_rfl
      · exact EReal.coe_le_coe_iff.mpr hlt.le

/-- A cycle of finite length has a positive one (rule R164): the decay or the sustain has some way to go. -/
theorem lt_of_sustainEnd_decayEnd_eq {endAttack : ETime} {a q : ExReal} {decayRate sustainRate : BitVec 5}
    {sustainLevel : BitVec 10} {adj : Nat} (ha : endAttack = .fin a)
    (h : sustainEnd cfg (decayEnd cfg endAttack decayRate sustainLevel adj) sustainRate sustainLevel adj = .fin q) :
    a.val < q.val := by
  subst ha
  cases hd : decayEnd cfg (.fin a) decayRate sustainLevel adj with
  | inf => rw [hd] at h; cases h
  | fin d =>
    rw [hd] at h
    obtain ⟨rfl, hfull⟩ | hdecay := lt_of_decayEnd_eq cfg hd <;>
      obtain ⟨rfl, hzero⟩ | hsustain := lt_of_sustainEnd_eq cfg h
    · exact absurd (hfull.symm.trans hzero) (by decide)
    · exact hsustain
    · exact hdecay
    · exact hdecay.trans hsustain

/-- A release from a level that is not negative does not end before it begins (rule R135). -/
theorem le_releaseEnd (t : ExReal) {l : ExReal} (hl : 0 ≤ l.val) (releaseRate : BitVec 5) (adj : Nat) :
    (t.val : EReal) ≤ (releaseEnd cfg t l releaseRate adj).val := by
  unfold releaseEnd
  simp only
  split
  · exact le_rfl
  · split
    · exact le_top
    · have hslope : (0 : ℝ) ≤ incPerSec cfg (rateCode releaseRate adj 1) := by
        exact_mod_cast Laws.incPerSec_nonneg cfg _
      refine le_plus_delay t ?_
      simpa using div_nonneg hl hslope

end Sys2Proof.Machine
end

section
/-!
LEMMAS. The invariant of rules R22, R26, R33, R164 and R203 (7) holds after reset, and every write a command can make
keeps it.
-/

namespace Sys2Proof.Machine

open Sys2Proof

/-! ### Envelopes -/

section

variable {e : Envelope} {cfg : Cfg} {t : ExReal}

/-- A mode below 8 switches every flag off (rules R22, R106). -/
theorem modeFlags_off {m : BitVec 4} (h : (modeFlags cfg m).ssgEnabled = false) :
    (modeFlags cfg m).inverted = false ∧ (modeFlags cfg m).jump = false ∧ (modeFlags cfg m).looping = false := by
  unfold modeFlags at h ⊢
  split
  · exact ⟨rfl, rfl, rfl⟩
  · next hm => simp [hm] at h

theorem Envelope.Inv.setMode (he : e.Inv) (m : BitVec 4) : (e.setMode (modeFlags cfg m)).Inv :=
  { he with flags := modeFlags_off }

theorem Envelope.Inv.keyOn (he : e.Inv) {b : ExReal} (horder : e.lastTime.val ≤ t.val) (hb : InLevelRange b)
    (tag : BitVec 8) (kc : BitVec 5) : (e.keyOn cfg tag kc t b).Inv where
  flags := he.flags
  copies := he.flags
  attack_end := le_attackPlan_endAttack cfg t hb.2 ..
  decay_end := le_decayEnd cfg ..
  sustain_end := le_sustainEnd cfg ..
  release_end := he.release_end
  begin_level := hb
  release_level := he.release_level
  attack_past := le_rfl
  release_past := he.release_past.trans horder
  cycle_length _ _ _ ha hq := lt_of_sustainEnd_decayEnd_eq cfg ha hq

theorem Envelope.Inv.keyOff (he : e.Inv) {l : ExReal} (horder : e.lastTime.val ≤ t.val) (hl : InLevelRange l)
    (tag : BitVec 8) (kc : BitVec 5) : (e.keyOff cfg tag kc t l).Inv :=
  { he with
    release_end := le_releaseEnd cfg t hl.1 ..
    release_level := hl
    attack_past := he.attack_past.trans horder
    release_past := le_rfl }

theorem Envelope.Inv.soundOff (he : e.Inv) (horder : e.lastTime.val ≤ t.val) : (e.soundOff t).Inv :=
  { he with
    release_end := le_rfl
    release_level := inLevelRange_zero
    attack_past := he.attack_past.trans horder
    release_past := le_rfl }

end

section

variable {i : Instr} {c : Fin 16} {o : Fin 4}

theorem EnvelopeWrite.inv {e e' : Envelope} (h : EnvelopeWrite i c o e e') (he : e.Inv) : e'.Inv := by
  cases h with
  | mode m => exact he.setMode m
  | keyOn tag kc t b _ horder hlevel => exact he.keyOn horder (level_inLevelRange _ he hlevel) tag kc
  | keyOff tag kc t l _ horder hlevel => exact he.keyOff horder (level_inLevelRange _ he hlevel) tag kc
  | soundOff t _ horder => exact he.soundOff horder
  | _ => exact { he with }

/-! ### Operators, control registers, channels -/

/-- Minus zero is stored as zero (rule R159). -/
theorem detuneOperand_neg {sign : Bool} {mag : BitVec 2} (h : (detuneOperand sign mag).neg = true) : mag ≠ 0 := by
  simp only [detuneOperand, Bool.and_eq_true, bne_iff_ne] at h
  exact h.2

theorem OperatorWrite.detune_ne_minusZero {q q' : Operator} (h : OperatorWrite i c o q q')
    (hq : q.detune.neg = true → q.detune.mag ≠ 0) : q'.detune.neg = true → q'.detune.mag ≠ 0 := by
  cases h with
  | detune sign mag => exact detuneOperand_neg
  | _ => exact hq

theorem ControlWrite.pan_ne {ch ch' : Channel} (h : ControlWrite i c ch ch') (hch : ch.pan ≠ 0x80#8) :
    ch'.pan ≠ 0x80#8 := by
  cases h with
  | pan tv m p t _ hp => exact hp
  | _ => exact hch

theorem ControlWrite.algorithm_lt {ch ch' : Channel} (h : ControlWrite i c ch ch') (hch : ch.algorithm.toNat < nAlg4) :
    ch'.algorithm.toNat < nAlg4 := by
  cases h with
  | useAlg4 tv n a t _ hn => exact hn
  | _ => exact hch

/-- The feedback depths are the table's after every write: an algorithm selection leaves them alone (rule R174), and
CH.SETFB writes the depth of the code it stores (rule R178). -/
theorem ControlWrite.feedback_depth {ch ch' : Channel} (h : ControlWrite i c ch ch')
    (hch : ∀ k : Fin 2, ch.g[k.val] = Config.cfg.data.feedbackDepth ch.fbCode[k.val]) (k : Fin 2) :
    ch'.g[k.val] = Config.cfg.data.feedbackDepth ch'.fbCode[k.val] := by
  cases h with
  | useAlg4 tv n a t => exact (useAlg4_g_feedback ..).trans (hch k)
  | useAlg2 tv view v n a t => exact (useAlg2_g_feedback ..).trans (hch k)
  | feedback o tv m amount j t =>
    by_cases hjk : j = k
    · subst hjk
      simp [Channel.setFeedback]
    · have hne : j.val ≠ k.val := fun hv => hjk (Fin.ext hv)
      simpa [Channel.setFeedback, Vector.getElem_set_ne _ _ hne] using hch k
  | _ => exact hch k

theorem ChannelWrite.inv {ch ch' : Channel} (h : ChannelWrite i c ch ch') (hch : ch.Inv) : ch'.Inv := by
  obtain ⟨henvs, hoprs, ⟨ch₀, hctl, hg, -, halg, -, hfb, hpan, -, -⟩, -⟩ := h
  exact
    { envelopes := fun o => (henvs o).inv (hch.envelopes o)
      detune := fun o => (hoprs o).detune_ne_minusZero (hch.detune o)
      pan := hpan ▸ hctl.pan_ne hch.pan
      algorithm := halg ▸ hctl.algorithm_lt hch.algorithm
      feedback := fun k => by simpa only [hg, hfb] using hctl.feedback_depth hch.feedback k }

end

/-! ### States -/

/-- The invariant reads the registers only. -/
theorem State.Inv.of_chans {s s' : State} (h : s.Inv) (hchans : s'.chans = s.chans) : s'.Inv := by
  have hchan : ∀ c, s'.chan c = s.chan c := fun c => by simp only [State.chan, hchans]
  exact ⟨fun c => hchan c ▸ h.channels c, fun c hc => (hchan c).trans (h.absent c hc)⟩

theorem Writes.inv {i : Instr} {s s' : State} (h : Writes i s s') (hs : s.Inv) : s'.Inv where
  channels c := (h c).inv (hs.channels c)
  absent c hc := ((h c).absent hc).trans (hs.absent c hc)

theorem Envelope.reset_inv : Envelope.reset.Inv := by
  constructor <;> simp [Envelope.reset]

theorem Channel.reset_inv : Channel.reset.Inv where
  envelopes o := by simpa [Channel.reset] using Envelope.reset_inv
  detune o := by simp [Channel.reset, Operator.reset]
  pan := by decide
  algorithm := by decide
  feedback k := by simpa [Channel.reset] using (Laws.feedbackDepth_zero Config.cfg).symm

theorem State.reset_inv : State.reset.Inv where
  channels c := by simpa using Channel.reset_inv
  absent c _ := chan_reset c

theorem exec_inv {i : Instr} {s s' : State} (hs : s.Inv) (h : exec i s = .next s') : s'.Inv :=
  (exec_writes h).inv hs

/-- A step keeps the invariant, by the next input: none, a reset, a word that spells no command, a command. -/
theorem step_inv {s s' : State} (hs : s.Inv) (h : step s = .next s') : s'.Inv := by
  match hinputs : s.inputs with
  | [] =>
    rw [step_of_no_input hinputs] at h
    cases h
    exact hs
  | .reset :: rest =>
    rw [step_of_reset hinputs] at h
    cases h
    exact State.reset_inv.of_chans rfl
  | .command w p :: rest =>
    have htake : (s.take rest p).Inv := hs.of_chans rfl
    cases hdecode : decode w with
    | error e =>
      rw [step_of_undecodable hinputs hdecode] at h
      cases h
      exact htake.of_chans rfl
    | ok i =>
      rw [step_of_decoded hinputs hdecode] at h
      exact exec_inv htake h

end Sys2Proof.Machine

namespace Sys2Proof.Proofs

open Sys2Proof Sys2Proof.Machine

/-- Settles O57: `exec_writes` says what a command can write, and each of these writes keeps the invariant. -/
theorem invariantKeptByStep : Obligations.InvariantKeptByStep := fun _ _ => step_inv

/-- Settles O56: every channel is at its reset values, which are in order and in range. -/
theorem invariantAtReset : Obligations.InvariantAtReset := State.reset_inv

end Sys2Proof.Proofs
end

section
/-!
LEMMAS. The events of one command in time order (rules R71, R72): the order of one envelope's GAIN events, and what
each command adds to the stream.
-/

namespace Sys2Proof.Machine

open Sys2Proof

/-! ### Lists of events in time order -/

/-- The events come in non-decreasing times, none of them before `t`. -/
def InOrderFrom (t : ℝ) (evs : List Event) : Prop := (t :: evs.map fun ev => ev.time.val).IsChain (· ≤ ·)

section

variable {t a : ℝ} {ev : Event} {evs : List Event}

@[simp] theorem inOrderFrom_nil : InOrderFrom t [] := List.isChain_singleton _

@[simp] theorem inOrderFrom_cons : InOrderFrom t (ev :: evs) ↔ t ≤ ev.time.val ∧ InOrderFrom ev.time.val evs :=
  List.isChain_cons_cons

theorem InOrderFrom.from_earlier (h : InOrderFrom a evs) (hle : t ≤ a) : InOrderFrom t evs :=
  h.imp_head hle.trans

theorem InOrderFrom.left_of_append {xs ys : List Event} (h : InOrderFrom t (xs ++ ys)) : InOrderFrom t xs := by
  rw [InOrderFrom, List.map_append, ← List.cons_append] at h
  exact h.left_of_append

theorem InOrderFrom.forall_le (h : InOrderFrom t evs) : ∀ ev ∈ evs, t ≤ ev.time.val := by
  simpa using (List.pairwise_cons.mp h.pairwise).1

theorem InOrderFrom.pairwise (h : InOrderFrom t evs) : evs.Pairwise fun a b => a.time.val ≤ b.time.val :=
  List.pairwise_map.mp (List.pairwise_cons.mp (List.IsChain.pairwise h)).2

end

/-! ### The GAIN events of one envelope -/

section

variable {c : Fin 16} {o : Fin 4} {e : Envelope} {t a : ExReal} {p : Param} {ev : Event}

theorem stopEvents_param {tag : BitVec 8} {x : ETime} (h : ev ∈ stopEvents c o tag x) : ev.param = none := by
  cases x with
  | inf => cases h
  | fin x => rw [List.mem_singleton.mp h]; rfl

theorem mem_attackEvents {cfg : Cfg} (h : ev ∈ attackEvents cfg p t e) :
    (∃ g tc, ev = .target p g t tc) ∨ ∃ a, e.endAttack = .fin a ∧ ev = .set p (.rat 1) a := by
  unfold attackEvents at h
  split at h
  · cases h
  · next a ha =>
    split at h
    · simp only [List.mem_cons, List.not_mem_nil, or_false] at h
      obtain rfl | rfl := h
      · exact .inl ⟨_, _, rfl⟩
      · exact .inr ⟨a, ha, rfl⟩
    · cases h

theorem attackEvents_param {cfg : Cfg} (h : ev ∈ attackEvents cfg p t e) : ev.param = some p := by
  obtain ⟨g, tc, rfl⟩ | ⟨a, -, rfl⟩ := mem_attackEvents h <;> rfl

/-- The sustain ramp, event group (5) of rule R128, of a note whose decay ends at `d`. -/
def sustainEvents (p : Param) (d : ExReal) (e : Envelope) : List Event :=
  match e.endSustain with
  | .fin q => if ExReal.lt d q then [.linRamp p (.rat 0) q] else []
  | .inf => []

theorem rampEvents_of_decay {d : ExReal} (ha : e.endAttack = .fin a) (hd : e.endDecay = .fin d) :
    rampEvents p e =
      (if ExReal.lt a d then [.linRamp p (gainOf (.rat e.snapSL.toNat)) d] else []) ++ sustainEvents p d e := by
  rw [rampEvents, ha, hd]
  rfl

theorem mem_sustainEvents {d : ExReal} (h : ev ∈ sustainEvents p d e) :
    ∃ q, d.val < q.val ∧ ev = .linRamp p (.rat 0) q := by
  unfold sustainEvents at h
  split at h
  · next q _ =>
    split at h
    · next hlt => exact ⟨q, (ExReal.lt_iff ..).mp hlt, List.mem_singleton.mp h⟩
    · cases h
  · cases h

theorem mem_rampEvents (h : ev ∈ rampEvents p e) : ∃ v t, ev = .linRamp p v t := by
  cases ha : e.endAttack with
  | inf => simp [rampEvents, ha] at h
  | fin a =>
    cases hd : e.endDecay with
    | inf => simp [rampEvents, ha, hd] at h
    | fin d =>
      rw [rampEvents_of_decay ha hd, List.mem_append] at h
      obtain h | h := h
      · split at h
        · exact ⟨_, _, List.mem_singleton.mp h⟩
        · cases h
      · obtain ⟨q, -, rfl⟩ := mem_sustainEvents h
        exact ⟨_, _, rfl⟩

theorem rampEvents_param (h : ev ∈ rampEvents p e) : ev.param = some p := by
  obtain ⟨v, t, rfl⟩ := mem_rampEvents h
  rfl

theorem tailEvents_param (a : ExReal) (tail : List Config.TailEvent) : ∀ ev ∈ tailEvents p a tail, ev.param = some p := by
  induction tail generalizing a with
  | nil => simp [tailEvents]
  | cons x rest ih =>
    simp only [tailEvents, List.mem_cons]
    rintro ev (rfl | h)
    · cases x.action <;> rfl
    · exact ih _ ev h

theorem afterAttackEvents_param {free : Nat} (h : ev ∈ afterAttackEvents c o free e) :
    ev.param = some (.gain c o) := by
  unfold afterAttackEvents at h
  split at h
  · split at h
    · exact tailEvents_param _ _ ev h
    · cases h
  · exact rampEvents_param h

/-- The tail's delays are not negative. -/
theorem tailEvents_inOrder (a : ExReal) (tail : List Config.TailEvent) : InOrderFrom a.val (tailEvents p a tail) := by
  induction tail generalizing a with
  | nil => exact inOrderFrom_nil
  | cons x rest ih =>
    have hle : a.val ≤ (ExReal.plus a (if ExReal.lt x.delay (.rat 0) then .rat 0 else x.delay)).val := by
      split
      · simp
      · next h => simpa using h
    simp only [tailEvents, inOrderFrom_cons]
    cases x.action <;> exact ⟨hle, ih _⟩

theorem sustainEvents_inOrder (d : ExReal) : InOrderFrom d.val (sustainEvents p d e) := by
  unfold sustainEvents
  split
  · split
    · next h => simpa [Event.time] using ((ExReal.lt_iff ..).mp h).le
    · exact inOrderFrom_nil
  · exact inOrderFrom_nil

theorem rampEvents_inOrder (he : e.Inv) (ha : e.endAttack = .fin a) : InOrderFrom a.val (rampEvents p e) := by
  cases hd : e.endDecay with
  | inf => simp [rampEvents, ha, hd]
  | fin d =>
    have had : a.val ≤ d.val := by simpa [ha, hd] using he.decay_end
    rw [rampEvents_of_decay ha hd]
    split
    · exact inOrderFrom_cons.mpr ⟨had, sustainEvents_inOrder d⟩
    · exact (sustainEvents_inOrder d).from_earlier had

/-- The events of a note come in time order from its key-on (rule R128): those of the attack by `endAttack`, the rest
from `endAttack` on. -/
theorem noteEvents_inOrder (cfg : Cfg) (he : e.Inv) (free : Nat) :
    InOrderFrom e.beginAttack.val
      (attackEvents cfg (.gain c o) e.beginAttack e ++ afterAttackEvents c o free e) := by
  cases ha : e.endAttack with
  | inf => simp [attackEvents, afterAttackEvents, rampEvents, ha]
  | fin a =>
    have hta : e.beginAttack.val ≤ a.val := by simpa [ha] using he.attack_end
    have hafter : InOrderFrom a.val (afterAttackEvents c o free e) := by
      unfold afterAttackEvents
      split
      · simpa only [ha] using tailEvents_inOrder a _
      · exact rampEvents_inOrder he ha
    simp only [attackEvents, ha]
    split
    · simpa [Event.time, hta] using hafter
    · exact hafter.from_earlier hta

theorem attackEvents_inOrder {cfg : Cfg} (he : e.Inv) :
    InOrderFrom e.beginAttack.val (attackEvents cfg (.gain c o) e.beginAttack e) :=
  (noteEvents_inOrder cfg he 0).left_of_append

end

/-! ### What one command may emit -/

/-- The events keep the time order on every parameter, and those on a gain begin with a CANCEL_HOLD at `t`. -/
def Scheduled (t : ExReal) (evs : List Event) : Prop :=
  InTimeOrder evs ∧ ∀ c o, eventsOn (.gain c o) evs = [] ∨
    (eventsOn (.gain c o) evs).head? = some (.cancelHold (.gain c o) t)

section

variable {t : ExReal} {evs later stops : List Event} {p : Param}

@[simp] theorem eventsOn_append (xs ys : List Event) : eventsOn p (xs ++ ys) = eventsOn p xs ++ eventsOn p ys :=
  List.filter_append ..

theorem eventsOn_eq_nil (h : ∀ ev ∈ evs, ev.param ≠ some p) : eventsOn p evs = [] := by
  simpa [eventsOn, List.filter_eq_nil_iff] using h

theorem scheduled_nil : Scheduled t [] := ⟨fun _ => .nil, fun _ _ => .inl rfl⟩

/-- Events at one time, none of them on a gain. -/
theorem scheduled_of_no_gain (htime : ∀ ev ∈ evs, ev.time = t) (hgain : ∀ ev ∈ evs, ∀ c o, ev.param ≠ some (.gain c o)) :
    Scheduled t evs := by
  refine ⟨fun p => (List.pairwise_of_forall_mem_list fun a ha b hb => ?_).filter _,
    fun c o => .inl (eventsOn_eq_nil fun ev hev => hgain ev hev c o)⟩
  rw [htime a ha, htime b hb]

/-- The events of one envelope: a CANCEL_HOLD at the command's time, the gain's other events in order from that time
on, then events on no parameter. -/
theorem scheduled_of_hold {c : Fin 16} {o : Fin 4} (hparam : ∀ ev ∈ later, ev.param = some (.gain c o))
    (horder : InOrderFrom t.val later) (hstops : ∀ ev ∈ stops, ev.param = none) :
    Scheduled t (.cancelHold (.gain c o) t :: later ++ stops) := by
  have hon : ∀ p, eventsOn p (.cancelHold (.gain c o) t :: later ++ stops) =
      eventsOn p (.cancelHold (.gain c o) t :: later) := fun p => by
    rw [eventsOn_append, eventsOn_eq_nil (evs := stops) fun ev hev => by simp [hstops ev hev], List.append_nil]
  have hall : ∀ ev ∈ Event.cancelHold (.gain c o) t :: later, ev.param = some (.gain c o) := by
    simpa [Event.param] using hparam
  have hchain : InOrderFrom t.val (.cancelHold (.gain c o) t :: later) := inOrderFrom_cons.mpr ⟨le_rfl, horder⟩
  refine ⟨fun p => hon p ▸ hchain.pairwise.filter _, fun c' o' => ?_⟩
  rw [hon]
  by_cases hp : (Param.gain c' o') = .gain c o
  · right
    rw [hp]
    simp [eventsOn, Event.param]
  · left
    refine eventsOn_eq_nil fun ev hev => ?_
    rw [hall ev hev]
    exact fun h => hp (Option.some.inj h).symm

/-- Two schedules on different parameters, one after the other. -/
theorem Scheduled.append {xs ys : List Event} (hx : Scheduled t xs) (hy : Scheduled t ys)
    (hdisjoint : ∀ p, eventsOn p xs = [] ∨ eventsOn p ys = []) : Scheduled t (xs ++ ys) := by
  constructor
  · intro p
    obtain h | h := hdisjoint p
    · simpa [h] using hy.1 p
    · simpa [h] using hx.1 p
  · intro c o
    obtain h | h := hdisjoint (.gain c o)
    · simpa [h] using hy.2 c o
    · simpa [h] using hx.2 c o

end

section

variable {c : Fin 16} {o : Fin 4} {e : Envelope} {t : ExReal}

theorem keyOnEvents_scheduled (cfg : Cfg) (he : e.Inv) (free : Nat) :
    Scheduled e.beginAttack (keyOnEvents cfg c o e.beginAttack free e) := by
  have hparam : ∀ ev ∈ attackEvents cfg (.gain c o) e.beginAttack e ++ afterAttackEvents c o free e,
      ev.param = some (.gain c o) := fun ev hev =>
    (List.mem_append.mp hev).elim (attackEvents_param) afterAttackEvents_param
  have h := scheduled_of_hold (c := c) (o := o) (t := e.beginAttack)
    (later := .set (.gain c o) (gainOf (e.noteLevel cfg e.beginAttack)) e.beginAttack ::
      (attackEvents cfg (.gain c o) e.beginAttack e ++ afterAttackEvents c o free e))
    (stops := stopEvents c o e.srcTag e.stopTime)
    (by simpa [Event.param] using hparam) (inOrderFrom_cons.mpr ⟨le_rfl, noteEvents_inOrder cfg he free⟩)
    (fun _ => stopEvents_param)
  simpa [keyOnEvents] using h

theorem keyOffEvents_scheduled : Scheduled t (keyOffEvents c o t e) := by
  have h := fun later => scheduled_of_hold (c := c) (o := o) (t := t)
    (later := .set (.gain c o) (gainOf e.releaseLevel) t :: later) (stops := stopEvents c o e.srcTag e.endRelease)
  unfold keyOffEvents
  split
  · split
    · next r _ hlt =>
      exact h [.linRamp (.gain c o) (.rat 0) r] (by simp [Event.param])
        (by simpa [Event.time] using ((ExReal.lt_iff ..).mp hlt).le) fun _ => stopEvents_param
    · exact h [] (by simp [Event.param]) (by simp [Event.time]) fun _ => stopEvents_param
  · exact h [] (by simp [Event.param]) (by simp [Event.time]) fun _ => stopEvents_param

theorem soundOffEvents_scheduled : Scheduled t (soundOffEvents c o t) :=
  scheduled_of_hold (later := [.set (.gain c o) (.rat 0) t]) (stops := []) (by simp [Event.param])
    (by simp [Event.time]) (by simp)

end

/-- The step from `s` to `s'` adds events that are scheduled at `t`. -/
def Emits (t : ExReal) (s s' : State) : Prop := ∃ evs, s'.events = s.events ++ evs ∧ Scheduled t evs

/-- The step from `s` to `s'` adds events that are scheduled at `t` and lie on the gains of the operators in `ops`. -/
def EmitsOnGains (t : ExReal) (c : Fin 16) (ops : Finset (Fin 4)) (s s' : State) : Prop :=
  ∃ evs, s'.events = s.events ++ evs ∧ Scheduled t evs ∧
    ∀ p, eventsOn p evs ≠ [] → ∃ o ∈ ops, p = .gain c o

section

variable {c : Fin 16} {o : Fin 4} {t : ExReal} {s s1 s' : State} {evs : List Event}

theorem emits_of_events_eq (h : s'.events = s.events) : Emits t s s' := ⟨[], by simpa using h, scheduled_nil⟩

theorem emits_of_no_gain (h : s'.events = s.events ++ evs) (htime : ∀ ev ∈ evs, ev.time = t)
    (hgain : ∀ ev ∈ evs, ∀ c o, ev.param ≠ some (.gain c o)) : Emits t s s' :=
  ⟨evs, h, scheduled_of_no_gain htime hgain⟩

theorem EmitsOnGains.emits {ops : Finset (Fin 4)} (h : EmitsOnGains t c ops s s') : Emits t s s' :=
  let ⟨evs, hevs, hsched, _⟩ := h
  ⟨evs, hevs, hsched⟩

theorem emitsOnGains_refl : EmitsOnGains t c {o} s s := ⟨[], by simp, scheduled_nil, by simp [eventsOn]⟩

theorem emitsOnGains_of_param (h : s'.events = s.events ++ evs) (hsched : Scheduled t evs)
    (hparam : ∀ ev ∈ evs, ∀ p, ev.param = some p → p = .gain c o) : EmitsOnGains t c {o} s s' := by
  refine ⟨evs, h, hsched, fun p hp => ⟨o, Finset.mem_singleton_self o, ?_⟩⟩
  by_contra hne
  exact hp (eventsOn_eq_nil fun ev hev heq => hne (hparam ev hev p heq))

/-- Operations on different operators, one after the other. -/
theorem EmitsOnGains.trans {ops ops' : Finset (Fin 4)} (h : EmitsOnGains t c ops s s1)
    (h' : EmitsOnGains t c ops' s1 s') (hdisjoint : Disjoint ops ops') : EmitsOnGains t c (ops ∪ ops') s s' := by
  obtain ⟨xs, hxs, hx, hxgain⟩ := h
  obtain ⟨ys, hys, hy, hygain⟩ := h'
  refine ⟨xs ++ ys, by simp [hys, hxs], hx.append hy fun p => ?_, fun p hp => ?_⟩
  · by_contra hboth
    obtain ⟨hpx, hpy⟩ := not_or.mp hboth
    obtain ⟨o, ho, rfl⟩ := hxgain p hpx
    obtain ⟨o', ho', heq⟩ := hygain _ hpy
    obtain ⟨-, rfl⟩ := Param.gain.inj heq
    exact Finset.disjoint_left.mp hdisjoint ho ho'
  · by_cases hpx : eventsOn p xs = []
    · obtain ⟨o, ho, heq⟩ := hygain p (by simpa [hpx] using hp)
      exact ⟨o, Finset.mem_union_right _ ho, heq⟩
    · obtain ⟨o, ho, heq⟩ := hxgain p hpx
      exact ⟨o, Finset.mem_union_left _ ho, heq⟩

/-! ### The keying operations -/

theorem keyOnEvents_param {cfg : Cfg} {free : Nat} {e : Envelope} :
    ∀ ev ∈ keyOnEvents cfg c o t free e, ∀ p, ev.param = some p → p = .gain c o := by
  intro ev hev p hp
  simp only [keyOnEvents, List.mem_append, List.mem_cons, List.not_mem_nil, or_false] at hev
  obtain (((rfl | rfl) | h) | h) | h := hev
  · exact (Option.some.inj hp).symm
  · exact (Option.some.inj hp).symm
  · exact Option.some.inj (hp.symm.trans (attackEvents_param h))
  · exact Option.some.inj (hp.symm.trans (afterAttackEvents_param h))
  · exact absurd (hp.symm.trans (stopEvents_param h)) (by simp)

theorem keyOffEvents_param {e : Envelope} :
    ∀ ev ∈ keyOffEvents c o t e, ∀ p, ev.param = some p → p = .gain c o := by
  intro ev hev p hp
  simp only [keyOffEvents, List.mem_append, List.mem_cons, List.not_mem_nil, or_false] at hev
  obtain ((rfl | rfl) | h) | h := hev
  · exact (Option.some.inj hp).symm
  · exact (Option.some.inj hp).symm
  · split at h
    · split at h
      · rw [List.mem_singleton.mp h] at hp
        exact (Option.some.inj hp).symm
      · cases h
    · cases h
  · exact absurd (hp.symm.trans (stopEvents_param h)) (by simp)

theorem soundOffEvents_param : ∀ ev ∈ soundOffEvents c o t, ∀ p, ev.param = some p → p = .gain c o := by
  simp [soundOffEvents, Event.param, eq_comm]

/-- The envelopes of a state with the invariant have theirs. -/
theorem State.Inv.env (hs : s.Inv) (c : Fin 16) (o : Fin 4) : (s.env c o).Inv := (hs.channels c).envelopes o

theorem keyOnEnvelope_emits {tag : BitVec 8} {kc : BitVec 5} (hs : s.Inv)
    (h : keyOnEnvelope Config.cfg c o tag kc t s = .ok s') : EmitsOnGains t c {o} s s' := by
  obtain ⟨b, horder, hlevel, rfl⟩ := keyOnEnvelope_ok h
  have he := (hs.env c o).keyOn (cfg := Config.cfg) horder (level_inLevelRange _ (hs.env c o) hlevel) tag kc
  exact emitsOnGains_of_param (keyedOn_events ..) (keyOnEvents_scheduled Config.cfg he _) keyOnEvents_param

theorem keyOffEnvelope_emits {tag : BitVec 8} {kc : BitVec 5}
    (h : keyOffEnvelope Config.cfg c o tag kc t s = .ok s') : EmitsOnGains t c {o} s s' := by
  obtain ⟨l, -, -, rfl⟩ := keyOffEnvelope_ok h
  exact emitsOnGains_of_param rfl keyOffEvents_scheduled keyOffEvents_param

theorem soundOffEnvelope_emits (h : soundOffEnvelope c o t s = .ok s') : EmitsOnGains t c {o} s s' := by
  obtain ⟨-, rfl⟩ := soundOffEnvelope_ok h
  exact emitsOnGains_of_param rfl soundOffEvents_scheduled soundOffEvents_param

theorem keyOnIfEnabled_emits {tag : BitVec 8} (hs : s.Inv) (h : keyOnIfEnabled Config.cfg c tag t o s = .ok s') :
    EmitsOnGains t c {o} s s' := by
  unfold keyOnIfEnabled at h
  split at h
  · exact keyOnEnvelope_emits hs h
  · cases h; exact emitsOnGains_refl

theorem keyOffIfEnabled_emits {tag : BitVec 8} (h : keyOffIfEnabled Config.cfg c tag t o s = .ok s') :
    EmitsOnGains t c {o} s s' := by
  unfold keyOffIfEnabled at h
  split at h
  · exact keyOffEnvelope_emits h
  · cases h; exact emitsOnGains_refl

/-- The composite loop over an operation of one envelope that keeps the invariant. -/
theorem forOperators_emits {i : Instr} {f : Fin 4 → State → Except Refusal State}
    (hc : Config.cfg.hasChannel c = true)
    (hwrites : ∀ o u u', f o u = .ok u' → WritesEnvelope (EnvelopeWrite i c o) c o u u')
    (hemits : ∀ o u u', u.Inv → f o u = .ok u' → EmitsOnGains t c {o} u u')
    (hs : s.Inv) (h : forOperators f s = .ok s') : Emits t s s' := by
  obtain ⟨s1, s2, s3, h0, h1, h2, h3⟩ := forOperators_ok h
  have hs1 := (writes_envelope hc (hwrites _ _ _ h0)).inv hs
  have hs2 := (writes_envelope hc (hwrites _ _ _ h1)).inv hs1
  have hs3 := (writes_envelope hc (hwrites _ _ _ h2)).inv hs2
  exact ((((hemits _ _ _ hs h0).trans (hemits _ _ _ hs1 h1) (by decide)).trans (hemits _ _ _ hs2 h2)
    (by decide)).trans (hemits _ _ _ hs3 h3) (by decide)).emits

end

/-! ### The commands -/

/-- A command with the time-valid bit `tv` that goes on to `s'` has added no event, or events that are scheduled at its
time. -/
def EmitsAtItsTime (tv : Bool) (s s' : State) : Prop :=
  s'.events = s.events ∨ ∃ t, commandTime s.ports tv = some t ∧ Emits t s s'

section

variable {c : Fin 16} {o : Fin 4} {tv form : Bool} {t : ExReal} {s s' : State}

/-- A command behind the common checks emits what its body emits: ILLEGAL emits nothing. -/
theorem withChecks_emits {body : ExReal → Result} (h : withChecks Config.cfg c tv form s body = .next s')
    (hbody : ∀ t, Config.cfg.hasChannel c = true → body t = .next s' → Emits t s s') : EmitsAtItsTime tv s s' := by
  obtain rfl | ⟨t, hc, -, ht, -, hnext⟩ := withChecks_next h
  · exact .inl rfl
  · exact .inr ⟨t, ht, hbody t hc hnext⟩

theorem setEnvelope_emits {f : Envelope → Envelope} (h : setEnvelope Config.cfg c o f s = .next s') :
    EmitsAtItsTime tv s s' := by
  obtain rfl | rfl := setEnvelope_next h <;> exact .inl rfl

theorem finish_emits {r : Except Refusal State} (h : finish r = .next s') (hr : ∀ u, r = .ok u → Emits t s u) :
    Emits t s s' := by
  obtain ⟨u, hu, rfl⟩ := finish_next h
  exact hr u hu

theorem routed_emits {ch : Channel} {evs : List Event} (h : routed s c t ch evs = .next s')
    (htime : ∀ ev ∈ evs, ev.time = t) (hgain : ∀ ev ∈ evs, ∀ c o, ev.param ≠ some (.gain c o)) : Emits t s s' := by
  obtain ⟨-, rfl⟩ := routed_next h
  exact emits_of_no_gain rfl htime hgain

@[simp] theorem methodEvent_time (m : Method) (p : Param) (v t : ExReal) : (methodEvent m p v t).time = t := by
  cases m <;> rfl

@[simp] theorem methodEvent_param (m : Method) (p : Param) (v t : ExReal) : (methodEvent m p v t).param = some p := by
  cases m <;> rfl

theorem egKeyon_emits {tag : BitVec 8} {kc : BitVec 5} (hs : s.Inv)
    (h : egKeyon Config.cfg c o tv tag kc s = .next s') : EmitsAtItsTime tv s s' :=
  withChecks_emits h fun _ _ hnext => finish_emits hnext fun _ hu => (keyOnEnvelope_emits hs hu).emits

theorem egKeyoff_emits {tag : BitVec 8} {kc : BitVec 5} (h : egKeyoff Config.cfg c o tv tag kc s = .next s') :
    EmitsAtItsTime tv s s' :=
  withChecks_emits h fun _ _ hnext => finish_emits hnext fun _ hu => (keyOffEnvelope_emits hu).emits

theorem execEgLevel_emits (h : execEgLevel c o tv s = .next s') : EmitsAtItsTime tv s s' :=
  withChecks_emits h fun t _ hnext => by
    split at hnext
    · cases hnext
      exact emits_of_events_eq rfl
    · cases hnext

theorem execOpSetfreq_emits {m : Method} {block : BitVec 3} {fn : BitVec 11}
    (h : execOpSetfreq c o tv m block fn s = .next s') : EmitsAtItsTime tv s s' :=
  withChecks_emits h fun t _ hnext => by
    split at hnext
    · cases hnext
      exact emits_of_events_eq rfl
    · simp only at hnext
      split at hnext
      · cases hnext
        exact emits_of_no_gain rfl (by simp) (by simp)
      · cases hnext

theorem useTwoOperators_emits {v : Fin 2} {n : BitVec 4} (h : useTwoOperators Config.cfg c v n t s = .next s') :
    Emits t s s' :=
  routed_emits h (by simp [alg2Events, Event.time]) (by simp [alg2Events, Event.param])

theorem execChUsealg_emits {view : View} {n : BitVec 4} (h : execChUsealg c tv view n s = .next s') :
    EmitsAtItsTime tv s s' :=
  withChecks_emits h fun t _ hnext => by
    cases view with
    | four => exact routed_emits hnext (by simp [alg4Events, Event.time]) (by simp [alg4Events, Event.param])
    | two0 => exact useTwoOperators_emits hnext
    | two1 => exact useTwoOperators_emits hnext

theorem execChSetfb_emits {m : Method} {amount : BitVec 3} (h : execChSetfb c o tv m amount s = .next s') :
    EmitsAtItsTime tv s s' :=
  withChecks_emits h fun t _ hnext => by
    split at hnext
    · cases hnext
    · exact routed_emits hnext (by simp) (by simp)

theorem execChSetpan_emits {m : Method} {p : BitVec 8} (h : execChSetpan c tv m p s = .next s') :
    EmitsAtItsTime tv s s' :=
  withChecks_emits h fun _ _ hnext => routed_emits hnext (by simp) (by simp)

/-- CH.DISOP emits the events of its sound-off (rule R183). -/
theorem execChDisop_emits (h : execChDisop c o tv s = .next s') : EmitsAtItsTime tv s s' :=
  withChecks_emits h fun t _ hnext => finish_emits hnext fun u hu => by
    cases hoff : soundOffEnvelope c o t s with
    | error r => simp [hoff, Except.map] at hu
    | ok v =>
      obtain rfl : v.setEnabled c o false = u := by simpa [hoff, Except.map] using hu
      exact (soundOffEnvelope_emits hoff).emits

/-- CH.STOP emits STOP events, which are on no parameter (rule R186). -/
theorem execChStop_emits (h : execChStop c tv s = .next s') : EmitsAtItsTime tv s s' :=
  withChecks_emits h fun t _ hnext => by
    cases hnext
    refine emits_of_no_gain
      (evs := [.stop c 0 (s.env c 0).srcTag t, .stop c 1 (s.env c 1).srcTag t, .stop c 2 (s.env c 2).srcTag t,
        .stop c 3 (s.env c 3).srcTag t])
      ?_ (by simp [Event.time]) (by simp [Event.param])
    simp [stopOperator, env_putEnv]

end

/-- What a command that has a next state emits (rules R70 to R72). -/
theorem exec_emits {i : Instr} {s s' : State} (hs : s.Inv) (h : exec i s = .next s') :
    EmitsAtItsTime i.timeValid s s' := by
  cases i with
  | egSetar | egSetdr | egSetsl | egSetsr | egSetrr | egSetrs =>
    simp only [exec] at h
    exact setEnvelope_emits h
  | egSetssg c o mode => exact setEnvelope_emits (f := (·.setMode (modeFlags Config.cfg mode))) h
  | egKeyon => exact egKeyon_emits hs h
  | egKeyoff => exact egKeyoff_emits h
  | egSoundoff =>
    exact withChecks_emits h fun _ _ hnext => finish_emits hnext fun _ hu => (soundOffEnvelope_emits hu).emits
  | egLevel => exact execEgLevel_emits h
  | opSetfreq => exact execOpSetfreq_emits h
  | opSetdt | chEnop =>
    exact withChecks_emits h fun _ _ hnext => by
      cases hnext
      exact emits_of_events_eq rfl
  | opKeyon => exact egKeyon_emits hs h
  | opKeyoff => exact egKeyoff_emits h
  | chUsealg => exact execChUsealg_emits h
  | chSetfb => exact execChSetfb_emits h
  | chSetpan => exact execChSetpan_emits h
  | chDisop => exact execChDisop_emits h
  | chKeyon c tv tag =>
    exact withChecks_emits h fun _ hc hnext => finish_emits hnext fun _ hu =>
      forOperators_emits hc (fun _ _ _ => keyOnIfEnabled_writes (i := .chKeyon c tv tag) (.inr (.inr ⟨tv, tag, rfl⟩)))
        (fun _ _ _ => keyOnIfEnabled_emits) hs hu
  | chKeyoff c tv tag =>
    exact withChecks_emits h fun _ hc hnext => finish_emits hnext fun _ hu =>
      forOperators_emits hc
        (fun _ _ _ => keyOffIfEnabled_writes (i := .chKeyoff c tv tag) (.inr (.inr ⟨tv, tag, rfl⟩)))
        (fun _ _ _ _ => keyOffIfEnabled_emits) hs hu
  | chSoundoff c tv =>
    exact withChecks_emits h fun _ hc hnext => finish_emits hnext fun _ hu =>
      forOperators_emits hc (fun _ _ _ => soundOffEnvelope_writes (i := .chSoundoff c tv) (.inr (.inr ⟨tv, rfl⟩)))
        (fun _ _ _ _ => soundOffEnvelope_emits) hs hu
  | chStop => exact execChStop_emits h

theorem newEvents_of_append {s s' : State} {evs : List Event} (h : s'.events = s.events ++ evs) :
    newEvents s s' = evs := by
  rw [newEvents, h, List.drop_left]

end Sys2Proof.Machine

namespace Sys2Proof.Proofs

open Sys2Proof Sys2Proof.Machine

/-- Settles O58: a command adds no event, or events that are scheduled at its time. -/
theorem eventsComeInTimeOrder : Obligations.EventsComeInTimeOrder := by
  intro i s s' hs h
  obtain hsame | ⟨t, ht, evs, hevs, horder, hhold⟩ := exec_emits hs h
  · have hnone : newEvents s s' = [] := newEvents_of_append (by simpa using hsame)
    rw [hnone]
    exact ⟨fun _ => .nil, fun _ _ => .inl rfl⟩
  · rw [newEvents_of_append hevs]
    exact ⟨horder, fun c o => (hhold c o).imp_right fun hhead => ⟨t, ht, hhead⟩⟩

end Sys2Proof.Proofs
end

section
/-!
LEMMAS. The timeline a sink keeps of a parameter (rule R66) after a CANCEL_HOLD and the SET that follows it: what was
in the stream before no longer matters, and events in time order are appended.
-/

namespace Sys2Proof.Machine

open Sys2Proof

/-! ### What an event adds to a timeline -/

/-- The timeline entry of an event, where it does not depend on the timeline: a CANCEL_HOLD's does, and a STOP has
none. -/
noncomputable def Event.entry : Event → Option SinkEvent
  | .set _ v t => some ⟨t.val, .set (some v.val)⟩
  | .linRamp _ v t => some ⟨t.val, .lin v.val⟩
  | .expRamp _ v t => some ⟨t.val, .exp v.val⟩
  | .target _ g t tc => some ⟨t.val, .target g.val tc.val⟩
  | .cancelHold _ _ | .stop _ _ _ _ => none

section

variable {p : Param} {ev : Event} {evs : List Event} {line : List SinkEvent} {x : SinkEvent} {t a : ℝ}

theorem sinkTake_of_entry (hp : ev.param = some p) (hx : ev.entry = some x) : sinkTake p line ev = insertEvent x line := by
  cases ev <;> simp_all [Event.param, Event.entry, sinkTake]

theorem Event.entry_time (hx : ev.entry = some x) : x.time = ev.time.val := by
  cases ev <;> cases hx <;> rfl

theorem sinkTake_of_param_ne (hp : ev.param ≠ some p) : sinkTake p line ev = line := by
  cases ev <;> simp_all [Event.param, sinkTake]

theorem foldl_sinkTake_of_param_ne (hp : ∀ ev ∈ evs, ev.param ≠ some p) : evs.foldl (sinkTake p) line = line := by
  induction evs with
  | nil => rfl
  | cons ev rest ih =>
    obtain ⟨hev, hrest⟩ := List.forall_mem_cons.mp hp
    rw [List.foldl_cons, sinkTake_of_param_ne hev, ih hrest]

/-- Events in time order, not before those of the timeline, are appended to it. -/
theorem foldl_sinkTake_inOrder (hp : ∀ ev ∈ evs, ev.param = some p) (hentry : ∀ ev ∈ evs, ev.entry.isSome)
    (horder : InOrderFrom t evs) (hline : ∀ x ∈ line, x.time ≤ t) :
    evs.foldl (sinkTake p) line = line ++ evs.filterMap Event.entry := by
  induction evs generalizing t line with
  | nil => simp
  | cons ev rest ih =>
    obtain ⟨hev, hrest⟩ := List.forall_mem_cons.mp hp
    obtain ⟨hsome, hentry⟩ := List.forall_mem_cons.mp hentry
    obtain ⟨hle, horder⟩ := inOrderFrom_cons.mp horder
    obtain ⟨x, hx⟩ := Option.isSome_iff_exists.mp hsome
    have htime := Event.entry_time hx
    have hlast : ∀ y ∈ line, y.time ≤ x.time := fun y hy => htime ▸ (hline y hy).trans hle
    have hline' : ∀ y ∈ line ++ [x], y.time ≤ ev.time.val := by
      simpa [or_imp, forall_and, htime] using fun y hy => (hline y hy).trans hle
    rw [List.foldl_cons, sinkTake_of_entry hev hx, insertEvent_last x line hlast, ih hrest hentry horder hline',
      List.filterMap_cons_some hx, List.append_assoc, List.singleton_append]

/-! ### Events after a given time -/

theorem insertEvent_append {rest : List SinkEvent} (hline : ∀ y ∈ line, y.time ≤ x.time) :
    insertEvent x (line ++ rest) = line ++ insertEvent x rest := by
  induction line with
  | nil => rfl
  | cons y line ih =>
    obtain ⟨hy, hline⟩ := List.forall_mem_cons.mp hline
    simp [insertEvent, hy, ih hline]

/-- An event later than `a` leaves the part of the timeline up to `a` as it is, a CANCEL_HOLD too. -/
theorem sinkTake_later {rest : List SinkEvent} (hev : ev.param = some p → a < ev.time.val)
    (hline : ∀ x ∈ line, x.time ≤ a) (hrest : ∀ x ∈ rest, a < x.time) :
    ∃ rest', sinkTake p (line ++ rest) ev = line ++ rest' ∧ ∀ x ∈ rest', a < x.time := by
  by_cases hp : ev.param = some p
  · have hlate := hev hp
    cases hx : ev.entry with
    | some x =>
      have htime := Event.entry_time hx
      refine ⟨insertEvent x rest, ?_, fun y hy => ?_⟩
      · rw [sinkTake_of_entry hp hx, insertEvent_append fun y hy => htime ▸ ((hline y hy).trans_lt hlate).le]
      · obtain rfl | hy := (mem_insertEvent ..).mp hy
        · exact htime ▸ hlate
        · exact hrest y hy
    | none =>
      cases ev with
      | cancelHold q t =>
        have hkept : line.filter (fun e => decide (e.time < t.val)) = line :=
          List.filter_eq_self.mpr fun y hy => decide_eq_true ((hline y hy).trans_lt hlate)
        refine ⟨_, by simp [sinkTake, Option.some.inj hp, hkept]; rfl, fun y hy => ?_⟩
        simp only [List.mem_append, List.mem_filter, List.mem_singleton] at hy
        obtain ⟨hy, -⟩ | rfl := hy
        · exact hrest y hy
        · exact hlate
      | _ => cases hx <;> cases hp
  · exact ⟨rest, sinkTake_of_param_ne hp, hrest⟩

theorem foldl_sinkTake_later {rest : List SinkEvent} (hevs : ∀ ev ∈ evs, ev.param = some p → a < ev.time.val)
    (hline : ∀ x ∈ line, x.time ≤ a) (hrest : ∀ x ∈ rest, a < x.time) :
    ∃ rest', evs.foldl (sinkTake p) (line ++ rest) = line ++ rest' ∧ ∀ x ∈ rest', a < x.time := by
  induction evs generalizing rest with
  | nil => exact ⟨rest, rfl, hrest⟩
  | cons ev evs ih =>
    obtain ⟨hev, hevs⟩ := List.forall_mem_cons.mp hevs
    obtain ⟨rest', htake, hrest'⟩ := sinkTake_later hev hline hrest
    rw [List.foldl_cons, htake]
    exact ih hevs hrest'

/-! ### Reading after a SET -/

/-- A SET passed makes everything before it irrelevant. -/
theorem SinkCursor.read_after_set {past rest : List SinkEvent} {v : Option ℝ} {u : ℝ} (hpast : ∀ x ∈ past, x.time ≤ t)
    (htu : t ≤ u) (c : SinkCursor) : c.read (past ++ ⟨t, .set v⟩ :: rest) u = (⟨t, v, none⟩ : SinkCursor).read rest u := by
  induction past generalizing c with
  | nil => rw [List.nil_append, read_past _ _ _ _ htu, pass_set]
  | cons y past ih =>
    obtain ⟨hy, hpast⟩ := List.forall_mem_cons.mp hpast
    rw [List.cons_append, read_past _ _ _ _ (hy.trans htu), ih hpast]

end

/-- The timeline after a CANCEL_HOLD at `t` (rule R66). -/
noncomputable def heldLine (line : List SinkEvent) (t : ℝ) : List SinkEvent :=
  line.filter (fun e => decide (e.time < t)) ++ [⟨t, .set (SinkCursor.start.read line t)⟩]

theorem sinkTake_cancelHold (p : Param) (line : List SinkEvent) (t : ExReal) :
    sinkTake p line (.cancelHold p t) = heldLine line t.val := by
  simp [sinkTake, heldLine]

theorem heldLine_time_le {line : List SinkEvent} {t : ℝ} : ∀ x ∈ heldLine line t, x.time ≤ t := by
  intro x hx
  simp only [heldLine, List.mem_append, List.mem_filter, decide_eq_true_eq, List.mem_singleton] at hx
  obtain ⟨-, hlt⟩ | rfl := hx
  · exact hlt.le
  · exact le_rfl

/-- After a CANCEL_HOLD and a SET at `t` a sink reads what follows from the value set at `t`, whatever was in the
stream before (rules R66, R67). -/
theorem sinkValue_after_hold (p : Param) (evs : List Event) (v t : ExReal) :
    ∃ line : List SinkEvent, (∀ x ∈ line, x.time ≤ t.val) ∧
      ∀ (later : List Event) (xs : List SinkEvent), later.foldl (sinkTake p) line = line ++ xs → ∀ u, t.val ≤ u →
        sinkValue p (evs ++ .cancelHold p t :: .set p v t :: later) u =
          (⟨t.val, some v.val, none⟩ : SinkCursor).read xs u := by
  have hset := insertEvent_last ⟨t.val, .set (some v.val)⟩ (heldLine (timeline p evs) t.val) heldLine_time_le
  refine ⟨heldLine (timeline p evs) t.val ++ [⟨t.val, .set (some v.val)⟩], ?_, fun later xs hlater u htu => ?_⟩
  · simpa [or_imp, forall_and] using heldLine_time_le
  · have htimeline : timeline p (evs ++ .cancelHold p t :: .set p v t :: later) =
        heldLine (timeline p evs) t.val ++ ⟨t.val, .set (some v.val)⟩ :: xs := by
      rw [timeline, List.foldl_append, List.foldl_cons, List.foldl_cons, ← timeline, sinkTake_cancelHold,
        sinkTake_of_entry rfl rfl, hset, hlater, List.append_assoc, List.singleton_append]
    rw [sinkValue, htimeline, SinkCursor.read_after_set heldLine_time_le htu]

end Sys2Proof.Machine
end

section
/-!
LEMMAS. The level of a note over the real numbers, from its key-on on (rules R129 to R132), and what a key-on fixes of it
(rules R123 to R125).
-/

namespace Sys2Proof.Machine

open Sys2Proof

section

variable {cfg : Cfg} {e : Envelope} {a s t u : ExReal}

/-! ### The level in the attack and after it -/

/-- The approach of rule R131, which `Level` clamps: from `b` towards `g` with time constant `tc`, `x` seconds in. -/
noncomputable def approachAt (g b tc x : ℝ) : ℝ := g - (g - b) * Real.exp (-x / tc)

/-- Until it reaches 1023 the approach stays between its begin level and 1023. -/
theorem approachAt_mem {g b tc x : ℝ} (hb : b ≤ 1023) (hg : 1023 < g) (htc : 0 < tc) (hx : 0 ≤ x)
    (hend : x ≤ tc * Real.log ((g - b) / (g - 1023))) : b ≤ approachAt g b tc x ∧ approachAt g b tc x ≤ 1023 := by
  have hgb : 0 < g - b := by linarith
  have hratio : 0 < (g - b) / (g - 1023) := div_pos hgb (by linarith)
  have hle_one : Real.exp (-x / tc) ≤ 1 := Real.exp_le_one_iff.mpr (div_nonpos_of_nonpos_of_nonneg (by linarith) htc.le)
  have hexp : (g - 1023) / (g - b) ≤ Real.exp (-x / tc) := by
    rw [← inv_div, ← Real.exp_log hratio, ← Real.exp_neg, Real.exp_le_exp, neg_div, neg_le_neg_iff]
    exact (div_le_iff₀' htc).mpr hend
  have hlow : (g - b) * Real.exp (-x / tc) ≤ (g - b) * 1 := mul_le_mul_of_nonneg_left hle_one hgb.le
  have hhigh : g - 1023 ≤ (g - b) * Real.exp (-x / tc) := (div_le_iff₀' hgb).mp hexp
  unfold approachAt
  constructor <;> linarith

theorem attackLevel_of_no_rate (h : e.prevAttackRate = 0) : e.attackLevel cfg t = e.beginLevel := by
  simp [Envelope.attackLevel, h]

theorem attackLevel_val (h : e.prevAttackRate ≠ 0) :
    (e.attackLevel cfg t).val = max 0 (min 1023 (approachAt (cfg.data.attackTarget e.prevAttackRate).val
      e.beginLevel.val (tau cfg e.prevAttackRate).val (t.val - e.beginAttack.val))) := by
  have hexponent : (ExReal.scale (-1) (ExReal.divBy (ExReal.minus t e.beginAttack) (tau cfg e.prevAttackRate))).val =
      -(t.val - e.beginAttack.val) / (tau cfg e.prevAttackRate).val := by
    simp only [ExReal.val_scale, ExReal.val_divBy, ExReal.val_minus]
    push_cast
    ring
  rw [Envelope.attackLevel, if_neg h]
  simp only
  rw [ExReal.val_clamp _ _ _ (by norm_num)]
  simp [hexponent, approachAt, -neg_sub]

theorem noteLevel_of_endless (ha : e.endAttack = .inf) : e.noteLevel cfg t = e.attackLevel cfg t := by
  simp [Envelope.noteLevel, ha]

theorem noteLevel_in_attack (ha : e.endAttack = .fin a) (h : t.val < a.val) :
    e.noteLevel cfg t = e.attackLevel cfg t := by
  simp [Envelope.noteLevel, ha, h]

theorem noteLevel_after_attack (ha : e.endAttack = .fin a) (h : a.val ≤ t.val) :
    (e.noteLevel cfg t).val =
      if e.snapInv then 1023 - (e.post a (ExReal.minus t a)).val else (e.post a (ExReal.minus t a)).val := by
  have hlt : ExReal.lt t a = false := (ExReal.lt_eq_false_iff ..).mpr h
  simp only [Envelope.noteLevel, ha, hlt, Bool.false_eq_true, if_false]
  split <;> simp

theorem post_of_plain (h : e.snapSSG = false) : e.post a s = e.baseProfile a s := by
  simp [Envelope.post, h]

/-- The base profile denotes that of rule R129 over the reals. -/
theorem baseProfile_val : (e.baseProfile a s).val = e.profile a.val s.val := by
  unfold Envelope.baseProfile Envelope.profile
  cases e.endDecay with
  | inf => simp
  | fin d =>
    by_cases hdecay : s.val < d.val - a.val
    · simp [hdecay]
    · cases e.endSustain with
      | inf => simp [hdecay]
      | fin q => by_cases hsustain : s.val < q.val - a.val <;> simp [hdecay, hsustain]

/-! ### Phases that take no time -/

/-- A decay or a sustain that takes no time has no way to go (rules R124, R125). -/
structure Envelope.RampsMeet (e : Envelope) : Prop where
  decay : ∀ a d, e.endAttack = .fin a → e.endDecay = .fin d → a = d ∧ e.snapSL = 1023#10 ∨ a.val < d.val
  sustain : ∀ d q, e.endDecay = .fin d → e.endSustain = .fin q → d = q ∧ e.snapSL = 0 ∨ d.val < q.val

theorem keyOn_rampsMeet (cfg : Cfg) (e : Envelope) (tag : BitVec 8) (kc : BitVec 5) (t b : ExReal) :
    (e.keyOn cfg tag kc t b).RampsMeet where
  decay a d ha hd := by
    refine lt_of_decayEnd_eq cfg (decayRate := e.decayRate) (adj := rateAdjust kc e.rateScaling) ?_
    rw [← ha]
    exact hd
  sustain d q hd hq := by
    refine lt_of_sustainEnd_eq cfg (sustainRate := e.sustainRate) (adj := rateAdjust kc e.rateScaling) ?_
    rw [← hd]
    exact hq

/-- The base profile begins at 1023. -/
theorem profile_zero (hr : e.RampsMeet) (ha : e.endAttack = .fin a) : e.profile a.val 0 = 1023 := by
  unfold Envelope.profile
  split
  · rfl
  · next d hd =>
    split
    · simp
    · next hge =>
      obtain ⟨rfl, hsl⟩ | hlt := hr.decay a d ha hd
      · split
        · simp [hsl]
        · next q hq =>
          obtain ⟨-, hzero⟩ | hlt := hr.sustain a q hd hq
          · exact absurd (hsl.symm.trans hzero) (by decide)
          · simp [hsl, hlt]
      · exact absurd (sub_pos.mpr hlt) hge

theorem cyclePosition_zero {p : ExReal} (hs : s.val = 0) : (cyclePosition s p).val = 0 := by
  simp [cyclePosition, cycleNumber, hs]

/-- The ramp after the attack begins at 1023, with SSG and without. -/
theorem post_zero (he : e.Inv) (hr : e.RampsMeet) (ha : e.endAttack = .fin a) (hs : s.val = 0) :
    (e.post a s).val = 1023 := by
  have hbase : ∀ x : ExReal, x.val = 0 → (e.baseProfile a x).val = 1023 := fun x hx => by
    rw [baseProfile_val, hx, profile_zero hr ha]
  unfold Envelope.post
  split
  · exact hbase s hs
  · exact hbase s hs
  · next q hssg hq =>
    have hlt : s.val < (ExReal.minus q a).val := by
      simpa [hs] using he.cycle_length hssg a q ha hq
    have hcycle := hbase _ (cyclePosition_zero (p := ExReal.minus q a) hs)
    simp only
    split
    · exact hbase s hs
    · rw [if_pos ((ExReal.lt_iff ..).mpr hlt)]
      exact hbase s hs
    · exact hcycle
    · rw [if_pos (by simp [cycleNumber, hs])]
      exact hcycle

/-- The level at the end of the attack: full, and 0 where it is inverted. -/
theorem noteLevel_at_endAttack (he : e.Inv) (hr : e.RampsMeet) (ha : e.endAttack = .fin a) (h : u.val = a.val) :
    (e.noteLevel cfg u).val = if e.snapInv then 0 else 1023 := by
  rw [noteLevel_after_attack ha h.ge, post_zero he hr ha (by simp [h])]
  norm_num

/-- After its attack a plain note has the level of the base profile. -/
theorem noteLevel_of_plain (he : e.Inv) (hssg : e.snapSSG = false) (ha : e.endAttack = .fin a) (h : a.val ≤ u.val) :
    (e.noteLevel cfg u).val = e.profile a.val (u.val - a.val) := by
  simp [noteLevel_after_attack ha h, (he.copies hssg).1, post_of_plain hssg, baseProfile_val]

/-! ### The attack a key-on plans -/

theorem rateCode_ne_zero {r : BitVec 5} (hr : r ≠ 0) (adj off : Nat) : rateCode r adj off ≠ 0 := by
  have hpos : 0 < r.toNat := Nat.pos_of_ne_zero fun h => hr (BitVec.eq_of_toNat_eq h)
  intro h
  have hzero : min 63 (2 * r.toNat + off + adj) % 64 = 0 := congrArg BitVec.toNat h
  omega

/-- When an approach from `b` at `t` reaches 1023 (rule R123 (c)). -/
def approachEnd (cfg : Cfg) (t b : ExReal) (code : BitVec 6) : ExReal :=
  let g := cfg.data.attackTarget code
  ExReal.plus t (ExReal.times (tau cfg code)
    (ExReal.lnOf (ExReal.divBy (ExReal.minus g b) (ExReal.minus g (.rat 1023)))))

theorem approachEnd_val (cfg : Cfg) (t b : ExReal) (code : BitVec 6) :
    (approachEnd cfg t b code).val = t.val + (tau cfg code).val *
      Real.log (((cfg.data.attackTarget code).val - b.val) / ((cfg.data.attackTarget code).val - 1023)) := by
  simp [approachEnd]

/-- The three attacks of rule R123, in a keyed note: skipped, endless, or an approach that reaches 1023 at
`endAttack`. -/
inductive Envelope.Attack (cfg : Cfg) (e : Envelope) : Prop
  | skipped (hend : e.endAttack = .fin e.beginAttack)
  | endless (hrate : e.prevAttackRate = 0) (hend : e.endAttack = .inf)
  | approach (hrate : e.prevAttackRate ≠ 0) (hinv : e.snapInv = false)
      (hend : e.endAttack = .fin (approachEnd cfg e.beginAttack e.beginLevel e.prevAttackRate))

theorem keyOn_attack (cfg : Cfg) (e : Envelope) (tag : BitVec 8) (kc : BitVec 5) (t b : ExReal) :
    (e.keyOn cfg tag kc t b).Attack cfg := by
  by_cases hinv : e.inverted = true
  · exact .skipped (by simp [Envelope.keyOn, attackPlan, hinv])
  · by_cases hrate : e.attackRate = 0
    · refine .endless ?_ ?_ <;> simp [Envelope.keyOn, attackPlan, hinv, hrate]
    · have hplan : attackPlan cfg t b e.attackRate e.inverted (rateAdjust kc e.rateScaling) =
          ⟨true, rateCode e.attackRate (rateAdjust kc e.rateScaling) 0,
            .fin (approachEnd cfg t b (rateCode e.attackRate (rateAdjust kc e.rateScaling) 0))⟩ := by
        rw [attackPlan, if_neg hinv, if_neg hrate, approachEnd]
      have hcode : (e.keyOn cfg tag kc t b).prevAttackRate = _ := congrArg AttackPlan.prevAttackRate hplan
      refine .approach ?_ (Bool.eq_false_iff.mpr hinv) ?_
      · rw [hcode]
        exact rateCode_ne_zero hrate (rateAdjust kc e.rateScaling) 0
      · rw [hcode]
        exact congrArg AttackPlan.endAttack hplan

/-- While it lasts, the level of an approach is the approach itself: the clamp does nothing. -/
theorem attackLevel_of_approach (he : e.Inv) (hrate : e.prevAttackRate ≠ 0) (htu : e.beginAttack.val ≤ u.val)
    (hend : u.val ≤ (approachEnd cfg e.beginAttack e.beginLevel e.prevAttackRate).val) :
    (e.attackLevel cfg u).val = approachAt (cfg.data.attackTarget e.prevAttackRate).val e.beginLevel.val
      (tau cfg e.prevAttackRate).val (u.val - e.beginAttack.val) := by
  obtain ⟨hzero, hfull⟩ := he.begin_level
  rw [approachEnd_val] at hend
  obtain ⟨hlow, hhigh⟩ := approachAt_mem hfull (Laws.attackTarget_gt cfg e.prevAttackRate)
    (Laws.tau_pos cfg e.prevAttackRate) (sub_nonneg.mpr htu) (by linarith)
  rw [attackLevel_val hrate, min_eq_right hhigh, max_eq_right (hzero.trans hlow)]

end

end Sys2Proof.Machine
end

section
/-!
LEMMAS. What a sink reads from the events of a key-on, a key-off and a sound-off (rules R66, R67, R128, R136, R138): the
level over 1023.
-/

namespace Sys2Proof.Machine

open Sys2Proof

@[simp] theorem gainOf_val (level : ExReal) : (gainOf level).val = level.val / 1023 := by
  simp [gainOf, div_eq_inv_mul]

/-! ### Ramps -/

section

variable {t0 t1 v0 v1 u : ℝ} {rest : List SinkEvent}

theorem SinkCursor.read_in_ramp (h : u < t1) :
    (⟨t0, some v0, none⟩ : SinkCursor).read (⟨t1, .lin v1⟩ :: rest) u =
      some (v0 + (v1 - v0) * (u - t0) / (t1 - t0)) :=
  read_ahead _ _ _ _ h

theorem SinkCursor.read_past_ramp (h : t1 ≤ u) (c : SinkCursor) :
    c.read (⟨t1, .lin v1⟩ :: rest) u = (⟨t1, some v1, none⟩ : SinkCursor).read rest u := by
  rw [read_past _ _ _ _ h, pass_lin]

end

section

variable {e : Envelope} {p : Param} {a d u : ExReal}

/-- From the end of the decay on a sink reads the base profile of the note. -/
theorem read_sustainEvents (hr : e.RampsMeet) (hd : e.endDecay = .fin d) (h : d.val ≤ u.val) (a : ℝ) :
    (⟨d.val, some (e.snapSL.toNat / 1023), none⟩ : SinkCursor).read
      ((sustainEvents p d e).filterMap Event.entry) u.val = some (e.profile a (u.val - a) / 1023) := by
  have hended : ¬u.val < d.val := not_lt.mpr h
  cases hq : e.endSustain with
  | inf => simp [sustainEvents, hq, Envelope.profile, hd, hended, SinkCursor.between]
  | fin q =>
    obtain ⟨rfl, hsl⟩ | hlt := hr.sustain d q hd hq
    · simp [sustainEvents, hq, Envelope.profile, hd, hended, hsl, SinkCursor.between]
    · simp only [sustainEvents, hq, (ExReal.lt_iff ..).mpr hlt, if_true, List.filterMap_cons, Event.entry,
        List.filterMap_nil]
      by_cases huq : u.val < q.val
      · rw [SinkCursor.read_in_ramp huq]
        simp [Envelope.profile, hd, hq, hended, huq]
        ring
      · rw [SinkCursor.read_past_ramp (not_lt.mp huq)]
        simp [Envelope.profile, hd, hq, hended, huq, SinkCursor.between]

/-- From the end of the attack on a sink reads the base profile of a plain note. -/
theorem read_rampEvents (hr : e.RampsMeet) (ha : e.endAttack = .fin a) (h : a.val ≤ u.val) :
    (⟨a.val, some 1, none⟩ : SinkCursor).read ((rampEvents p e).filterMap Event.entry) u.val =
      some (e.profile a.val (u.val - a.val) / 1023) := by
  cases hd : e.endDecay with
  | inf => simp [rampEvents, ha, hd, Envelope.profile, SinkCursor.between]
  | fin d =>
    rw [rampEvents_of_decay ha hd]
    obtain ⟨rfl, hsl⟩ | hlt := hr.decay a d ha hd
    · have hfull : (1 : ℝ) = e.snapSL.toNat / 1023 := by simp [hsl]
      rw [if_neg (by simp), List.nil_append, hfull]
      exact read_sustainEvents hr hd h a.val
    · have hramp : Event.entry (.linRamp p (gainOf (.rat e.snapSL.toNat)) d) =
          some ⟨d.val, .lin (e.snapSL.toNat / 1023)⟩ := by simp [Event.entry]
      rw [if_pos ((ExReal.lt_iff ..).mpr hlt), List.singleton_append, List.filterMap_cons_some hramp]
      by_cases hud : u.val < d.val
      · rw [SinkCursor.read_in_ramp hud]
        simp [Envelope.profile, hd, hud]
        ring
      · rw [SinkCursor.read_past_ramp (not_lt.mp hud)]
        exact read_sustainEvents hr hd (not_lt.mp hud) a.val

end

/-! ### The attack -/

section

variable {cfg : Cfg} {e : Envelope} {p : Param} {a t u : ExReal} {rest : List SinkEvent}

theorem attackEvents_of_approach (hrate : e.prevAttackRate ≠ 0) (ha : e.endAttack = .fin a) (hlt : t.val < a.val) :
    attackEvents cfg p t e =
      [.target p (gainOf (cfg.data.attackTarget e.prevAttackRate)) t (tau cfg e.prevAttackRate), .set p (.rat 1) a] := by
  simp only [attackEvents, ha]
  rw [if_pos ⟨hrate, (ExReal.lt_iff ..).mpr hlt⟩]

theorem attackEvents_of_ended (ha : e.endAttack = .fin a) (hle : a.val ≤ t.val) : attackEvents cfg p t e = [] := by
  simp only [attackEvents, ha]
  rw [if_neg fun h => hle.not_gt ((ExReal.lt_iff ..).mp h.2)]

/-- An attack that takes time is an approach. -/
theorem Envelope.Attack.of_lt (h : e.Attack cfg) (ha : e.endAttack = .fin a) (hlt : e.beginAttack.val < a.val) :
    e.prevAttackRate ≠ 0 ∧ e.snapInv = false ∧
      a = approachEnd cfg e.beginAttack e.beginLevel e.prevAttackRate := by
  cases h with
  | skipped hend =>
    obtain rfl := ETime.fin.inj (ha.symm.trans hend)
    exact absurd hlt (lt_irrefl _)
  | endless hrate hend => exact absurd (ha.symm.trans hend) (by simp)
  | approach hrate hinv hend => exact ⟨hrate, hinv, ETime.fin.inj (ha.symm.trans hend)⟩

/-- The level of an approach begins at the begin level. -/
theorem noteLevel_of_approach (he : e.Inv) (hattack : e.Attack cfg) (ha : e.endAttack = .fin a)
    (htu : e.beginAttack.val ≤ u.val) (hua : u.val < a.val) :
    (e.noteLevel cfg u).val = approachAt (cfg.data.attackTarget e.prevAttackRate).val e.beginLevel.val
      (tau cfg e.prevAttackRate).val (u.val - e.beginAttack.val) := by
  obtain ⟨hrate, -, rfl⟩ := hattack.of_lt ha (htu.trans_lt hua)
  rw [noteLevel_in_attack ha hua, attackLevel_of_approach he hrate htu hua.le]

/-- During the attack a sink that was set to the level at the key-on reads the level. -/
theorem read_attackEvents_during (he : e.Inv) (hattack : e.Attack cfg) (ha : e.endAttack = .fin a)
    (htu : e.beginAttack.val ≤ u.val) (hua : u.val < a.val) :
    (⟨e.beginAttack.val, some ((e.noteLevel cfg e.beginAttack).val / 1023), none⟩ : SinkCursor).read
      ((attackEvents cfg p e.beginAttack e).filterMap Event.entry ++ rest) u.val =
        some ((e.noteLevel cfg u).val / 1023) := by
  have hlt := htu.trans_lt hua
  obtain ⟨hrate, -, -⟩ := hattack.of_lt ha hlt
  rw [attackEvents_of_approach hrate ha hlt, noteLevel_of_approach he hattack ha htu hua,
    noteLevel_of_approach he hattack ha le_rfl hlt]
  simp only [List.filterMap_cons, Event.entry, List.filterMap_nil, List.cons_append, List.nil_append]
  rw [SinkCursor.read_past _ _ _ _ htu, SinkCursor.read_ahead _ _ _ _ hua]
  simp [SinkCursor.pass, SinkCursor.between, approachAt]
  ring

/-- From the end of the attack on a sink that was set to the level at the key-on reads what follows from the level
there: full, and 0 where it is inverted. -/
theorem read_attackEvents_after (he : e.Inv) (hr : e.RampsMeet) (hattack : e.Attack cfg) (ha : e.endAttack = .fin a)
    (hau : a.val ≤ u.val) :
    (⟨e.beginAttack.val, some ((e.noteLevel cfg e.beginAttack).val / 1023), none⟩ : SinkCursor).read
      ((attackEvents cfg p e.beginAttack e).filterMap Event.entry ++ rest) u.val =
        (⟨a.val, some (if e.snapInv then 0 else 1), none⟩ : SinkCursor).read rest u.val := by
  have hta : e.beginAttack.val ≤ a.val := by simpa [ha] using he.attack_end
  obtain hlt | heq := hta.lt_or_eq
  · obtain ⟨hrate, hinv, -⟩ := hattack.of_lt ha hlt
    rw [attackEvents_of_approach hrate ha hlt]
    simp only [List.filterMap_cons, Event.entry, List.filterMap_nil, List.cons_append, List.nil_append]
    rw [SinkCursor.read_past _ _ _ _ (hta.trans hau), SinkCursor.read_past _ _ _ _ hau, SinkCursor.pass_set]
    simp [hinv]
  · rw [attackEvents_of_ended ha heq.ge, noteLevel_at_endAttack he hr ha heq, List.filterMap_nil, List.nil_append, heq]
    split <;> norm_num

end

/-! ### The timeline of a note -/

section

variable {cfg : Cfg} {c : Fin 16} {o : Fin 4} {e : Envelope} {p : Param} {a t : ExReal} {line : List SinkEvent}

theorem attackEvents_entry : ∀ ev ∈ attackEvents cfg p t e, ev.entry.isSome := by
  intro ev hev
  obtain ⟨g, tc, rfl⟩ | ⟨a, -, rfl⟩ := mem_attackEvents hev <;> rfl

theorem rampEvents_entry : ∀ ev ∈ rampEvents p e, ev.entry.isSome := by
  intro ev hev
  obtain ⟨v, t, rfl⟩ := mem_rampEvents hev
  rfl

/-- The attack's events are appended to a timeline that ends by the key-on; then it ends by `endAttack`. -/
theorem foldl_attackEvents (he : e.Inv) (ha : e.endAttack = .fin a) (hline : ∀ x ∈ line, x.time ≤ e.beginAttack.val) :
    (attackEvents cfg (.gain c o) e.beginAttack e).foldl (sinkTake (.gain c o)) line =
        line ++ (attackEvents cfg (.gain c o) e.beginAttack e).filterMap Event.entry ∧
      ∀ x ∈ line ++ (attackEvents cfg (.gain c o) e.beginAttack e).filterMap Event.entry, x.time ≤ a.val := by
  have hta : e.beginAttack.val ≤ a.val := by simpa [ha] using he.attack_end
  refine ⟨foldl_sinkTake_inOrder (fun _ => attackEvents_param) attackEvents_entry (attackEvents_inOrder he) hline,
    fun x hx => ?_⟩
  obtain hx | hx := List.mem_append.mp hx
  · exact (hline x hx).trans hta
  · obtain ⟨ev, hev, hentry⟩ := List.mem_filterMap.mp hx
    rw [Event.entry_time hentry]
    obtain ⟨g, tc, rfl⟩ | ⟨a', ha', rfl⟩ := mem_attackEvents hev
    · exact hta
    · obtain rfl := ETime.fin.inj (ha.symm.trans ha')
      exact le_rfl

/-- The unspecified events of an SSG note come after `endAttack`. -/
theorem lt_time_of_mem_tail (a : ExReal) (tail : List Config.TailEvent) :
    ∀ ev ∈ tailEvents p a (startsLater tail), a.val < ev.time.val := by
  induction tail with
  | nil => simp [startsLater, tailEvents]
  | cons x rest ih =>
    by_cases hdelay : 0 < x.delay.val
    · have hstart : startsLater (x :: rest) = x :: rest := by simp [startsLater, hdelay]
      have horder := tailEvents_inOrder (p := p) (ExReal.plus a x.delay) rest
      have hhead : ExReal.lt x.delay (.rat 0) = false := by simpa [ExReal.lt_eq_false_iff] using hdelay.le
      have hlt : a.val < (ExReal.plus a x.delay).val := by simpa using hdelay
      rw [hstart]
      simp only [tailEvents, hhead, Bool.false_eq_true, if_false, List.mem_cons]
      rintro ev (rfl | hev)
      · cases x.action <;> exact hlt
      · exact hlt.trans_le (horder.forall_le ev hev)
    · have hskip : startsLater (x :: rest) = startsLater rest := by
        simp [startsLater, List.dropWhile_cons, not_lt.mp hdelay]
      rw [hskip]
      exact ih

/-- The timeline of a keyed note after its attack: the ramps of a plain note, and for an SSG note events later than
`endAttack`. -/
theorem foldl_noteEvents (he : e.Inv) (ha : e.endAttack = .fin a) (free : Nat)
    (hline : ∀ x ∈ line, x.time ≤ e.beginAttack.val) :
    ∃ rest, (attackEvents cfg (.gain c o) e.beginAttack e ++ afterAttackEvents c o free e).foldl
          (sinkTake (.gain c o)) line =
        line ++ ((attackEvents cfg (.gain c o) e.beginAttack e).filterMap Event.entry ++ rest) ∧
      (e.snapSSG = false → rest = (rampEvents (.gain c o) e).filterMap Event.entry) ∧
      (e.snapSSG = true → ∀ x ∈ rest, a.val < x.time) := by
  obtain ⟨hattack, hended⟩ := foldl_attackEvents (cfg := cfg) (c := c) (o := o) he ha hline
  rw [List.foldl_append, hattack]
  cases hssg : e.snapSSG with
  | false =>
    have hafter : afterAttackEvents c o free e = rampEvents (.gain c o) e := by simp [afterAttackEvents, hssg]
    refine ⟨_, ?_, fun _ => rfl, by simp⟩
    rw [hafter, ← List.append_assoc]
    exact foldl_sinkTake_inOrder (fun _ => rampEvents_param) rampEvents_entry (rampEvents_inOrder he ha) hended
  | true =>
    have hafter : afterAttackEvents c o free e = tailEvents (.gain c o) a (startsLater (Config.ssgTail c free)) := by
      simp [afterAttackEvents, hssg, ha]
    obtain ⟨rest, hfold, hrest⟩ := foldl_sinkTake_later (p := .gain c o)
      (fun ev hev _ => lt_time_of_mem_tail a (Config.ssgTail c free) ev hev) hended (rest := []) (by simp)
    refine ⟨rest, ?_, by simp, fun _ => hrest⟩
    rw [hafter, ← List.append_assoc, ← hfold, List.append_nil]

theorem foldl_sinkTake_stopEvents {tag : BitVec 8} {x : ETime} :
    (stopEvents c o tag x).foldl (sinkTake p) line = line :=
  foldl_sinkTake_of_param_ne fun _ hev => by simp [stopEvents_param hev]

end

/-! ### The three keying operations -/

section

variable {cfg : Cfg} {c : Fin 16} {o : Fin 4} {e : Envelope} {t u : ExReal}

/-- A sink reads the level of a keyed note from its key-on on; of an SSG note, up to the end of its attack. -/
theorem sinkValue_keyOn (he : e.Inv) (hr : e.RampsMeet) (hattack : e.Attack cfg) (evs : List Event) (free : Nat)
    (htu : e.beginAttack.val ≤ u.val) (hssg : e.snapSSG = true → (u.val : EReal) ≤ e.endAttack.val) :
    sinkValue (.gain c o) (evs ++ keyOnEvents cfg c o e.beginAttack free e) u.val =
      some ((e.noteLevel cfg u).val / 1023) := by
  obtain ⟨line, hline, hread⟩ :=
    sinkValue_after_hold (.gain c o) evs (gainOf (e.noteLevel cfg e.beginAttack)) e.beginAttack
  have hevents : keyOnEvents cfg c o e.beginAttack free e =
      .cancelHold (.gain c o) e.beginAttack ::
        .set (.gain c o) (gainOf (e.noteLevel cfg e.beginAttack)) e.beginAttack ::
          (attackEvents cfg (.gain c o) e.beginAttack e ++ afterAttackEvents c o free e ++
            stopEvents c o e.srcTag e.stopTime) := by
    simp [keyOnEvents]
  rw [hevents]
  cases ha : e.endAttack with
  | inf =>
    have hnone : attackEvents cfg (.gain c o) e.beginAttack e ++ afterAttackEvents c o free e = [] := by
      simp [attackEvents, afterAttackEvents, rampEvents, ha]
    have hrate : e.prevAttackRate = 0 := by
      cases hattack with
      | endless hrate hend => exact hrate
      | skipped hend | approach _ _ hend => exact absurd (ha.symm.trans hend) (by simp)
    rw [hread _ [] (by rw [hnone, List.nil_append, foldl_sinkTake_stopEvents, List.append_nil]) _ htu]
    simp [SinkCursor.between, noteLevel_of_endless ha, attackLevel_of_no_rate hrate]
  | fin a =>
    obtain ⟨rest, hfold, hplain, hlater⟩ := foldl_noteEvents (cfg := cfg) (c := c) (o := o) he ha free hline
    rw [hread _ _ (by rw [List.foldl_append, hfold, foldl_sinkTake_stopEvents]) _ htu, gainOf_val]
    by_cases hua : u.val < a.val
    · exact read_attackEvents_during he hattack ha htu hua
    · have hau := not_lt.mp hua
      rw [read_attackEvents_after he hr hattack ha hau]
      cases hmode : e.snapSSG with
      | false =>
        rw [hplain hmode, (he.copies hmode).1, noteLevel_of_plain he hmode ha hau]
        exact read_rampEvents hr ha hau
      | true =>
        have heq : u.val = a.val := le_antisymm (by simpa [ha] using hssg hmode) hau
        rw [noteLevel_at_endAttack he hr ha heq, heq, SinkCursor.read_self _ _ (hlater hmode)]
        split <;> norm_num

/-- A release that takes no time is one from level 0 (rule R135). -/
theorem releaseEnd_eq {l r : ExReal} {releaseRate : BitVec 5} {adj : Nat} (hl : 0 ≤ l.val)
    (h : releaseEnd cfg t l releaseRate adj = .fin r) : l.val = 0 ∨ t.val < r.val := by
  unfold releaseEnd at h
  simp only at h
  split at h
  · next hzero => exact .inl (by simpa using hzero)
  · next hzero =>
    split at h
    · cases h
    · next hslope =>
      cases h
      have hpos : 0 < l.val := hl.lt_of_ne fun h0 => hzero (by simp [← h0])
      have hrate : (0 : ℝ) < incPerSec cfg (rateCode releaseRate adj 1) := by exact_mod_cast incPerSec_pos hslope
      right
      simpa using div_pos hpos hrate

/-- A ramp to 0 at the end of the release reads the level of rule R134. -/
theorem read_releaseRamp {r : ExReal} (hend : e.endRelease = .fin r) (hlt : e.beginRelease.val < r.val) :
    (⟨e.beginRelease.val, some (e.releaseLevel.val / 1023), none⟩ : SinkCursor).read [⟨r.val, .lin 0⟩] u.val =
      some ((e.releaseAt u).val / 1023) := by
  by_cases hur : u.val < r.val
  · have hne : r.val - e.beginRelease.val ≠ 0 := (sub_pos.mpr hlt).ne'
    rw [SinkCursor.read_in_ramp hur]
    simp [Envelope.releaseAt, hend, hur]
    field_simp
    ring
  · rw [SinkCursor.read_past_ramp (not_lt.mp hur)]
    simp [Envelope.releaseAt, hend, hur, SinkCursor.between]

/-- A sink reads the level of a release from its key-off on. -/
theorem sinkValue_keyOff (hzero : ∀ r, e.endRelease = .fin r → e.releaseLevel.val = 0 ∨ e.beginRelease.val < r.val)
    (evs : List Event) (htu : e.beginRelease.val ≤ u.val) :
    sinkValue (.gain c o) (evs ++ keyOffEvents c o e.beginRelease e) u.val = some ((e.releaseAt u).val / 1023) := by
  obtain ⟨line, hline, hread⟩ := sinkValue_after_hold (.gain c o) evs (gainOf e.releaseLevel) e.beginRelease
  have hconstant := hread (stopEvents c o e.srcTag e.endRelease) [] (by simp [foldl_sinkTake_stopEvents]) u.val htu
  cases hend : e.endRelease with
  | inf =>
    rw [hend] at hconstant
    simpa [keyOffEvents, hend, Envelope.releaseAt, SinkCursor.between] using hconstant
  | fin r =>
    by_cases hlt : e.beginRelease.val < r.val
    · have hinsert : insertEvent ⟨r.val, .lin 0⟩ line = line ++ [⟨r.val, .lin 0⟩] :=
        insertEvent_last _ _ fun x hx => (hline x hx).trans hlt.le
      have hramp := hread (.linRamp (.gain c o) (.rat 0) r :: stopEvents c o e.srcTag e.endRelease) [⟨r.val, .lin 0⟩]
        (by simp [foldl_sinkTake_stopEvents, sinkTake, hinsert]) u.val htu
      have hevents : keyOffEvents c o e.beginRelease e =
          .cancelHold (.gain c o) e.beginRelease :: .set (.gain c o) (gainOf e.releaseLevel) e.beginRelease ::
            .linRamp (.gain c o) (.rat 0) r :: stopEvents c o e.srcTag e.endRelease := by
        simp [keyOffEvents, hend, hlt]
      rw [hevents, hramp, gainOf_val]
      exact read_releaseRamp hend hlt
    · have hlevel := (hzero r hend).resolve_right hlt
      rw [hend] at hconstant
      have hended : ¬u.val < r.val := not_lt.mpr ((not_lt.mp hlt).trans htu)
      simpa [keyOffEvents, hend, Envelope.releaseAt, SinkCursor.between, hlt, hlevel, hended] using hconstant

/-- A sink reads 0 from a sound-off on. -/
theorem sinkValue_soundOff (evs : List Event) (htu : t.val ≤ u.val) :
    sinkValue (.gain c o) (evs ++ soundOffEvents c o t) u.val = some 0 := by
  obtain ⟨line, hline, hread⟩ := sinkValue_after_hold (.gain c o) evs (.rat 0) t
  simpa [soundOffEvents, SinkCursor.between] using hread [] [] (by simp) u.val htu

/-! ### The level that the registers give -/

theorem level_of_on (hkey : e.egKey = .on) (h : e.beginAttack.val ≤ u.val) :
    e.level cfg u = some (e.noteLevel cfg u) := by
  simp [Envelope.level, Envelope.keyedLevel, hkey, h]

theorem level_of_release (hkey : e.egKey = .off) (h : e.beginRelease.val ≤ u.val) :
    e.level cfg u = some (e.releaseAt u) := by
  simp [Envelope.level, hkey, h]

end

/-! ### The three commands -/

/-- A sink that reads the whole event stream of the gain at `u` sees `Level / 1023` (rule R67). -/
def SinkSeesLevel (s : State) (c : Fin 16) (o : Fin 4) (u : ExReal) : Prop :=
  ∃ x, s.level c o u = some x ∧ sinkValue (.gain c o) s.events u.val = some (x.val / 1023)

section

variable {c : Fin 16} {o : Fin 4} {tag : BitVec 8} {kc : BitVec 5} {tv : Bool} {t u : ExReal} {s s' : State}

/-- The next state of a ready command whose body may turn out UNDEFINED is the one its body leaves. -/
theorem withChecks_finish_next {r : ExReal → Except Refusal State} (hready : Ready s c tv t)
    (h : withChecks Config.cfg c tv true s (fun t => finish (r t)) = .next s') :
    ∃ v, r t = .ok v ∧ s' = v.respond .ok (.rat 0) := by
  obtain ⟨hc, ht, hstopped⟩ := hready
  rw [withChecks_pass hc rfl ht hstopped] at h
  exact finish_next h

theorem sinkSeesLevel_keyOn (hs : s.Inv) (hready : Ready s c tv t) (htu : t.val ≤ u.val)
    (h : exec (.egKeyon c o tv tag kc) s = .next s')
    (hssg : (s.env c o).ssgEnabled = true → (u.val : EReal) ≤ (s'.env c o).endAttack.val) : SinkSeesLevel s' c o u := by
  obtain ⟨v, hv, rfl⟩ := withChecks_finish_next hready h
  obtain ⟨b, horder, hlevel, rfl⟩ := keyOnEnvelope_ok hv
  have he := (hs.env c o).keyOn (cfg := Config.cfg) horder (level_inLevelRange _ (hs.env c o) hlevel) tag kc
  rw [respond_env, keyedOn_env, env_putEnv_same] at hssg
  refine ⟨((s.env c o).keyOn Config.cfg tag kc t b).noteLevel Config.cfg u, ?_, ?_⟩
  · rw [State.level, respond_env, keyedOn_env, env_putEnv_same]
    exact level_of_on rfl htu
  · rw [respond_events, keyedOn_events]
    exact sinkValue_keyOn he (keyOn_rampsMeet ..) (keyOn_attack ..) s.events _ htu hssg

theorem sinkSeesLevel_keyOff (hs : s.Inv) (hready : Ready s c tv t) (htu : t.val ≤ u.val)
    (h : exec (.egKeyoff c o tv tag kc) s = .next s') : SinkSeesLevel s' c o u := by
  obtain ⟨v, hv, rfl⟩ := withChecks_finish_next hready h
  obtain ⟨l, horder, hlevel, rfl⟩ := keyOffEnvelope_ok hv
  have hl := level_inLevelRange _ (hs.env c o) hlevel
  refine ⟨((s.env c o).keyOff Config.cfg tag kc t l).releaseAt u, ?_, ?_⟩
  · rw [State.level, respond_env, emit_env, env_putEnv_same]
    exact level_of_release rfl htu
  · exact sinkValue_keyOff (e := (s.env c o).keyOff Config.cfg tag kc t l) (fun _ hr => releaseEnd_eq hl.1 hr)
      s.events htu

theorem sinkSeesLevel_soundOff (hready : Ready s c tv t) (htu : t.val ≤ u.val)
    (h : exec (.egSoundoff c o tv) s = .next s') : SinkSeesLevel s' c o u := by
  obtain ⟨v, hv, rfl⟩ := withChecks_finish_next hready h
  obtain ⟨horder, rfl⟩ := soundOffEnvelope_ok hv
  refine ⟨((s.env c o).soundOff t).releaseAt u, ?_, ?_⟩
  · rw [State.level, respond_env, emit_env, env_putEnv_same]
    exact level_of_release rfl htu
  · have hsilent : (((s.env c o).soundOff t).releaseAt u).val = 0 := by
      simp [Envelope.releaseAt, Envelope.soundOff, not_lt.mpr htu]
    rw [hsilent, zero_div]
    exact sinkValue_soundOff s.events htu

end

end Sys2Proof.Machine

namespace Sys2Proof.Proofs

open Sys2Proof Sys2Proof.Machine

/-- Settles O59: the CANCEL_HOLD and the SET at the command's time make the earlier stream irrelevant, and from there the
events draw the level: the approach of the attack, the ramps of the decay, the sustain and the release. -/
theorem sinkReadsTheLevel : Obligations.SinkReadsTheLevel := by
  intro s s' c o tv tag kc t u hs hready htu h
  obtain ⟨hon, hssg⟩ | hoff | hsound := h
  · exact sinkSeesLevel_keyOn hs hready htu hon hssg
  · exact sinkSeesLevel_keyOff hs hready htu hoff
  · exact sinkSeesLevel_soundOff hready htu hsound

end Sys2Proof.Proofs
end

section
/-!
LEMMAS. The opcode map read field by field (rules R81, R86, R87): which bit fields each row fixes, that a word matches a
row exactly where these fields are as the row says, and that the decoder uses the one row that matches.
-/

namespace Sys2Proof

/-- The opcode of a row, bits 31:26 of its words. -/
@[simp] def Mnemonic.opcode : Mnemonic → Nat
  | .egSetar => 0x01 | .egSetdr => 0x02 | .egSetsl => 0x03 | .egSetsr => 0x04 | .egSetrr => 0x05 | .egSetrs => 0x06
  | .egSetssg => 0x07 | .egKeyon => 0x08 | .egKeyoff => 0x09 | .egSoundoff => 0x0A | .egLevel => 0x0B
  | .opSetfreq => 0x10 | .opSetdt => 0x11 | .opKeyon => 0x12 | .opKeyoff => 0x13 | .chUsealg => 0x18 | .chSetfb => 0x19
  | .chSetpan => 0x1A | .chEnop => 0x1B | .chDisop => 0x1C | .chKeyon => 0x1D | .chKeyoff => 0x1E | .chSoundoff => 0x1F
  | .chStop => 0x20

/-- The runs of must-be-zero bits of a row: first bit and width. -/
@[simp] def Mnemonic.zeroFields : Mnemonic → List (Nat × Nat)
  | .egSetar | .egSetdr | .egSetsr | .egSetrr => [(5, 15)]
  | .egSetsl => [(10, 10)]
  | .egSetrs => [(2, 18)]
  | .egSetssg => [(4, 16)]
  | .egKeyon | .egKeyoff => [(5, 3), (16, 3)]
  | .egSoundoff | .egLevel | .chDisop => [(0, 19)]
  | .opSetfreq => [(14, 3)]
  | .opSetdt => [(3, 17)]
  | .opKeyon | .opKeyoff => [(0, 8), (16, 3)]
  | .chUsealg => [(6, 13), (20, 2)]
  | .chSetfb => [(3, 14)]
  | .chSetpan => [(8, 9), (20, 2)]
  | .chEnop => [(0, 20)]
  | .chKeyon | .chKeyoff => [(0, 8), (16, 3), (20, 2)]
  | .chSoundoff | .chStop => [(0, 19), (20, 2)]

/-- The word has the row's opcode and its must-be-zero bits are zero. -/
def Mnemonic.Fits (m : Mnemonic) (w : Word) : Prop :=
  w.toNat / 2 ^ 26 = m.opcode ∧ ∀ f ∈ m.zeroFields, w.toNat / 2 ^ f.1 % 2 ^ f.2 = 0

/-- The word whose ones are the `len` bits from `first` on. -/
def fieldMask (first len : Nat) : Word := (BitVec.allOnes len).setWidth 32 <<< first

/-- Two words agree under the mask of a field exactly where the field holds one number in both. -/
theorem and_fieldMask_eq_iff (w v : Word) {first len : Nat} (hfit : first + len ≤ 32) :
    w &&& fieldMask first len = v &&& fieldMask first len ↔
      w.toNat / 2 ^ first % 2 ^ len = v.toNat / 2 ^ first % 2 ^ len := by
  have hfield : w.toNat / 2 ^ first % 2 ^ len = v.toNat / 2 ^ first % 2 ^ len ↔
      ∀ j < len, w.getLsbD (first + j) = v.getLsbD (first + j) := by
    simp only [← Nat.shiftRight_eq_div_pow, BitVec.getLsbD]
    constructor
    · intro h j hj
      simpa [hj] using congrArg (Nat.testBit · j) h
    · intro h
      refine Nat.eq_of_testBit_eq fun j => ?_
      by_cases hj : j < len
      · simp [hj, h j hj]
      · simp [hj]
  rw [hfield]
  constructor
  · intro h j hj
    have hbit := congrArg (BitVec.getLsbD · (first + j)) h
    simpa [fieldMask, hj, show first + j < 32 by omega, show j < 32 by omega] using hbit
  · intro h
    refine BitVec.eq_of_getLsbD_eq fun k hk => ?_
    by_cases hin : first ≤ k ∧ k - first < len
    · have := h (k - first) hin.2
      rw [show first + (k - first) = k by omega] at this
      simp [this]
    · have hout : (fieldMask first len).getLsbD k = false := by
        simp [fieldMask]
        omega
      simp [hout]

/-- The mask of several fields. -/
def fieldsMask (fields : List (Nat × Nat)) : Word := fields.foldr (fun f acc => fieldMask f.1 f.2 ||| acc) 0

theorem and_or_eq_iff (w v a b : Word) : w &&& (a ||| b) = v &&& (a ||| b) ↔ w &&& a = v &&& a ∧ w &&& b = v &&& b := by
  constructor
  · intro h
    have ha := congrArg (· &&& a) h
    have hb := congrArg (· &&& b) h
    simp only [BitVec.and_assoc] at ha hb
    constructor
    · rwa [show (a ||| b) &&& a = a by ext j; simp +contextual] at ha
    · rwa [show (a ||| b) &&& b = b by ext j; simp +contextual] at hb
  · rintro ⟨ha, hb⟩
    rw [BitVec.and_or_distrib_left, BitVec.and_or_distrib_left, ha, hb]

/-- Two words agree under the mask of several fields exactly where each field holds one number in both. -/
theorem and_fieldsMask_eq_iff (w v : Word) {fields : List (Nat × Nat)} (hfit : ∀ f ∈ fields, f.1 + f.2 ≤ 32) :
    w &&& fieldsMask fields = v &&& fieldsMask fields ↔
      ∀ f ∈ fields, w.toNat / 2 ^ f.1 % 2 ^ f.2 = v.toNat / 2 ^ f.1 % 2 ^ f.2 := by
  induction fields with
  | nil => simp [fieldsMask]
  | cons f fields ih =>
    obtain ⟨hf, hrest⟩ := List.forall_mem_cons.mp hfit
    rw [List.forall_mem_cons, ← ih hrest, ← and_fieldMask_eq_iff w v hf]
    exact and_or_eq_iff w v ..

/-- The mask of a row covers its opcode and its must-be-zero bits, and its match word is the opcode with zeros. -/
theorem opcodeMap_fields : ∀ r ∈ opcodeMap, r.mask = fieldsMask ((26, 6) :: r.mnemonic.zeroFields) ∧
    r.matchBits &&& r.mask = r.matchBits ∧ r.matchBits.toNat / 2 ^ 26 = r.mnemonic.opcode ∧
    ∀ f ∈ r.mnemonic.zeroFields, f.1 + f.2 ≤ 32 ∧ r.matchBits.toNat / 2 ^ f.1 % 2 ^ f.2 = 0 := by
  decide

/-- A word matches a row exactly where it has the row's opcode and zeros where the row must be zero. -/
theorem matches_iff_fits {r : Row} (hr : r ∈ opcodeMap) (w : Word) :
    w &&& r.mask = r.matchBits ↔ r.mnemonic.Fits w := by
  obtain ⟨hmask, hmatch, hopcode, hzero⟩ := opcodeMap_fields r hr
  have htop (v : Word) : v.toNat / 2 ^ 26 % 2 ^ 6 = v.toNat / 2 ^ 26 :=
    Nat.mod_eq_of_lt (Nat.div_lt_of_lt_mul v.isLt)
  have hfit : ∀ f ∈ (26, 6) :: r.mnemonic.zeroFields, f.1 + f.2 ≤ 32 :=
    List.forall_mem_cons.mpr ⟨by decide, fun f hf => (hzero f hf).1⟩
  calc w &&& r.mask = r.matchBits
      ↔ w &&& r.mask = r.matchBits &&& r.mask := by rw [hmatch]
    _ ↔ r.mnemonic.Fits w := by
        rw [hmask, and_fieldsMask_eq_iff _ _ hfit, List.forall_mem_cons, htop, htop, hopcode]
        exact and_congr_right fun _ => forall₂_congr fun f hf => by rw [(hzero f hf).2]

/-! ### One row for one word (rule R87) -/

theorem opcodeMap_masks_opcode : ∀ r ∈ opcodeMap, r.mask &&& 0xFC000000#32 = 0xFC000000#32 := by decide

theorem opcodeMap_opcodes_nodup : (opcodeMap.map fun r => r.matchBits &&& 0xFC000000#32).Nodup := by decide

/-- Two rows that match one word have its opcode, so they are one row. -/
theorem matching_row_unique {w : Word} {a b : Row} (ha : a ∈ opcodeMap) (hb : b ∈ opcodeMap)
    (hwa : w &&& a.mask = a.matchBits) (hwb : w &&& b.mask = b.matchBits) : a = b := by
  have hopcode (r : Row) (hr : r ∈ opcodeMap) (hw : w &&& r.mask = r.matchBits) :
      r.matchBits &&& 0xFC000000#32 = w &&& 0xFC000000#32 := by
    rw [← hw, BitVec.and_assoc, opcodeMap_masks_opcode r hr]
  exact List.inj_on_of_nodup_map opcodeMap_opcodes_nodup ha hb ((hopcode a ha hwa).trans (hopcode b hb hwb).symm)

/-- The decoder finds exactly the row that matches. -/
theorem rowOf_eq_some_iff {w : Word} {m : Mnemonic} :
    rowOf w = some m ↔ ∃ r ∈ opcodeMap, w &&& r.mask = r.matchBits ∧ r.mnemonic = m := by
  unfold rowOf
  rw [Option.map_eq_some_iff]
  constructor
  · rintro ⟨r, hfind, rfl⟩
    exact ⟨r, List.mem_of_find?_eq_some hfind, by simpa using List.find?_some hfind, rfl⟩
  · rintro ⟨r, hr, hw, rfl⟩
    obtain ⟨b, hb⟩ : ∃ b, opcodeMap.find? (fun r => w &&& r.mask == r.matchBits) = some b :=
      Option.isSome_iff_exists.mp (List.find?_isSome.mpr ⟨r, hr, by simpa using hw⟩)
    have heq := matching_row_unique (List.mem_of_find?_eq_some hb) hr (by simpa using List.find?_some hb) hw
    exact ⟨b, hb, heq ▸ rfl⟩

theorem rowOf_eq_none {w : Word} (h : ∀ r ∈ opcodeMap, w &&& r.mask ≠ r.matchBits) : rowOf w = none := by
  simpa [rowOf, List.find?_eq_none] using h

theorem mem_opcodeMap_of_mnemonic (m : Mnemonic) : ∃ r ∈ opcodeMap, r.mnemonic = m := by
  cases m <;> decide

theorem rowOf_eq_some_iff_fits {w : Word} {m : Mnemonic} : rowOf w = some m ↔ m.Fits w := by
  rw [rowOf_eq_some_iff]
  constructor
  · rintro ⟨r, hr, hw, rfl⟩
    exact (matches_iff_fits hr w).mp hw
  · intro hfits
    obtain ⟨r, hr, rfl⟩ := mem_opcodeMap_of_mnemonic m
    exact ⟨r, hr, (matches_iff_fits hr w).mpr hfits, rfl⟩

theorem decode_of_fits {w : Word} {m : Mnemonic} (h : m.Fits w) : decode w = operandsOf m w := by
  rw [decode, rowOf_eq_some_iff_fits.mpr h]

theorem decode_of_no_row {w : Word} (h : ∀ r ∈ opcodeMap, w &&& r.mask ≠ r.matchBits) :
    decode w = .error .noRow := by
  rw [decode, rowOf_eq_none h]

/-- A word that decodes fits the row whose operands it holds. -/
theorem fits_of_decode {w : Word} {i : Instr} (h : decode w = .ok i) :
    ∃ m : Mnemonic, m.Fits w ∧ operandsOf m w = .ok i := by
  unfold decode at h
  split at h
  · cases h
  · next m hm => exact ⟨m, rowOf_eq_some_iff_fits.mp hm, h⟩

end Sys2Proof

namespace Sys2Proof.Proofs

open Sys2Proof

/-- Settles O3: a row that matches has the opcode of the word, and no two rows share one. -/
theorem rowsAreDisjoint : Obligations.RowsAreDisjoint :=
  ⟨opcodeMap_masks_opcode, rfl, opcodeMap_opcodes_nodup, fun _ _ ha _ hb => matching_row_unique ha hb,
    fun w _ ha hw => decode_of_fits ((matches_iff_fits ha w).mp hw), fun _ => decode_of_no_row⟩

end Sys2Proof.Proofs
end

section
/-!
LEMMAS. The number that a command spells (rule R81), the numbers that the fields of a word hold, and the one fact that
both round trips of decoder and encoder follow from: a word decodes to a command exactly where the command is
well-formed and the word is its encoding (rules R86 to R89).
-/

namespace Sys2Proof

/-! ### The number that a command spells -/

/-- The row of a command. -/
@[simp] def Instr.mnemonic : Instr → Mnemonic
  | .egSetar .. => .egSetar | .egSetdr .. => .egSetdr | .egSetsl .. => .egSetsl | .egSetsr .. => .egSetsr
  | .egSetrr .. => .egSetrr | .egSetrs .. => .egSetrs | .egSetssg .. => .egSetssg | .egKeyon .. => .egKeyon
  | .egKeyoff .. => .egKeyoff | .egSoundoff .. => .egSoundoff | .egLevel .. => .egLevel
  | .opSetfreq .. => .opSetfreq | .opSetdt .. => .opSetdt | .opKeyon .. => .opKeyon | .opKeyoff .. => .opKeyoff
  | .chUsealg .. => .chUsealg | .chSetfb .. => .chSetfb | .chSetpan .. => .chSetpan | .chEnop .. => .chEnop
  | .chDisop .. => .chDisop | .chKeyon .. => .chKeyon | .chKeyoff .. => .chKeyoff | .chSoundoff .. => .chSoundoff
  | .chStop .. => .chStop

/-- The `op` field of a command: 0 where its row has none. -/
@[simp] def Instr.operator : Instr → Fin 4
  | .egSetar _ o _ | .egSetdr _ o _ | .egSetsl _ o _ | .egSetsr _ o _ | .egSetrr _ o _ | .egSetrs _ o _
  | .egSetssg _ o _ | .egKeyon _ o _ _ _ | .egKeyoff _ o _ _ _ | .egSoundoff _ o _ | .egLevel _ o _
  | .opSetfreq _ o _ _ _ _ | .opSetdt _ o _ _ | .opKeyon _ o _ _ | .opKeyoff _ o _ _ | .chSetfb _ o _ _ _
  | .chEnop _ o | .chDisop _ o _ => o
  | .chUsealg _ _ _ _ | .chSetpan _ _ _ _ | .chKeyon _ _ _ | .chKeyoff _ _ _ | .chSoundoff _ _ | .chStop _ _ => 0

/-- The `method` field of a command: 0 where its row has none. -/
@[simp] def Instr.methodBits : Instr → Nat
  | .opSetfreq _ _ _ m _ _ | .chSetfb _ _ _ m _ | .chSetpan _ _ m _ => m.bits
  | _ => 0

/-- The `imm` field of a command as a number: its operands side by side (the layouts of rule R86). -/
@[simp] def Instr.imm : Instr → Nat
  | .egSetar _ _ r | .egSetdr _ _ r | .egSetsr _ _ r | .egSetrr _ _ r => r.toNat
  | .egSetsl _ _ l => l.toNat
  | .egSetrs _ _ r => r.toNat
  | .egSetssg _ _ m => m.toNat
  | .egKeyon _ _ _ tag kc | .egKeyoff _ _ _ tag kc => tag.toNat * 2 ^ 8 + kc.toNat
  | .opSetfreq _ _ _ _ b fn => b.toNat * 2 ^ 11 + fn.toNat
  | .opSetdt _ _ s mag => s.toNat * 2 ^ 2 + mag.toNat
  | .opKeyon _ _ _ tag | .opKeyoff _ _ _ tag | .chKeyon _ _ tag | .chKeyoff _ _ tag => tag.toNat * 2 ^ 8
  | .chUsealg _ _ v n => v.bits * 2 ^ 4 + n.toNat
  | .chSetfb _ _ _ _ a => a.toNat
  | .chSetpan _ _ _ p => p.toNat
  | .egSoundoff .. | .egLevel .. | .chEnop .. | .chDisop .. | .chSoundoff .. | .chStop .. => 0

/-- The number that a command spells: its fields at their places (rule R81). -/
def Instr.code (i : Instr) : Nat :=
  i.mnemonic.opcode * 2 ^ 26 + i.chan.val * 2 ^ 22 + i.operator.val * 2 ^ 20 + i.timeValid.toNat * 2 ^ 19 +
    i.methodBits * 2 ^ 17 + i.imm

theorem Method.bits_lt (m : Method) : m.bits < 3 := by cases m <;> decide

theorem View.bits_lt (v : View) : v.bits < 3 := by cases v <;> decide

theorem Method.exists_bits_eq_iff {n : Nat} : (∃ m : Method, n = m.bits) ↔ n < 3 :=
  ⟨fun ⟨m, h⟩ => h ▸ m.bits_lt, fun h => by interval_cases n; exacts [⟨.set, rfl⟩, ⟨.lin, rfl⟩, ⟨.exp, rfl⟩]⟩

theorem View.exists_bits_eq_iff {n : Nat} : (∃ v : View, n = v.bits) ↔ n < 3 :=
  ⟨fun ⟨v, h⟩ => h ▸ v.bits_lt, fun h => by interval_cases n; exacts [⟨.four, rfl⟩, ⟨.two0, rfl⟩, ⟨.two1, rfl⟩]⟩

theorem Mnemonic.opcode_lt (m : Mnemonic) : m.opcode < 64 := by cases m <;> decide

theorem Instr.methodBits_lt (i : Instr) : i.methodBits < 3 := by
  cases i with
  | opSetfreq _ _ _ m | chSetfb _ _ _ m | chSetpan _ _ m => exact m.bits_lt
  | _ => exact Nat.zero_lt_succ 2

theorem Instr.imm_lt (i : Instr) : i.imm < 2 ^ 17 := by
  cases i with
  | chUsealg _ _ v => have := v.bits_lt; simp only [Instr.imm]; omega
  | opSetdt _ _ s => have := s.toNat_lt; simp only [Instr.imm]; omega
  | _ => simp only [Instr.imm]; omega

/-- The fields of a word do not overlap, so the word is their sum. -/
theorem word_toNat {opc : Nat} {c : Fin 16} {o : Fin 4} {tv : Bool} {m imm : Nat} (hopc : opc < 64) (hm : m < 4)
    (himm : imm < 2 ^ 17) :
    (word opc c o tv m imm).toNat =
      opc * 2 ^ 26 + c.val * 2 ^ 22 + o.val * 2 ^ 20 + tv.toNat * 2 ^ 19 + m * 2 ^ 17 + imm := by
  have htv := tv.toNat_lt
  rw [word, BitVec.toNat_ofNat]
  simp only [Nat.or_assoc]
  rw [← Nat.shiftLeft_add_eq_or_of_lt himm m, ← Nat.shiftLeft_add_eq_or_of_lt (by omega) tv.toNat,
    ← Nat.shiftLeft_add_eq_or_of_lt (by omega) o.val, ← Nat.shiftLeft_add_eq_or_of_lt (by omega) c.val,
    ← Nat.shiftLeft_add_eq_or_of_lt (by omega) opc]
  omega

/-- Two operands side by side in `imm`. -/
theorem shiftLeft_or_toNat {k n : Nat} (hi : Nat) (lo : BitVec n) (hn : n ≤ k) :
    (hi <<< k) ||| lo.toNat = hi * 2 ^ k + lo.toNat := by
  rw [← Nat.shiftLeft_add_eq_or_of_lt (lo.isLt.trans_le (Nat.pow_le_pow_right two_pos hn)), Nat.shiftLeft_eq]

theorem encode_eq_word (i : Instr) :
    encode i = word i.mnemonic.opcode i.chan i.operator i.timeValid i.methodBits i.imm := by
  cases i with
  | egKeyon | egKeyoff | opSetfreq | opSetdt | chUsealg =>
    rw [encode, shiftLeft_or_toNat _ _ (by decide)]
    rfl
  | opKeyon | opKeyoff | chKeyon | chKeyoff =>
    rw [encode, Nat.shiftLeft_eq]
    rfl
  | _ => rfl

theorem encode_toNat (i : Instr) : (encode i).toNat = i.code := by
  rw [encode_eq_word, word_toNat i.mnemonic.opcode_lt (i.methodBits_lt.trans (by decide)) i.imm_lt, Instr.code]

theorem encode_eq_iff {i : Instr} {w : Word} : encode i = w ↔ w.toNat = i.code := by
  rw [← encode_toNat, ← BitVec.toNat_inj, eq_comm]

/-! ### The numbers that the fields of a word hold -/

section

variable {w : Word}

theorem extract_eq_iff {first len : Nat} {x : BitVec len} :
    w.extractLsb' first len = x ↔ w.toNat / 2 ^ first % 2 ^ len = x.toNat := by
  rw [← BitVec.toNat_inj, BitVec.extractLsb'_toNat, Nat.shiftRight_eq_div_pow]

theorem bit_eq_iff {k : Nat} {b : Bool} : w.getLsbD k = b ↔ w.toNat / 2 ^ k % 2 = b.toNat := by
  rw [BitVec.getLsbD, Nat.testBit_eq_decide_div_mod_eq]
  cases b <;> simp

@[simp] theorem fieldCh_eq_iff {c : Fin 16} : fieldCh w = c ↔ w.toNat / 2 ^ 22 % 16 = c.val := by
  rw [← Fin.val_inj, fieldCh, BitVec.val_toFin, BitVec.extractLsb'_toNat, Nat.shiftRight_eq_div_pow]

@[simp] theorem fieldOp_eq_iff {o : Fin 4} : fieldOp w = o ↔ w.toNat / 2 ^ 20 % 4 = o.val := by
  rw [← Fin.val_inj, fieldOp, BitVec.val_toFin, BitVec.extractLsb'_toNat, Nat.shiftRight_eq_div_pow]

@[simp] theorem fieldTv_eq_iff {tv : Bool} : fieldTv w = tv ↔ w.toNat / 2 ^ 19 % 2 = tv.toNat := bit_eq_iff

@[simp] theorem fieldMethod_eq_some_iff {m : Method} : fieldMethod w = some m ↔ w.toNat / 2 ^ 17 % 4 = m.bits := by
  rw [fieldMethod, BitVec.extractLsb'_toNat, Nat.shiftRight_eq_div_pow]
  have hlt : w.toNat / 2 ^ 17 % 2 ^ 2 < 4 := Nat.mod_lt _ (by decide)
  split <;> cases m <;> simp_all [Method.bits]

@[simp] theorem fieldView_eq_some_iff {v : View} : fieldView w = some v ↔ w.toNat / 2 ^ 4 % 4 = v.bits := by
  rw [fieldView, BitVec.extractLsb'_toNat, Nat.shiftRight_eq_div_pow]
  have hlt : w.toNat / 2 ^ 4 % 2 ^ 2 < 4 := Nat.mod_lt _ (by decide)
  split <;> cases v <;> simp_all [View.bits]

end

/-! ### The decoder's rows -/

section

variable {w : Word} {i : Instr}

theorem withMethod_eq_ok_iff {k : Method → Instr} :
    withMethod w k = .ok i ↔ ∃ m, fieldMethod w = some m ∧ k m = i := by
  unfold withMethod
  cases fieldMethod w <;> simp

theorem operandsOf_chUsealg_eq_ok_iff {c : Fin 16} {tv : Bool} {v : View} {n : BitVec 4} :
    operandsOf .chUsealg w = .ok (.chUsealg c tv v n) ↔
      algorithmInRange v n = true ∧ fieldCh w = c ∧ fieldTv w = tv ∧ fieldView w = some v ∧ w.extractLsb' 0 4 = n := by
  simp only [operandsOf]
  cases fieldView w with
  | none => simp
  | some v' => grind

theorem operandsOf_chSetpan_eq_ok_iff {c : Fin 16} {tv : Bool} {m : Method} {p : BitVec 8} :
    operandsOf .chSetpan w = .ok (.chSetpan c tv m p) ↔
      panInRange p = true ∧ fieldCh w = c ∧ fieldTv w = tv ∧ fieldMethod w = some m ∧ w.extractLsb' 0 8 = p := by
  simp only [operandsOf]
  cases fieldMethod w with
  | none => simp
  | some m' => grind

/-- The operands of a row are those of a command of the row. -/
theorem mnemonic_of_operandsOf {m : Mnemonic} (h : operandsOf m w = .ok i) : i.mnemonic = m := by
  cases m with
  | opSetfreq | chSetfb => obtain ⟨_, -, rfl⟩ := withMethod_eq_ok_iff.mp h; rfl
  | chUsealg | chSetpan =>
    simp only [operandsOf] at h
    split at h
    · cases h
    · split at h <;> cases h
      rfl
  | _ => cases h; rfl

/-- A word is the number that a command spells exactly where each field is the command's. -/
theorem toNat_eq_code_iff : w.toNat = i.code ↔
    w.toNat / 2 ^ 26 = i.mnemonic.opcode ∧ w.toNat / 2 ^ 22 % 16 = i.chan.val ∧ w.toNat / 2 ^ 20 % 4 = i.operator.val ∧
      w.toNat / 2 ^ 19 % 2 = i.timeValid.toNat ∧ w.toNat / 2 ^ 17 % 4 = i.methodBits ∧ w.toNat % 2 ^ 17 = i.imm := by
  have htv := i.timeValid.toNat_lt
  have hmethod := i.methodBits_lt
  have himm := i.imm_lt
  rw [Instr.code]
  omega

/-- A word of the command's row holds the command's operands exactly where it is the number that the command spells. -/
theorem fits_and_operandsOf_iff :
    i.mnemonic.Fits w ∧ operandsOf i.mnemonic w = .ok i ↔ WellFormed i = true ∧ w.toNat = i.code := by
  rw [toNat_eq_code_iff, Mnemonic.Fits]
  cases i with
  | opSetfreq | chSetfb =>
    simp [operandsOf, withMethod_eq_ok_iff, Instr.chan, Instr.timeValid, WellFormed, extract_eq_iff]
    omega
  | chUsealg c tv v n =>
    have hv := v.bits_lt
    rw [Instr.mnemonic, operandsOf_chUsealg_eq_ok_iff, and_left_comm]
    refine and_congr_right fun _ => ?_
    simp [Instr.chan, Instr.timeValid, extract_eq_iff]
    omega
  | chSetpan c tv m p =>
    rw [Instr.mnemonic, operandsOf_chSetpan_eq_ok_iff, and_left_comm]
    refine and_congr_right fun _ => ?_
    simp [Instr.chan, Instr.timeValid, extract_eq_iff]
    omega
  | opSetdt c o s =>
    have hs := s.toNat_lt
    simp [-BitVec.getLsbD_eq_getElem, bit_eq_iff, operandsOf, Instr.chan, Instr.timeValid, WellFormed, extract_eq_iff]
    omega
  | _ =>
    simp [operandsOf, Instr.chan, Instr.timeValid, WellFormed, extract_eq_iff]
    omega

/-- A word decodes to a command exactly where the command is well-formed and the word is its encoding. -/
theorem decode_eq_ok_iff : decode w = .ok i ↔ WellFormed i = true ∧ encode i = w := by
  rw [encode_eq_iff, ← fits_and_operandsOf_iff]
  constructor
  · intro h
    obtain ⟨m, hfits, hoperands⟩ := fits_of_decode h
    obtain rfl := mnemonic_of_operandsOf hoperands
    exact ⟨hfits, hoperands⟩
  · rintro ⟨hfits, hoperands⟩
    rw [decode_of_fits hfits, hoperands]

end

end Sys2Proof

namespace Sys2Proof.Proofs

open Sys2Proof

/-- Settles O1: a well-formed command's encoding is a word that decodes to it. -/
theorem decodeOfEncode : Obligations.DecodeOfEncode := fun _ hwf => decode_eq_ok_iff.mpr ⟨hwf, rfl⟩

/-- Settles O2: a word that decodes is the encoding of a command that is well-formed. -/
theorem encodeOfDecode : Obligations.EncodeOfDecode := fun _ _ h => (decode_eq_ok_iff.mp h).symm

end Sys2Proof.Proofs
end

section
/-!
LEMMAS. Which words spell no command (rules R88 (2) to (4), R91): those that match no row, and of those that match one
the words whose method, view, algorithm number or pan pattern is out of range.
-/

namespace Sys2Proof

section

variable {w : Word}

/-- The opcodes that no row has. -/
theorem Mnemonic.opcode_assigned (m : Mnemonic) :
    ¬(m.opcode = 0 ∨ (0x0C ≤ m.opcode ∧ m.opcode ≤ 0x0F) ∨ (0x14 ≤ m.opcode ∧ m.opcode ≤ 0x17) ∨ 0x21 ≤ m.opcode) := by
  cases m <;> decide

theorem fieldMethod_eq_none_iff : fieldMethod w = none ↔ w.extractLsb' 17 2 = 3#2 := by
  have hlt := Nat.mod_lt (w.toNat / 2 ^ 17) (show 0 < 4 by decide)
  simp only [Option.eq_none_iff_forall_ne_some, ne_eq, fieldMethod_eq_some_iff, ← not_exists, Method.exists_bits_eq_iff,
    extract_eq_iff, BitVec.toNat_ofNat]
  omega

theorem fieldView_eq_none_iff : fieldView w = none ↔ w.extractLsb' 4 2 = 3#2 := by
  have hlt := Nat.mod_lt (w.toNat / 2 ^ 4) (show 0 < 4 by decide)
  simp only [Option.eq_none_iff_forall_ne_some, ne_eq, fieldView_eq_some_iff, ← not_exists, View.exists_bits_eq_iff,
    extract_eq_iff, BitVec.toNat_ofNat]
  omega

theorem algorithmInRange_eq_false_iff {v : View} {n : BitVec 4} :
    algorithmInRange v n = false ↔ 8 ≤ n.toNat ∨ (v ≠ .four ∧ 2 ≤ n.toNat) := by
  cases v with
  | four =>
    rw [algorithmInRange, decide_eq_false_iff_not]
    simp [nAlg4]
  | two0 | two1 =>
    simp [algorithmInRange]
    omega

theorem withMethod_error_iff {k : Method → Instr} :
    (∃ e, withMethod w k = .error e) ↔ w.extractLsb' 17 2 = 3#2 := by
  rw [← fieldMethod_eq_none_iff, withMethod]
  cases fieldMethod w <;> simp

theorem operandsOf_chSetpan_error_iff :
    (∃ e, operandsOf .chSetpan w = .error e) ↔ w.extractLsb' 17 2 = 3#2 ∨ w.extractLsb' 0 8 = 0x80#8 := by
  rw [← fieldMethod_eq_none_iff, operandsOf]
  cases fieldMethod w with
  | none => simp
  | some m => by_cases hp : w.extractLsb' 0 8 = 0x80#8 <;> simp [panInRange, hp]

/-- The view sets the bound of the algorithm number: 8 for the channel, 2 for a two-operator view. -/
theorem operandsOf_chUsealg_error_iff :
    (∃ e, operandsOf .chUsealg w = .error e) ↔
      w.extractLsb' 4 2 = 3#2 ∨ 8 ≤ (w.extractLsb' 0 4).toNat ∨
        (w.extractLsb' 4 2 ≠ 0#2 ∧ 2 ≤ (w.extractLsb' 0 4).toNat) := by
  rw [← fieldView_eq_none_iff, operandsOf]
  cases hv : fieldView w with
  | none => simp
  | some v =>
    have hbits := fieldView_eq_some_iff.mp hv
    have hview : w.extractLsb' 4 2 = 0#2 ↔ v = .four := by
      rw [extract_eq_iff]
      cases v <;> simp_all [View.bits]
    rw [ne_eq, hview, ← ne_eq, ← algorithmInRange_eq_false_iff]
    cases hn : algorithmInRange v (w.extractLsb' 0 4) <;> simp [hn]

theorem operandsOf_error_iff (m : Mnemonic) :
    (∃ e, operandsOf m w = .error e) ↔
      (m ∈ [.opSetfreq, .chSetfb, .chSetpan] ∧ w.extractLsb' 17 2 = 3#2) ∨
      (m = .chUsealg ∧ (w.extractLsb' 4 2 = 3#2 ∨ 8 ≤ (w.extractLsb' 0 4).toNat ∨
        (w.extractLsb' 4 2 ≠ 0#2 ∧ 2 ≤ (w.extractLsb' 0 4).toNat))) ∨
      (m = .chSetpan ∧ w.extractLsb' 0 8 = 0x80#8) := by
  cases m with
  | opSetfreq | chSetfb => simpa [operandsOf] using withMethod_error_iff
  | chUsealg => simpa using operandsOf_chUsealg_error_iff
  | chSetpan => simpa using operandsOf_chSetpan_error_iff
  | _ => simp [operandsOf]

/-- Method 3 is in the encoding of no command. -/
theorem decode_ne_ok_of_method_three (h : w.extractLsb' 17 2 = 3#2) (i : Instr) : decode w ≠ .ok i := by
  intro hdecode
  obtain ⟨-, -, -, -, hmethod, -⟩ := toNat_eq_code_iff.mp (encode_eq_iff.mp (decode_eq_ok_iff.mp hdecode).2)
  have hthree : w.toNat / 2 ^ 17 % 4 = 3 := extract_eq_iff.mp h
  have := i.methodBits_lt
  omega

end

end Sys2Proof

namespace Sys2Proof.Proofs

open Sys2Proof Sys2Proof.Machine

/-- Settles O4: an undecodable word goes to `illegal`; it matches no row, or its row's operands are out of range. -/
theorem unmatchedWordIsIllegal : Obligations.UnmatchedWordIsIllegal := by
  refine ⟨fun s w p rest e hinputs hdecode => ?_, fun _ => decode_of_no_row, fun w hopcode r hr hw => ?_,
    fun w r hr hw => ?_, fun w i h => decode_ne_ok_of_method_three h i⟩
  · exact ⟨_, step_of_undecodable hinputs hdecode, rfl, rfl, rfl, rfl, rfl⟩
  · obtain ⟨hop, -⟩ := (matches_iff_fits hr w).mp hw
    exact r.mnemonic.opcode_assigned (hop ▸ hopcode)
  · rw [decode_of_fits ((matches_iff_fits hr w).mp hw), operandsOf_error_iff]

/-- Settles O5: each word is decoded by evaluation. -/
theorem wordsDecodeAsWritten : Obligations.WordsDecodeAsWritten :=
  ⟨rfl, rfl, rfl, rfl, rfl, rfl, rfl, rfl, rfl, rfl, rfl, rfl, rfl, rfl⟩

end Sys2Proof.Proofs
end

section
/-!
LEMMAS. The common checks of a command and its answer: every command is a body behind the checks of rules R88 and R203,
a failed check answers ILLEGAL (rule R202), and what has a next state has answered once (rules R84, R200).
-/

namespace Sys2Proof.Machine

open Sys2Proof

/-! ### The common checks -/

/-- `ch < N_CH`: channel 0 is below it because `N_CH` is at least 1 (rule R9). -/
theorem hasChannel_iff (cfg : Cfg) (c : Fin 16) : cfg.hasChannel c = true ↔ c.val < cfg.data.nCh := by
  have hpos := (Laws.nCh_range cfg).1
  simp only [Cfg.hasChannel, Bool.or_eq_true, beq_iff_eq, decide_eq_true_eq]
  omega

/-- Every command is a body behind the checks of its own channel, time and operands. -/
theorem exec_eq_withChecks (i : Instr) (s : State) :
    ∃ body, exec i s = withChecks Config.cfg i.chan i.timeValid (WellFormed i) s body := by
  cases i <;> exact ⟨_, rfl⟩

theorem withChecks_fail {cfg : Cfg} {c : Fin 16} {tv form : Bool} {s : State} {body : ExReal → Result}
    (h : ¬(cfg.hasChannel c = true ∧ form = true ∧ (commandTime s.ports tv).isSome = true)) :
    withChecks cfg c tv form s body = illegal s := by
  rw [withChecks, (commonChecks_illegal cfg c tv form s).mpr h]

/-- A command that fails one of the checks answers ILLEGAL and does nothing else. -/
theorem exec_eq_illegal {i : Instr} {s : State}
    (h : ¬(i.chan.val < Config.cfg.data.nCh ∧ WellFormed i = true ∧ (commandTime s.ports i.timeValid).isSome = true)) :
    exec i s = illegal s := by
  obtain ⟨body, hbody⟩ := exec_eq_withChecks i s
  rw [hbody, withChecks_fail]
  rwa [hasChannel_iff]

/-- The TIME port gives no time where it holds a negative real or none at all. -/
theorem commandTime_true_eq_none {p : Ports} (h : ∀ x, p.time = .real x → x.val < 0) : commandTime p true = none :=
  Option.eq_none_iff_forall_ne_some.mpr fun t ht => by
    obtain ⟨hreal, hnonneg⟩ := (commandTime_true_iff p t).mp ht
    exact (h t hreal).not_ge hnonneg

/-! ### The answer -/

/-- `u` is `s` with registers written and events added; nothing has been answered and no input touched. -/
structure Unanswered (s u : State) : Prop where
  responses : u.responses = s.responses
  events : s.events <+: u.events
  inputs : u.inputs = s.inputs
  ports : u.ports = s.ports

/-- `s'` is an unanswered state with one response added, whose value is zero. -/
def AnswersZero (s s' : State) : Prop := ∃ u st, Unanswered s u ∧ s' = u.respond st (.rat 0)

section

variable {cfg : Cfg} {c : Fin 16} {o : Fin 4} {tag : BitVec 8} {kc : BitVec 5} {t : ExReal} {tv form : Bool}
  {s u s' : State}

theorem Unanswered.refl (s : State) : Unanswered s s := ⟨rfl, List.prefix_rfl, rfl, rfl⟩

theorem Unanswered.trans (h : Unanswered s u) (h' : Unanswered u s') : Unanswered s s' :=
  ⟨h'.responses.trans h.responses, h.events.trans h'.events, h'.inputs.trans h.inputs, h'.ports.trans h.ports⟩

/-- Registers written, then events emitted. -/
theorem Unanswered.emit (h : Unanswered s u) (evs : List Event) : Unanswered s (u.emit evs) :=
  ⟨h.responses, h.events.trans (List.prefix_append ..), h.inputs, h.ports⟩

theorem Unanswered.putChan (h : Unanswered s u) (c : Fin 16) (ch : Channel) : Unanswered s (u.putChan c ch) :=
  ⟨h.responses, h.events, h.inputs, h.ports⟩

theorem Unanswered.putEnv (h : Unanswered s u) (c : Fin 16) (o : Fin 4) (e : Envelope) :
    Unanswered s (u.putEnv c o e) :=
  h.putChan ..

theorem Unanswered.putOpr (h : Unanswered s u) (c : Fin 16) (o : Fin 4) (q : Operator) :
    Unanswered s (u.putOpr c o q) :=
  h.putChan ..

theorem Unanswered.answersZero (h : Unanswered s u) (st : Status) : AnswersZero s (u.respond st (.rat 0)) :=
  ⟨u, st, h, rfl⟩

theorem keyOnEnvelope_unanswered (h : keyOnEnvelope cfg c o tag kc t s = .ok u) : Unanswered s u := by
  obtain ⟨b, -, -, rfl⟩ := keyOnEnvelope_ok h
  exact ⟨by simp, by simp, by simp, by simp⟩

theorem keyOffEnvelope_unanswered (h : keyOffEnvelope cfg c o tag kc t s = .ok u) : Unanswered s u := by
  obtain ⟨l, -, -, rfl⟩ := keyOffEnvelope_ok h
  exact ((Unanswered.refl s).putEnv ..).emit _

theorem soundOffEnvelope_unanswered (h : soundOffEnvelope c o t s = .ok u) : Unanswered s u := by
  obtain ⟨-, rfl⟩ := soundOffEnvelope_ok h
  exact ((Unanswered.refl s).putEnv ..).emit _

theorem keyOnIfEnabled_unanswered (h : keyOnIfEnabled cfg c tag t o s = .ok u) : Unanswered s u := by
  unfold keyOnIfEnabled at h
  split at h
  · exact keyOnEnvelope_unanswered h
  · cases h; exact .refl s

theorem keyOffIfEnabled_unanswered (h : keyOffIfEnabled cfg c tag t o s = .ok u) : Unanswered s u := by
  unfold keyOffIfEnabled at h
  split at h
  · exact keyOffEnvelope_unanswered h
  · cases h; exact .refl s

theorem stopOperator_unanswered (c : Fin 16) (t : ExReal) (o : Fin 4) (s : State) :
    Unanswered s (stopOperator c t o s) :=
  ((Unanswered.refl s).putEnv ..).emit _

theorem forOperators_unanswered {f : Fin 4 → State → Except Refusal State}
    (hf : ∀ o u u', f o u = .ok u' → Unanswered u u') (h : forOperators f s = .ok u) : Unanswered s u := by
  obtain ⟨s1, s2, s3, h0, h1, h2, h3⟩ := forOperators_ok h
  exact (((hf _ _ _ h0).trans (hf _ _ _ h1)).trans (hf _ _ _ h2)).trans (hf _ _ _ h3)

theorem answersZero_finish {r : Except Refusal State} (h : finish r = .next s')
    (hr : ∀ u, r = .ok u → Unanswered s u) : AnswersZero s s' := by
  obtain ⟨u, hu, rfl⟩ := finish_next h
  exact (hr u hu).answersZero .ok

theorem answersZero_routed {ch : Channel} {evs : List Event} (h : routed s c t ch evs = .next s') :
    AnswersZero s s' := by
  obtain ⟨-, rfl⟩ := routed_next h
  exact (((Unanswered.refl s).putChan c ch).emit evs).answersZero .ok

/-- ILLEGAL answers zero, so a command behind the common checks answers as its body does. -/
theorem answersZero_withChecks {body : ExReal → Result} (h : withChecks cfg c tv form s body = .next s')
    (hbody : ∀ t, body t = .next s' → AnswersZero s s') : AnswersZero s s' := by
  obtain rfl | ⟨t, -, -, -, -, hnext⟩ := withChecks_next h
  · exact (Unanswered.refl s).answersZero .illegal
  · exact hbody t hnext

theorem answersZero_opSetfreq {m : Method} {block : BitVec 3} {fn : BitVec 11}
    (h : opSetfreq cfg c o tv m block fn s = .next s') : AnswersZero s s' :=
  answersZero_withChecks h fun t hnext => by
    split at hnext
    · cases hnext
      exact (Unanswered.refl s).answersZero .missingOperand
    · simp only at hnext
      split at hnext <;> cases hnext
      exact (((Unanswered.refl s).putOpr ..).emit _).answersZero .ok

theorem answersZero_chUsealg {view : View} {n : BitVec 4} (h : chUsealg cfg c tv view n s = .next s') :
    AnswersZero s s' :=
  answersZero_withChecks h fun t hnext => by
    cases view <;> exact answersZero_routed hnext

theorem answersZero_chSetfb {m : Method} {amount : BitVec 3} (h : chSetfb cfg c o tv m amount s = .next s') :
    AnswersZero s s' :=
  answersZero_withChecks h fun t hnext => by
    split at hnext
    · cases hnext
    · exact answersZero_routed hnext

theorem answersZero_execChDisop (h : execChDisop c o tv s = .next s') : AnswersZero s s' :=
  answersZero_withChecks h fun t hnext => answersZero_finish hnext fun u hu => by
    cases hoff : soundOffEnvelope c o t s with
    | error r => simp [hoff, Except.map] at hu
    | ok v =>
      obtain rfl : v.setEnabled c o false = u := by simpa [hoff, Except.map] using hu
      exact (soundOffEnvelope_unanswered hoff).putOpr ..

theorem answersZero_execChStop (h : execChStop c tv s = .next s') : AnswersZero s s' :=
  answersZero_withChecks h fun t hnext => by
    cases hnext
    exact ((((stopOperator_unanswered c t 0 s).trans (stopOperator_unanswered ..)).trans
      (stopOperator_unanswered ..)).trans (stopOperator_unanswered ..)).putChan .. |>.answersZero .ok

/-- EG.LEVEL answers ILLEGAL, or OK with the level, and changes nothing. -/
theorem egLevel_next (h : egLevel cfg c o tv s = .next s') :
    s' = s.respond .illegal (.rat 0) ∨ ∃ v, s' = s.respond .ok v := by
  obtain rfl | ⟨t, -, -, -, -, hnext⟩ := withChecks_next h
  · exact .inl rfl
  · split at hnext <;> cases hnext
    exact .inr ⟨_, rfl⟩

end

/-- Every command but EG.LEVEL answers zero. -/
theorem exec_answersZero {i : Instr} {s s' : State} (hi : ∀ c o tv, i ≠ .egLevel c o tv) (h : exec i s = .next s') :
    AnswersZero s s' := by
  cases i with
  | egLevel c o tv => exact absurd rfl (hi c o tv)
  | egSetar | egSetdr | egSetsl | egSetsr | egSetrr | egSetrs | egSetssg | opSetdt | chEnop =>
    exact answersZero_withChecks h fun _ hnext => by
      cases hnext
      exact ((Unanswered.refl s).putChan ..).answersZero .ok
  | egKeyon | opKeyon =>
    exact answersZero_withChecks h fun _ hnext => answersZero_finish hnext fun _ => keyOnEnvelope_unanswered
  | egKeyoff | opKeyoff =>
    exact answersZero_withChecks h fun _ hnext => answersZero_finish hnext fun _ => keyOffEnvelope_unanswered
  | egSoundoff =>
    exact answersZero_withChecks h fun _ hnext => answersZero_finish hnext fun _ => soundOffEnvelope_unanswered
  | opSetfreq => exact answersZero_opSetfreq h
  | chUsealg => exact answersZero_chUsealg h
  | chSetfb => exact answersZero_chSetfb h
  | chSetpan => exact answersZero_withChecks h fun _ => answersZero_routed
  | chDisop => exact answersZero_execChDisop h
  | chKeyon =>
    exact answersZero_withChecks h fun _ hnext => answersZero_finish hnext fun _ =>
      forOperators_unanswered fun _ _ _ => keyOnIfEnabled_unanswered
  | chKeyoff =>
    exact answersZero_withChecks h fun _ hnext => answersZero_finish hnext fun _ =>
      forOperators_unanswered fun _ _ _ => keyOffIfEnabled_unanswered
  | chSoundoff =>
    exact answersZero_withChecks h fun _ hnext => answersZero_finish hnext fun _ =>
      forOperators_unanswered fun _ _ _ => soundOffEnvelope_unanswered
  | chStop => exact answersZero_execChStop h

/-- A command that has a next state has answered once, with zero unless it is EG.LEVEL and answers OK. -/
theorem exec_answers {i : Instr} {s s' : State} (h : exec i s = .next s') :
    ∃ u st v, Unanswered s u ∧ s' = u.respond st v ∧ ((∀ c o tv, i = .egLevel c o tv → st ≠ .ok) → v = .rat 0) := by
  by_cases hi : ∃ c o tv, i = .egLevel c o tv
  · obtain ⟨c, o, tv, rfl⟩ := hi
    obtain rfl | ⟨v, rfl⟩ := egLevel_next h
    · exact ⟨s, .illegal, .rat 0, .refl s, rfl, fun _ => rfl⟩
    · exact ⟨s, .ok, v, .refl s, rfl, fun hok => absurd rfl (hok c o tv rfl)⟩
  · push Not at hi
    obtain ⟨u, st, hu, rfl⟩ := exec_answersZero hi h
    exact ⟨u, st, .rat 0, hu, rfl, fun _ => rfl⟩

end Sys2Proof.Machine

namespace Sys2Proof.Proofs

open Sys2Proof Sys2Proof.Machine

/-- Settles O9: every command stands behind the common checks, and a failed check is `illegal`. -/
theorem failedConditionAnswersIllegal : Obligations.FailedConditionAnswersIllegal := by
  refine ⟨fun p => ⟨commandTime_now p, fun x hx hnonneg => (commandTime_true_iff p x).mpr ⟨hx, hnonneg⟩,
    fun x hx hneg => commandTime_true_eq_none ?_, fun hp => commandTime_true_eq_none ?_⟩, hasChannel_iff,
    fun i s hfail => ⟨_, exec_eq_illegal hfail, ⟨rfl, by simp, rfl, rfl⟩, rfl, rfl⟩⟩
  · intro y hy
    obtain rfl : x = y := TimePort.real.inj (hx.symm.trans hy)
    exact hneg
  · intro y hy
    simp [hp] at hy

/-- Settles O13: a next state is an unanswered state with one response added. -/
theorem everyCommandAnswersOnce : Obligations.EveryCommandAnswersOnce := by
  intro i s s' h
  obtain ⟨u, st, v, hu, rfl, hzero⟩ := exec_answers h
  refine ⟨⟨st, v, ?_, hzero⟩, ?_, hu.inputs, hu.ports⟩
  · rw [respond_responses, hu.responses]
  · obtain ⟨evs, hevs⟩ := hu.events
    exact ⟨evs, hevs.symm⟩

end Sys2Proof.Proofs
end

section
/-!
LEMMAS. The seven envelope setters (rules R100 to R109) as one family: each is `setEnvelope` of a register replaced, so
what they leave alone, their idempotence and their commutation are said once.
-/

namespace Sys2Proof.Machine

open Sys2Proof

/-! ### What a setter does to an envelope -/

/-- A setter with its operand: the register that it replaces and what it puts there. -/
inductive Setting where
  | attackRate (rate : BitVec 5)
  | decayRate (rate : BitVec 5)
  | sustainLevel (level : BitVec 10)
  | sustainRate (rate : BitVec 5)
  | releaseRate (rate : BitVec 5)
  | rateScaling (scaling : BitVec 2)
  | mode (m : ModeFlags)

namespace Setting

/-- The number that `Instr.setter` gives the register. -/
def index : Setting → Nat
  | attackRate _ => 0
  | decayRate _ => 1
  | sustainLevel _ => 2
  | sustainRate _ => 3
  | releaseRate _ => 4
  | rateScaling _ => 5
  | mode _ => 6

/-- The envelope with the register replaced. -/
def apply (p : Setting) (e : Envelope) : Envelope :=
  match p with
  | attackRate rate => { e with attackRate := rate }
  | decayRate rate => { e with decayRate := rate }
  | sustainLevel level => { e with sustainLevel := level }
  | sustainRate rate => { e with sustainRate := rate }
  | releaseRate rate => { e with releaseRate := rate }
  | rateScaling scaling => { e with rateScaling := scaling }
  | mode m => e.setMode m

variable (p q : Setting) (e : Envelope)

@[simp] theorem apply_level (cfg : Cfg) (t : ExReal) : (p.apply e).level cfg t = e.level cfg t := by
  cases p <;> rfl

@[simp] theorem apply_egKey : (p.apply e).egKey = e.egKey := by
  cases p <;> rfl

@[simp] theorem apply_silentAt : (p.apply e).silentAt = e.silentAt := by
  cases p <;> rfl

/-- The second of two equal mode writes changes neither `inverted` nor `jump`, so it keeps the cache bit (rule R108). -/
theorem apply_apply_self : p.apply (p.apply e) = p.apply e := by
  cases p
  case mode m => simp [apply, Envelope.setMode]
  all_goals rfl

theorem apply_comm (h : p.index ≠ q.index) : p.apply (q.apply e) = q.apply (p.apply e) := by
  cases p <;> cases q
  case attackRate.attackRate | decayRate.decayRate | sustainLevel.sustainLevel | sustainRate.sustainRate |
    releaseRate.releaseRate | rateScaling.rateScaling | mode.mode => exact absurd rfl h
  all_goals rfl

end Setting

/-- Every setter is `setEnvelope` of its setting. -/
theorem exec_of_setter {i : Instr} {n : Nat} {c : Fin 16} {o : Fin 4} (h : i.setter = some (n, c, o)) :
    ∃ p : Setting, p.index = n ∧ ∀ s, exec i s = setEnvelope Config.cfg c o p.apply s := by
  cases i with
  | egSetar _ _ rate => cases h; exact ⟨.attackRate rate, rfl, fun _ => rfl⟩
  | egSetdr _ _ rate => cases h; exact ⟨.decayRate rate, rfl, fun _ => rfl⟩
  | egSetsl _ _ level => cases h; exact ⟨.sustainLevel level, rfl, fun _ => rfl⟩
  | egSetsr _ _ rate => cases h; exact ⟨.sustainRate rate, rfl, fun _ => rfl⟩
  | egSetrr _ _ rate => cases h; exact ⟨.releaseRate rate, rfl, fun _ => rfl⟩
  | egSetrs _ _ scaling => cases h; exact ⟨.rateScaling scaling, rfl, fun _ => rfl⟩
  | egSetssg _ _ mode => cases h; exact ⟨.mode (modeFlags Config.cfg mode), rfl, fun _ => rfl⟩
  | _ => cases h

/-! ### The registers of the mode flags -/

/-- The triple that a mode operand selects: nothing below 8, else the entry of SSG_DECODE (rule R106). -/
def ssgShape (cfg : Cfg) (mode : BitVec 4) : SsgShape :=
  if mode.toNat < 8 then ⟨false, false, false⟩ else cfg.data.ssgDecode (BitVec.ofNat 3 (mode.toNat - 8))

/-- The low three bits of a mode from 8 on are `mode - 8`. -/
theorem setWidth_eq_ofNat_sub {mode : BitVec 4} (h : 8 ≤ mode.toNat) :
    mode.setWidth 3 = BitVec.ofNat 3 (mode.toNat - 8) := by
  apply BitVec.eq_of_toNat_eq
  rw [BitVec.toNat_setWidth, BitVec.toNat_ofNat]
  omega

theorem modeFlags_eq_ssgShape (cfg : Cfg) (mode : BitVec 4) :
    modeFlags cfg mode = ⟨decide (8 ≤ mode.toNat), (ssgShape cfg mode).inverted, (ssgShape cfg mode).jump,
      (ssgShape cfg mode).looping⟩ := by
  unfold modeFlags ssgShape
  split
  · next h => simp [h]
  · next h =>
    have h8 : 8 ≤ mode.toNat := not_lt.mp h
    simp [h8, setWidth_eq_ofNat_sub h8]

/-- The cache bit stays exactly where neither `inverted` nor `jump` changes (rule R108). -/
theorem setMode_ssgCacheValid (e : Envelope) (m : ModeFlags) :
    (e.setMode m).ssgCacheValid = if m.inverted = e.inverted ∧ m.jump = e.jump then e.ssgCacheValid else false := by
  by_cases h : m.inverted = e.inverted ∧ m.jump = e.jump
  · simp [Envelope.setMode, h]
  · have hne : ¬m.inverted = e.inverted ∨ ¬m.jump = e.jump := not_and_or.mp h
    simp [Envelope.setMode, h, hne]

theorem setMode_modeFlags (cfg : Cfg) (e : Envelope) (mode : BitVec 4) :
    e.setMode (modeFlags cfg mode) =
      { e with
        ssgEnabled := decide (8 ≤ mode.toNat)
        inverted := (ssgShape cfg mode).inverted
        jump := (ssgShape cfg mode).jump
        looping := (ssgShape cfg mode).looping
        ssgCacheValid :=
          if (ssgShape cfg mode).inverted = e.inverted ∧ (ssgShape cfg mode).jump = e.jump then e.ssgCacheValid
          else false } := by
  rw [modeFlags_eq_ssgShape, ← setMode_ssgCacheValid e ⟨_, _, _, (ssgShape cfg mode).looping⟩]
  rfl

/-- Mode 8 is entry 0 of SSG_DECODE, which is (loop, non-inverted, no jump) in every configuration (rule R107). -/
theorem ssgShape_eight (cfg : Cfg) : ssgShape cfg 8 = ⟨false, false, true⟩ :=
  Laws.ssgDecode_zero cfg

/-! ### What a setter does to the machine -/

section

variable {i : Instr} {cfg : Cfg} {c : Fin 16} {o : Fin 4} {f : Envelope → Envelope} {s s' : State}

theorem sameControl_putEnv (s : State) (c c' : Fin 16) (o : Fin 4) (e : Envelope) :
    Channel.sameControl (s.chan c') ((s.putEnv c o e).chan c') := by
  rw [chan_putEnv]
  split
  · next hc => subst hc; exact Channel.sameControl_refl _
  · exact Channel.sameControl_refl _

theorem onlyEnvelope_putEnv (s : State) (c : Fin 16) (o : Fin 4) (e : Envelope) : OnlyEnvelope s (s.putEnv c o e) c o :=
  ⟨fun _ _ => env_putEnv_other s c _ o _ e, fun _ _ => opr_putEnv .., fun c' => sameControl_putEnv s c c' o e⟩

/-- `Level` and `Life` read no register that a setter writes (rule R109). -/
theorem level_life_putEnv_setting (p : Setting) (c' : Fin 16) (o' : Fin 4) (t : ExReal) :
    (s.putEnv c o (p.apply (s.env c o))).level c' o' t = s.level c' o' t ∧
      (s.putEnv c o (p.apply (s.env c o))).life c' o' t = s.life c' o' t := by
  by_cases h : c' = c ∧ o' = o
  · obtain ⟨rfl, rfl⟩ := h
    simp [State.level, State.life]
  · simp [State.level, State.life, env_putEnv_other _ _ _ _ _ _ h]

theorem setEnvelope_of (f : Envelope → Envelope) (hc : cfg.hasChannel c = true)
    (hstopped : (s.chan c).stopped = false) :
    setEnvelope cfg c o f s = .next ((s.putEnv c o (f (s.env c o))).respond .ok (.rat 0)) :=
  withChecks_pass hc rfl (commandTime_now s.ports) hstopped

/-- A setter on a channel that exists and is not stopped is performed, and leaves what its setting leaves. -/
theorem setsEnvelope_of_setting (p : Setting) (hexec : exec i s = setEnvelope Config.cfg c o p.apply s)
    (hc : Config.cfg.hasChannel c = true) (hstopped : (s.chan c).stopped = false) :
    SetsEnvelope i s c o (p.apply (s.env c o)) :=
  ⟨_, hexec.trans (setEnvelope_of p.apply hc hstopped), ⟨⟨rfl, by simp, rfl, rfl⟩, rfl⟩, env_putEnv_same ..,
    onlyEnvelope_putEnv .., level_life_putEnv_setting p⟩

/-! ### Writes of envelopes as functions of the registers -/

/-- The registers with every envelope (c, o) replaced by its image under `u c o`. -/
def mapEnvelopes (u : Fin 16 → Fin 4 → Envelope → Envelope) (chans : Vector Channel 16) : Vector Channel 16 :=
  .ofFn fun c => { chans[c] with envs := .ofFn fun o => u c o chans[c].envs[o] }

theorem mapEnvelopes_mapEnvelopes (u v : Fin 16 → Fin 4 → Envelope → Envelope) (chans : Vector Channel 16) :
    mapEnvelopes u (mapEnvelopes v chans) = mapEnvelopes (fun c o e => u c o (v c o e)) chans := by
  simp [mapEnvelopes]

/-- `f` at envelope (c, o) and nothing elsewhere; nothing at all where channel c does not exist (rule R202). -/
def updateAt (f : Envelope → Envelope) (c : Fin 16) (o : Fin 4) (c' : Fin 16) (o' : Fin 4) (e : Envelope) : Envelope :=
  if Config.cfg.hasChannel c = true ∧ c' = c ∧ o' = o then f e else e

theorem updateAt_self (hf : ∀ e, f (f e) = f e) (c' : Fin 16) (o' : Fin 4) (e : Envelope) :
    updateAt f c o c' o' (updateAt f c o c' o' e) = updateAt f c o c' o' e := by
  unfold updateAt
  split
  · exact hf e
  · rfl

/-- Two updates commute where they are of different envelopes or the functions commute. -/
theorem updateAt_comm {g : Envelope → Envelope} {d : Fin 16} {r : Fin 4}
    (h : c = d → o = r → ∀ e, f (g e) = g (f e)) (c' : Fin 16) (o' : Fin 4) (e : Envelope) :
    updateAt f c o c' o' (updateAt g d r c' o' e) = updateAt g d r c' o' (updateAt f c o c' o' e) := by
  unfold updateAt
  by_cases hf : Config.cfg.hasChannel c = true ∧ c' = c ∧ o' = o
  · by_cases hg : Config.cfg.hasChannel d = true ∧ c' = d ∧ o' = r
    · simp only [if_pos hf, if_pos hg]
      exact h (hf.2.1.symm.trans hg.2.1) (hf.2.2.symm.trans hg.2.2) e
    · simp only [if_neg hg]
  · simp only [if_neg hf]

theorem putEnv_chans_eq_mapEnvelopes (hc : Config.cfg.hasChannel c = true) :
    (s.putEnv c o (f (s.env c o))).chans = mapEnvelopes (updateAt f c o) s.chans := by
  ext k hk : 1
  have hchan := chan_putEnv s c ⟨k, hk⟩ o (f (s.env c o))
  simp only [State.chan] at hchan
  rw [hchan, mapEnvelopes, Vector.getElem_ofFn]
  split
  · next h =>
    subst h
    congr 1
    ext r hr : 1
    rw [Vector.getElem_ofFn]
    by_cases ho : o.val = r
    · subst ho
      simp [updateAt, hc, State.env, State.chan]
    · simp [updateAt, Fin.ext_iff, ho, Ne.symm ho]
  · next h => simp [updateAt, h]

theorem mapEnvelopes_updateAt_of_absent (hc : ¬Config.cfg.hasChannel c = true) (chans : Vector Channel 16) :
    mapEnvelopes (updateAt f c o) chans = chans := by
  simp [mapEnvelopes, updateAt, hc]

/-- A setter that has a next state has made its update: a channel that does not exist is left alone, a stopped one has
no next state. -/
theorem setEnvelope_chans (h : setEnvelope Config.cfg c o f s = .next s') :
    s'.chans = mapEnvelopes (updateAt f c o) s.chans := by
  by_cases hc : Config.cfg.hasChannel c = true
  · cases hstopped : (s.chan c).stopped with
    | true =>
      have hchecks := (commonChecks_stopped Config.cfg c false true s).mpr ⟨hc, rfl, rfl, hstopped⟩
      simp [setEnvelope, withChecks, hchecks] at h
    | false =>
      obtain rfl := Host.Outcome.next.inj ((setEnvelope_of f hc hstopped).symm.trans h)
      exact putEnv_chans_eq_mapEnvelopes hc
  · obtain rfl := Host.Outcome.next.inj ((withChecks_fail fun hchecks => hc hchecks.1).symm.trans h)
    exact (mapEnvelopes_updateAt_of_absent hc s.chans).symm

end

end Sys2Proof.Machine

namespace Sys2Proof.Proofs

open Sys2Proof Sys2Proof.Machine

/-- Settles O14: each of the six commands is `setEnvelope` of its setting. -/
theorem rateSettersWriteOneRegister : Obligations.RateSettersWriteOneRegister := by
  intro s c o hc hstopped
  exact ⟨fun rate => setsEnvelope_of_setting (.attackRate rate) rfl hc hstopped,
    fun rate => setsEnvelope_of_setting (.decayRate rate) rfl hc hstopped,
    fun level => setsEnvelope_of_setting (.sustainLevel level) rfl hc hstopped,
    fun rate => setsEnvelope_of_setting (.sustainRate rate) rfl hc hstopped,
    fun rate => setsEnvelope_of_setting (.releaseRate rate) rfl hc hstopped,
    fun scaling => setsEnvelope_of_setting (.rateScaling scaling) rfl hc hstopped⟩

/-- Settles O15: EG.SETSSG is `setEnvelope` of its mode, and mode 8 is the entry that every configuration fixes. -/
theorem ssgModeReplacesFlags : Obligations.SsgModeReplacesFlags := by
  intro s c o mode hc hstopped
  refine ⟨?_, ?_⟩
  · have hset := setsEnvelope_of_setting (.mode (modeFlags Config.cfg mode)) rfl hc hstopped (i := .egSetssg c o mode)
    rwa [Setting.apply, setMode_modeFlags] at hset
  · rintro rfl
    exact ssgShape_eight Config.cfg

/-- Settles O16: two setters in a row are two updates of the envelopes in a row. -/
theorem settersAreIdempotentAndCommute : Obligations.SettersAreIdempotentAndCommute := by
  rintro i j ⟨n, c, o⟩ ⟨m, d, r⟩ s hi hj
  obtain ⟨p, rfl, hp⟩ := exec_of_setter hi
  obtain ⟨q, rfl, hq⟩ := exec_of_setter hj
  simp only [hp, hq]
  refine ⟨fun s1 s2 h1 h2 => ?_, fun hne s1 s2 u1 u2 h1 h2 k1 k2 => ?_⟩
  · rw [setEnvelope_chans h2, setEnvelope_chans h1, mapEnvelopes_mapEnvelopes]
    simp only [updateAt_self p.apply_apply_self]
  · have hcomm : c = d → o = r → ∀ e, p.apply (q.apply e) = q.apply (p.apply e) := by
      rintro rfl rfl e
      exact p.apply_comm q e fun hindex => hne (by rw [hindex])
    rw [setEnvelope_chans h2, setEnvelope_chans h1, setEnvelope_chans k2, setEnvelope_chans k1,
      mapEnvelopes_mapEnvelopes, mapEnvelopes_mapEnvelopes]
    simp only [updateAt_comm hcomm]

end Sys2Proof.Proofs
end

section
/-!
LEMMAS. The level function branch by branch over the real numbers (rules R129 to R134), for every envelope: which branch a
time is read from, the base profile, and the cycles of an SSG note.
-/

namespace Sys2Proof.Machine

open Sys2Proof

section

variable {cfg : Cfg} {e : Envelope} {t u : ExReal}

/-- A phase end that is not after a real time is finite. -/
theorem exists_fin_of_val_le {x : ETime} {r : ℝ} (h : x.val ≤ (r : EReal)) : ∃ a, x = .fin a ∧ a.val ≤ r := by
  cases x with
  | inf => exact absurd h (by simp)
  | fin a => exact ⟨a, rfl, EReal.coe_le_coe_iff.mp h⟩

/-! ### Which branch a time is read from (rule R130) -/

theorem level_of_key_on (hkey : e.egKey = .on) : e.level cfg t = e.keyedLevel cfg t := by
  rw [Envelope.level, hkey]

theorem level_before_release (hkey : e.egKey = .off) (h : t.val < e.beginRelease.val) :
    e.level cfg t = e.keyedLevel cfg t := by
  have hle : ExReal.le e.beginRelease t = false := (ExReal.le_eq_false_iff ..).mpr h
  simp [Envelope.level, hkey, hle]

theorem keyedLevel_of_begun (h : e.beginAttack.val ≤ t.val) : e.keyedLevel cfg t = some (e.noteLevel cfg t) := by
  simp [Envelope.keyedLevel, h]

theorem keyedLevel_eq_none_iff : e.keyedLevel cfg t = none ↔ t.val < e.beginAttack.val := by
  simp [Envelope.keyedLevel]

/-- A time that is read from the key-on snapshot has the level of the note. -/
theorem Envelope.ReadsNote.level_eq (h : e.ReadsNote t) : e.level cfg t = some (e.noteLevel cfg t) := by
  obtain ⟨hkey | ⟨hkey, hrelease⟩, hbegin⟩ := h
  · exact level_of_on hkey hbegin
  · rw [level_before_release hkey hrelease, keyedLevel_of_begun hbegin]

/-- The level is undefined only before the current note of a keyed envelope (rule R130 (c)). -/
theorem level_eq_none_iff :
    e.level cfg t = none ↔
      e.egKey ≠ .idle ∧ ¬(e.egKey = .off ∧ e.beginRelease.val ≤ t.val) ∧ t.val < e.beginAttack.val := by
  cases hkey : e.egKey with
  | idle => simp [Envelope.level, hkey]
  | on => simp [level_of_key_on hkey, keyedLevel_eq_none_iff]
  | off =>
    by_cases hrelease : e.beginRelease.val ≤ t.val
    · simp [level_of_release hkey hrelease, hrelease]
    · simp [level_before_release hkey (not_le.mp hrelease), keyedLevel_eq_none_iff, hrelease]

/-! ### The attack and the release (rules R131, R134) -/

theorem tau_val (cfg : Cfg) (code : BitVec 6) :
    (tau cfg code).val = (cfg.data.attackConstant code).val * cfg.data.envTick := by
  rw [tau, ExReal.val_scale, mul_comm]

theorem noteLevel_during_attack (h : (t.val : EReal) < e.endAttack.val) : e.noteLevel cfg t = e.attackLevel cfg t := by
  cases ha : e.endAttack with
  | inf => exact noteLevel_of_endless ha
  | fin a => exact noteLevel_in_attack ha (by simpa [ha] using h)

theorem releaseAt_of_endless (h : e.endRelease = .inf) : e.releaseAt t = e.releaseLevel := by
  simp [Envelope.releaseAt, h]

theorem releaseAt_val {r : ExReal} (h : e.endRelease = .fin r) :
    (e.releaseAt t).val =
      if r.val ≤ t.val then 0 else e.releaseLevel.val * (r.val - t.val) / (r.val - e.beginRelease.val) := by
  by_cases hrt : r.val ≤ t.val
  · simp [Envelope.releaseAt, h, hrt, not_lt.mpr hrt]
  · simp [Envelope.releaseAt, h, hrt, not_le.mp hrt]

/-- The approach towards a level above its begin level does not fall. -/
theorem approachAt_mono {g b tc x y : ℝ} (hg : b ≤ g) (htc : 0 < tc) (hxy : x ≤ y) :
    approachAt g b tc x ≤ approachAt g b tc y := by
  have hexp : Real.exp (-y / tc) ≤ Real.exp (-x / tc) :=
    Real.exp_le_exp.mpr (div_le_div_of_nonneg_right (neg_le_neg hxy) htc.le)
  exact sub_le_sub_left (mul_le_mul_of_nonneg_left hexp (sub_nonneg.mpr hg)) g

theorem attackLevel_mono (hbegin : e.beginLevel.val ≤ 1023) (htu : t.val ≤ u.val) :
    (e.attackLevel cfg t).val ≤ (e.attackLevel cfg u).val := by
  by_cases hrate : e.prevAttackRate = 0
  · rw [attackLevel_of_no_rate hrate, attackLevel_of_no_rate hrate]
  · rw [attackLevel_val hrate, attackLevel_val hrate]
    have hg := Laws.attackTarget_gt cfg e.prevAttackRate
    exact max_le_max_left _ (min_le_min_left _
      (approachAt_mono (by linarith) (Laws.tau_pos cfg e.prevAttackRate) (by linarith)))

end

/-! ### The base profile (rule R129) -/

section

variable {e : Envelope} {d q : ExReal} {a s x y : ℝ}

theorem profile_of_endless (hd : e.endDecay = .inf) : e.profile a s = 1023 := by
  simp [Envelope.profile, hd]

theorem profile_in_decay (hd : e.endDecay = .fin d) (h : s < d.val - a) :
    e.profile a s = 1023 - (1023 - e.snapSL.toNat) * s / (d.val - a) := by
  simp [Envelope.profile, hd, h]

theorem profile_held (hd : e.endDecay = .fin d) (hq : e.endSustain = .inf) (h : d.val - a ≤ s) :
    e.profile a s = e.snapSL.toNat := by
  simp [Envelope.profile, hd, hq, not_lt.mpr h]

theorem profile_in_sustain (hd : e.endDecay = .fin d) (hq : e.endSustain = .fin q) (h : d.val - a ≤ s)
    (hs : s < q.val - a) :
    e.profile a s = e.snapSL.toNat - e.snapSL.toNat * (s - (d.val - a)) / (q.val - d.val) := by
  simp [Envelope.profile, hd, hq, not_lt.mpr h, hs]

theorem profile_ended (hd : e.endDecay = .fin d) (hq : e.endSustain = .fin q) (h : d.val - a ≤ s)
    (hs : q.val - a ≤ s) : e.profile a s = 0 := by
  simp [Envelope.profile, hd, hq, not_lt.mpr h, not_lt.mpr hs]

/-- In the decay the profile has not fallen below the sustain level. -/
theorem snapSL_le_profile (hd : e.endDecay = .fin d) (h0 : 0 ≤ s) (h : s < d.val - a) :
    e.snapSL.toNat ≤ e.profile a s := by
  have hfall := (ramp_mem (sub_nonneg.mpr (snapSL_le e)) h0 h.le).2
  rw [profile_in_decay hd h]
  linarith

/-- From the end of the decay on the profile lies between 0 and the sustain level. -/
theorem profile_mem_of_decayed (hd : e.endDecay = .fin d) (h : d.val - a ≤ s) :
    0 ≤ e.profile a s ∧ e.profile a s ≤ e.snapSL.toNat := by
  have hsl : (0 : ℝ) ≤ e.snapSL.toNat := Nat.cast_nonneg _
  cases hq : e.endSustain with
  | inf => exact ⟨hsl.trans_eq (profile_held hd hq h).symm, (profile_held hd hq h).le⟩
  | fin q =>
    by_cases hs : s < q.val - a
    · obtain ⟨hlow, hhigh⟩ := ramp_mem hsl (sub_nonneg.mpr h) (show s - (d.val - a) ≤ q.val - d.val by linarith)
      rw [profile_in_sustain hd hq h hs]
      constructor <;> linarith
    · rw [profile_ended hd hq h (not_lt.mp hs)]
      exact ⟨le_rfl, hsl⟩

/-- From the end of the decay on the profile does not rise. -/
theorem profile_antitone_of_decayed (hd : e.endDecay = .fin d) (hx : d.val - a ≤ x) (hxy : x ≤ y) :
    e.profile a y ≤ e.profile a x := by
  cases hq : e.endSustain with
  | inf => rw [profile_held hd hq hx, profile_held hd hq (hx.trans hxy)]
  | fin q =>
    by_cases hy : y < q.val - a
    · rw [profile_in_sustain hd hq hx (hxy.trans_lt hy), profile_in_sustain hd hq (hx.trans hxy) hy]
      have hlen : 0 ≤ q.val - d.val := by linarith
      gcongr
    · rw [profile_ended hd hq (hx.trans hxy) (not_lt.mp hy)]
      exact (profile_mem_of_decayed hd hx).1

/-- The profile does not rise: it falls to the sustain level in the decay and from there to 0. -/
theorem profile_antitone (h0 : 0 ≤ x) (hxy : x ≤ y) : e.profile a y ≤ e.profile a x := by
  cases hd : e.endDecay with
  | inf => rw [profile_of_endless hd, profile_of_endless hd]
  | fin d =>
    by_cases hx : x < d.val - a
    · by_cases hy : y < d.val - a
      · rw [profile_in_decay hd hx, profile_in_decay hd hy]
        have hlen : 0 ≤ d.val - a := by linarith
        have hsl : (0 : ℝ) ≤ 1023 - e.snapSL.toNat := sub_nonneg.mpr (snapSL_le e)
        gcongr
      · exact (profile_mem_of_decayed hd (not_lt.mp hy)).2.trans (snapSL_le_profile hd h0 hx)
    · exact profile_antitone_of_decayed hd (not_lt.mp hx) hxy

end

/-! ### The cycles of an SSG note (rule R133) -/

section

variable {cfg : Cfg} {e : Envelope} {a p q s t u : ExReal}

theorem cycleNumber_eq : cycleNumber s p = ⌊s.val / p.val⌋ := by
  simp [cycleNumber]

theorem cyclePosition_val : (cyclePosition s p).val = s.val - ⌊s.val / p.val⌋ * p.val := by
  simp [cyclePosition, cycleNumber_eq]

/-- A whole number of cycles later is the same position, so many cycles further on. -/
theorem cycle_add (hp : 0 < p.val) (n : ℤ) (h : u.val = s.val + n * p.val) :
    cycleNumber u p = cycleNumber s p + n ∧ (cyclePosition u p).val = (cyclePosition s p).val := by
  have hquot : u.val / p.val = s.val / p.val + n := by
    rw [h, add_div, mul_div_cancel_right₀ _ hp.ne']
  rw [cycleNumber_eq, cycleNumber_eq, cyclePosition_val, cyclePosition_val, hquot, Int.floor_add_intCast]
  refine ⟨rfl, ?_⟩
  push_cast
  linarith

/-- On cycle 0 the position is the time itself. -/
theorem cycle_zero (h0 : 0 ≤ s.val) (hlt : s.val < p.val) :
    cycleNumber s p = 0 ∧ (cyclePosition s p).val = s.val := by
  have hfloor : ⌊s.val / p.val⌋ = 0 :=
    Int.floor_eq_zero_iff.mpr ⟨div_nonneg h0 (h0.trans hlt.le), (div_lt_one (h0.trans_lt hlt)).mpr hlt⟩
  rw [cycleNumber_eq, cyclePosition_val, hfloor]
  simp

theorem post_of_endless (hq : e.endSustain = .inf) : e.post a s = e.baseProfile a s := by
  cases hssg : e.snapSSG <;> simp [Envelope.post, hssg, hq]

section

variable (hssg : e.snapSSG = true) (hq : e.endSustain = .fin q)
include hssg hq

theorem post_once (hloop : e.snapLoop = false) (hjump : e.snapJmp = false) : e.post a s = e.baseProfile a s := by
  simp [Envelope.post, hssg, hq, hloop, hjump]

theorem post_once_jump (hloop : e.snapLoop = false) (hjump : e.snapJmp = true) :
    (e.post a s).val = if s.val < q.val - a.val then e.profile a.val s.val else 1023 := by
  rw [← baseProfile_val]
  by_cases h : s.val < q.val - a.val <;> simp [Envelope.post, hssg, hq, hloop, hjump, h]

theorem post_repeat (hloop : e.snapLoop = true) (hjump : e.snapJmp = true) :
    e.post a s = e.baseProfile a (cyclePosition s (ExReal.minus q a)) := by
  simp [Envelope.post, hssg, hq, hloop, hjump]

theorem post_alternate (hloop : e.snapLoop = true) (hjump : e.snapJmp = false) :
    (e.post a s).val =
      if cycleNumber s (ExReal.minus q a) % 2 = 0 then
        e.profile a.val (cyclePosition s (ExReal.minus q a)).val
      else 1023 - e.profile a.val (cyclePosition s (ExReal.minus q a)).val := by
  rw [← baseProfile_val]
  by_cases h : cycleNumber s (ExReal.minus q a) % 2 = 0 <;> simp [Envelope.post, hssg, hq, hloop, hjump, h]

/-- A looping note repeats: after one cycle where it jumps, after two where not. -/
theorem post_periodic (hloop : e.snapLoop = true) (hp : a.val < q.val)
    (hu : u.val = s.val + (if e.snapJmp then 1 else 2) * (q.val - a.val)) :
    (e.post a u).val = (e.post a s).val := by
  have hcycle : 0 < (ExReal.minus q a).val := by simpa using hp
  cases hjump : e.snapJmp with
  | true =>
    obtain ⟨-, hposition⟩ := cycle_add (s := s) (u := u) hcycle 1 (by simpa [hjump] using hu)
    rw [post_repeat hssg hq hloop hjump, post_repeat hssg hq hloop hjump, baseProfile_val, baseProfile_val, hposition]
  | false =>
    obtain ⟨hnumber, hposition⟩ := cycle_add (s := s) (u := u) hcycle 2 (by simpa [hjump] using hu)
    rw [post_alternate hssg hq hloop hjump, post_alternate hssg hq hloop hjump, hposition, hnumber,
      Int.add_emod_right]

end

/-- On cycle 0 every note has its base profile. -/
theorem post_cycle_zero (h0 : 0 ≤ s.val) (hs : ((s.val + a.val : ℝ) : EReal) < e.endSustain.val) :
    (e.post a s).val = e.profile a.val s.val := by
  cases hssg : e.snapSSG with
  | false => rw [post_of_plain hssg, baseProfile_val]
  | true =>
    cases hq : e.endSustain with
    | inf => rw [post_of_endless hq, baseProfile_val]
    | fin q =>
      rw [hq, ETime.val_fin, EReal.coe_lt_coe_iff] at hs
      have hlt : s.val < (ExReal.minus q a).val := by rw [ExReal.val_minus]; linarith
      obtain ⟨hnumber, hposition⟩ := cycle_zero h0 hlt
      cases hloop : e.snapLoop <;> cases hjump : e.snapJmp
      · rw [post_once hssg hq hloop hjump, baseProfile_val]
      · rw [post_once_jump hssg hq hloop hjump, if_pos (by linarith)]
      · rw [post_alternate hssg hq hloop hjump, hnumber, if_pos (Int.zero_emod 2), hposition]
      · rw [post_repeat hssg hq hloop hjump, baseProfile_val, hposition]

/-! ### The level of a note after its attack (rule R141 (d)) -/

/-- A plain note does not rise: its base profile does not. -/
theorem noteLevel_antitone_of_plain (he : e.Inv) (hssg : e.snapSSG = false)
    (hended : e.endAttack.val ≤ (t.val : EReal)) (htu : t.val ≤ u.val) :
    (e.noteLevel cfg u).val ≤ (e.noteLevel cfg t).val := by
  obtain ⟨a, ha, hat⟩ := exists_fin_of_val_le hended
  rw [noteLevel_of_plain he hssg ha hat, noteLevel_of_plain he hssg ha (hat.trans htu)]
  exact profile_antitone (sub_nonneg.mpr hat) (sub_le_sub_right htu _)

/-- On cycle 0 an inverted note does not fall: it is the mirror of its base profile. -/
theorem noteLevel_mono_of_inverted (hinv : e.snapInv = true) (hended : e.endAttack.val ≤ (t.val : EReal))
    (htu : t.val ≤ u.val) (hcycle : (u.val : EReal) < e.endSustain.val) :
    (e.noteLevel cfg t).val ≤ (e.noteLevel cfg u).val := by
  obtain ⟨a, ha, hat⟩ := exists_fin_of_val_le hended
  have hpost : ∀ v : ExReal, a.val ≤ v.val → v.val ≤ u.val →
      (e.post a (ExReal.minus v a)).val = e.profile a.val (v.val - a.val) := fun v hav hvu => by
    rw [post_cycle_zero (by simpa using hav)
      (by simpa using (EReal.coe_le_coe_iff.mpr hvu).trans_lt hcycle), ExReal.val_minus]
  rw [noteLevel_after_attack ha hat, noteLevel_after_attack ha (hat.trans htu), if_pos hinv, if_pos hinv,
    hpost t hat htu, hpost u (hat.trans htu) le_rfl]
  exact sub_le_sub_left (profile_antitone (sub_nonneg.mpr hat) (sub_le_sub_right htu _)) _

end

end Sys2Proof.Machine

namespace Sys2Proof.Proofs

open Sys2Proof Sys2Proof.Machine

/-- Settles O28: the attack branch is `attackLevel`, the release branch `releaseAt`. -/
theorem attackAndReleaseBranches : Obligations.AttackAndReleaseBranches := by
  intro cfg e t
  refine ⟨fun hreads hattack => ⟨_, hreads.level_eq, ?_, ?_⟩,
    fun hkey hrelease => ⟨_, level_of_release hkey hrelease, releaseAt_of_endless, fun r hr => releaseAt_val hr⟩⟩
  · rw [noteLevel_during_attack hattack]
    exact attackLevel_of_no_rate
  · intro hrate
    rw [noteLevel_during_attack hattack, attackLevel_val hrate, tau_val, approachAt]

/-- Settles O29: after the attack the level is the ramp value, inverted last. -/
theorem postAttackBranches : Obligations.PostAttackBranches := by
  intro cfg e t a hreads ha hat
  refine ⟨_, (e.post a (ExReal.minus t a)).val, hreads.level_eq, noteLevel_after_attack ha hat, ?_, ?_⟩
  · rintro (hssg | hq)
    · rw [post_of_plain hssg, baseProfile_val, ExReal.val_minus]
    · rw [post_of_endless hq, baseProfile_val, ExReal.val_minus]
  · intro q hssg hq
    refine ⟨fun hloop hjump => ?_, fun hloop hjump => ?_, fun hloop hjump => ?_, fun hloop hjump => ?_⟩
    · rw [post_once hssg hq hloop hjump, baseProfile_val, ExReal.val_minus]
    · rw [post_once_jump hssg hq hloop hjump, ExReal.val_minus]
    · rw [post_repeat hssg hq hloop hjump, baseProfile_val, cyclePosition_val, ExReal.val_minus, ExReal.val_minus]
    · rw [post_alternate hssg hq hloop hjump, cycleNumber_eq, cyclePosition_val, ExReal.val_minus, ExReal.val_minus]

/-- Settles O30: every branch of the level stays in range on an envelope with the invariant. -/
theorem levelStaysInBounds : Obligations.LevelStaysInBounds :=
  fun _ c o _ _ hs hlevel => level_inLevelRange Config.cfg (hs.env c o) hlevel

/-- Settles O32: the approach of the attack does not fall, the base profile does not rise, and on cycle 0 an inverted
note is the mirror of its profile. -/
theorem levelIsMonotone : Obligations.LevelIsMonotone := by
  intro s c o t u x y hs e hkey hbegin htu hx hy
  have he : e.Inv := hs.env c o
  obtain rfl := Option.some.inj ((level_of_on hkey hbegin).symm.trans hx)
  obtain rfl := Option.some.inj ((level_of_on hkey (hbegin.trans htu)).symm.trans hy)
  refine ⟨fun _ hattack => ?_, fun hssg hended => noteLevel_antitone_of_plain he hssg hended htu,
    fun _ hinv hended hcycle => noteLevel_mono_of_inverted hinv hended htu hcycle⟩
  rw [noteLevel_during_attack hattack, noteLevel_during_attack ((EReal.coe_le_coe_iff.mpr htu).trans_lt hattack)]
  exact attackLevel_mono he.begin_level.2 htu

/-- Settles O33: the ramp value of a looping note is that of its position in the cycle. -/
theorem loopingLevelIsPeriodic : Obligations.LoopingLevelIsPeriodic := by
  intro s c o a q t u x y hs e hkey hssg hloop ha hq hat hu hx hy
  have he : e.Inv := hs.env c o
  have hcycle : a.val < q.val := he.cycle_length hssg a q ha hq
  have hbegin : e.beginAttack.val ≤ a.val := by simpa [ha] using he.attack_end
  have htu : t.val ≤ u.val := by
    rw [hu]
    exact le_add_of_nonneg_right (mul_nonneg (by split <;> norm_num) (sub_nonneg.mpr hcycle.le))
  obtain rfl := Option.some.inj ((level_of_on hkey (hbegin.trans hat)).symm.trans hx)
  obtain rfl := Option.some.inj ((level_of_on hkey (hbegin.trans (hat.trans htu))).symm.trans hy)
  have hpost : (e.post a (ExReal.minus u a)).val = (e.post a (ExReal.minus t a)).val :=
    post_periodic hssg hq hloop hcycle (by rw [ExReal.val_minus, ExReal.val_minus, hu]; ring)
  rw [noteLevel_after_attack ha hat, noteLevel_after_attack ha (hat.trans htu), hpost]

end Sys2Proof.Proofs
end

section
/-!
LEMMAS. What the keying commands leave when they are performed (rules R126, R135, R137) and what EG.LEVEL answers (R139):
one equation per command, and its frame.
-/

namespace Sys2Proof.Machine

open Sys2Proof

section

variable {c : Fin 16} {o : Fin 4} {tv : Bool} {t b l : ExReal} {s s' : State}

/-! ### The command behind its checks -/

/-- A ready command is its body at the command's time. -/
theorem Ready.withChecks_eq (hready : Ready s c tv t) (body : ExReal → Result) :
    withChecks Config.cfg c tv true s body = body t := by
  obtain ⟨hc, ht, hstopped⟩ := hready
  exact withChecks_pass hc rfl ht hstopped

theorem exec_egKeyon_of (hready : Ready s c tv t) (horder : (s.env c o).lastTime.val ≤ t.val)
    (hlevel : s.level c o t = some b) (tag : BitVec 8) (kc : BitVec 5) :
    exec (.egKeyon c o tv tag kc) s = .next ((keyedOn Config.cfg c o tag kc t b s).respond .ok (.rat 0)) := by
  refine (hready.withChecks_eq _).trans ?_
  rw [keyOnEnvelope_of tag kc horder hlevel, finish_ok]

theorem exec_egKeyoff_of (hready : Ready s c tv t) (horder : (s.env c o).lastTime.val ≤ t.val)
    (hlevel : s.level c o t = some l) (tag : BitVec 8) (kc : BitVec 5) :
    exec (.egKeyoff c o tv tag kc) s =
      .next (((s.putEnv c o ((s.env c o).keyOff Config.cfg tag kc t l)).emit
        (keyOffEvents c o t ((s.env c o).keyOff Config.cfg tag kc t l))).respond .ok (.rat 0)) := by
  refine (hready.withChecks_eq _).trans ?_
  rw [keyOffEnvelope_of tag kc horder hlevel, finish_ok]

theorem exec_egSoundoff_of (hready : Ready s c tv t) (horder : (s.env c o).lastTime.val ≤ t.val) :
    exec (.egSoundoff c o tv) s =
      .next (((s.putEnv c o ((s.env c o).soundOff t)).emit (soundOffEvents c o t)).respond .ok (.rat 0)) := by
  refine (hready.withChecks_eq _).trans ?_
  rw [soundOffEnvelope_of horder, finish_ok]

theorem exec_egLevel_of_some (hready : Ready s c tv t) (hlevel : s.level c o t = some b) :
    exec (.egLevel c o tv) s = .next (s.respond .ok b) := by
  refine (hready.withChecks_eq _).trans ?_
  rw [State.level] at hlevel
  simp only [hlevel, answerValue]

theorem exec_egLevel_of_none (hready : Ready s c tv t) (hlevel : s.level c o t = none) :
    exec (.egLevel c o tv) s = .refused .undefinedLevel := by
  refine (hready.withChecks_eq _).trans ?_
  rw [State.level] at hlevel
  simp only [hlevel]

/-! ### What it leaves -/

/-- A state whose channels are those after a write of one envelope differs in that envelope only. -/
theorem onlyEnvelope_of_chan {e : Envelope} (h : ∀ c', s'.chan c' = (s.putEnv c o e).chan c') :
    OnlyEnvelope s s' c o := by
  obtain ⟨henv, hopr, hcontrol⟩ := onlyEnvelope_putEnv s c o e
  simp only [State.env, State.opr] at henv hopr
  exact ⟨by simpa only [State.env, h] using henv, by simpa only [State.opr, h] using hopr,
    by simpa only [h] using hcontrol⟩

theorem keyedOn_answered (tag : BitVec 8) (kc : BitVec 5) :
    Answered s ((keyedOn Config.cfg c o tag kc t b s).respond .ok (.rat 0)) .ok (.rat 0)
      (keyOnEvents Config.cfg c o t (s.freeCount c) ((s.env c o).keyOn Config.cfg tag kc t b)) := by
  simp [Answered]

/-- A key-on takes a free value of its channel where its note is an SSG note (log entry 4). -/
theorem keyedOn_freeCount (cfg : Cfg) (c c' : Fin 16) (o : Fin 4) (tag : BitVec 8) (kc : BitVec 5) (t b : ExReal)
    (s : State) : (keyedOn cfg c o tag kc t b s).freeCount c' =
      s.freeCount c' + if c' = c ∧ (s.env c o).ssgEnabled = true then 1 else 0 := by
  have hssg : ((s.env c o).keyOn cfg tag kc t b).snapSSG = (s.env c o).ssgEnabled := rfl
  simp only [keyedOn, hssg]
  by_cases hmode : (s.env c o).ssgEnabled = true
  · rw [if_pos hmode, useFree_freeCount]
    by_cases hc : c' = c
    · simp [hc, hmode]
    · simp [hc]
  · simp [hmode]

/-- The envelope that a performed key-on leaves. -/
theorem env_keyedOn_respond (tag : BitVec 8) (kc : BitVec 5) :
    ((keyedOn Config.cfg c o tag kc t b s).respond .ok (.rat 0)).env c o =
      (s.env c o).keyOn Config.cfg tag kc t b := by
  rw [respond_env, keyedOn_env, env_putEnv_same]

/-- The level after a performed key-on is that of the note it leaves. -/
theorem level_keyedOn_respond (tag : BitVec 8) (kc : BitVec 5) {u : ExReal} (htu : t.val ≤ u.val) :
    ((keyedOn Config.cfg c o tag kc t b s).respond .ok (.rat 0)).level c o u =
      some (((s.env c o).keyOn Config.cfg tag kc t b).noteLevel Config.cfg u) := by
  rw [State.level, env_keyedOn_respond]
  exact level_of_on rfl htu

end

/-! ### The events as real numbers -/

section

variable {c : Fin 16} {o : Fin 4} {e : Envelope} {t l : ExReal}

@[simp] theorem map_real_stopEvents (tag : BitVec 8) (x : ETime) :
    (stopEvents c o tag x).map Event.real = realStop c o tag x := by
  cases x <;> rfl

/-- The release ramp of rule R136 over the reals, of a key-off at `t`. -/
noncomputable def releaseGroup (p : Param) (t : ℝ) (eR : ETime) : List RealEvent :=
  match eR with
  | .fin r => if t < r.val then [.linRamp p 0 r.val] else []
  | .inf => []

theorem map_real_keyOffEvents :
    (keyOffEvents c o t e).map Event.real =
      [.cancelHold (.gain c o) t.val, .set (.gain c o) (e.releaseLevel.val / 1023) t.val] ++
        releaseGroup (.gain c o) t.val e.endRelease ++ realStop c o e.srcTag e.endRelease := by
  cases hend : e.endRelease with
  | inf => simp [keyOffEvents, hend, releaseGroup, Event.real]
  | fin r => by_cases hlt : t.val < r.val <;> simp [keyOffEvents, hend, releaseGroup, Event.real, hlt]

/-! ### Rate codes and the end of the release (rules R120, R121, R135) -/

/-- The rate code of rule R121 with the key scaling of rule R120. -/
theorem rateCode_rateAdjust (r kc : BitVec 5) (rs : BitVec 2) (off : Nat) :
    rateCode r (rateAdjust kc rs) off =
      BitVec.ofNat 6 (min 63 (2 * r.toNat + off + kc.toNat / 2 ^ (3 - rs.toNat))) := by
  rw [rateCode, rateAdjust, Nat.shiftRight_eq_div_pow]

theorem rateCode_rateAdjust_zero (r kc : BitVec 5) (rs : BitVec 2) :
    rateCode r (rateAdjust kc rs) 0 = BitVec.ofNat 6 (min 63 (2 * r.toNat + kc.toNat / 2 ^ (3 - rs.toNat))) :=
  rateCode_rateAdjust r kc rs 0

variable {cfg : Cfg} {r : BitVec 5} {adj : Nat}

theorem releaseEnd_of_silent (hl : l.val = 0) : releaseEnd cfg t l r adj = .fin t := by
  simp [releaseEnd, hl]

theorem releaseEnd_of_no_slope (hl : l.val ≠ 0) (hslope : incPerSec cfg (rateCode r adj 1) = 0) :
    releaseEnd cfg t l r adj = .inf := by
  simp [releaseEnd, hl, hslope]

theorem releaseEnd_of_slope (hl : l.val ≠ 0) (hslope : incPerSec cfg (rateCode r adj 1) ≠ 0) :
    (releaseEnd cfg t l r adj).val = ((t.val + l.val / incPerSec cfg (rateCode r adj 1) : ℝ) : EReal) := by
  simp [releaseEnd, hl, hslope]

end

end Sys2Proof.Machine

namespace Sys2Proof.Proofs

open Sys2Proof Sys2Proof.Machine

/-- Settles O17: `keyedOn` is the state that the performed command leaves, and `Envelope.keyOn` says every register. -/
theorem keyOnTakesSnapshot : Obligations.KeyOnTakesSnapshot := by
  intro s c o tv tag kc t b hready horder hlevel
  refine ⟨_, _, exec_egKeyon_of hready horder hlevel tag kc, keyedOn_answered tag kc, ?_⟩
  rw [env_keyedOn_respond]
  exact ⟨rfl, rfl, rfl, rfl, rfl, rfl, rfl, rfl, rfl, rfl, rfl, ⟨rfl, rfl, rfl, rfl, rfl, rfl, rfl, rfl, rfl, rfl⟩,
    ⟨rfl, rfl, rfl⟩, onlyEnvelope_of_chan fun c' => keyedOn_chan .., fun c' => keyedOn_freeCount ..⟩

/-- Settles O24: `Envelope.keyOff` says every register, and `releaseEnd` is the end of the release in the rule's cases. -/
theorem keyOffStartsRelease : Obligations.KeyOffStartsRelease := by
  intro s c o tv tag kc t l hready horder hlevel
  refine ⟨_, _, exec_egKeyoff_of hready horder hlevel tag kc, ⟨rfl, rfl, rfl, rfl⟩, rfl,
    onlyEnvelope_of_chan fun _ => rfl, ?_⟩
  simp only [← rateCode_rateAdjust]
  exact ⟨_, env_putEnv_same .., releaseEnd_of_silent, releaseEnd_of_no_slope, releaseEnd_of_slope,
    map_real_keyOffEvents⟩

/-- Settles O26: the level of a release of no length is 0, and before it the note is read as it was. -/
theorem soundOffSilences : Obligations.SoundOffSilences := by
  intro s c o tv t hready horder
  have henv : (((s.putEnv c o ((s.env c o).soundOff t)).emit (soundOffEvents c o t)).respond .ok (.rat 0)).env c o =
      (s.env c o).soundOff t := env_putEnv_same ..
  refine ⟨_, exec_egSoundoff_of hready horder, ⟨⟨rfl, rfl, rfl, rfl⟩, rfl⟩,
    onlyEnvelope_of_chan fun _ => rfl, henv, fun u htu => ?_, fun u hut hkey => ?_⟩
  · rw [State.level, henv, level_of_release rfl htu]
    simp [Envelope.releaseAt, Envelope.soundOff, htu]
  · rw [State.level, henv, level_before_release rfl hut, State.level, level_of_key_on hkey]
    rfl

/-- Settles O27: the query is the level at the command's time, which is undefined only before the current note. -/
theorem levelQueryHasNoSideEffect : Obligations.LevelQueryHasNoSideEffect := by
  intro s c o tv t hready
  refine ⟨fun v hlevel => ⟨_, exec_egLevel_of_some hready hlevel, ⟨rfl, by simp, rfl, rfl⟩, rfl, rfl⟩,
    exec_egLevel_of_none hready, fun hkey => ?_, level_eq_none_iff⟩
  rw [State.level, Envelope.level, hkey]

end Sys2Proof.Proofs
end

section
/-!
LEMMAS. The phase of an envelope (rule R140), one equation per interval of the note, and the order of the phases of a plain
note.
-/

namespace Sys2Proof.Machine

open Sys2Proof

variable {e : Envelope} {t u a q : ExReal}

/-- A time that is read from the key-on snapshot is in a phase of the note: no release has ended by then (rule R26). -/
theorem phase_of_readsNote (he : e.Inv) (h : e.ReadsNote t) : e.phase t = some (e.notePhase t) := by
  obtain ⟨hkey | ⟨hkey, hrelease⟩, hbegin⟩ := h
  · simp [Envelope.phase, hkey, hbegin]
  · have hsilent : ETime.le e.endRelease (.fin t) = false := by
      rw [← Bool.not_eq_true, ETime.le_iff, not_le]
      exact (EReal.coe_lt_coe_iff.mpr hrelease).trans_le he.release_end
    simp [Envelope.phase, hkey, not_lt.mpr hbegin, not_le.mpr hrelease, hsilent]

theorem phase_of_release (hkey : e.egKey = .off) (h : e.beginRelease.val ≤ t.val)
    (hend : (t.val : EReal) < e.endRelease.val) : e.phase t = some .release := by
  simp [Envelope.phase, hkey, h, hend]

theorem phase_of_silent (hkey : e.egKey = .off) (hend : e.endRelease.val ≤ (t.val : EReal)) :
    e.phase t = some .silent := by
  simp [Envelope.phase, hkey, hend]

theorem notePhase_attack (h : (t.val : EReal) < e.endAttack.val) : e.notePhase t = .attack := by
  simp [Envelope.notePhase, h]

section

variable (hssg : e.snapSSG = false)
include hssg

theorem notePhase_decay (h : e.endAttack.val ≤ (t.val : EReal)) (hd : (t.val : EReal) < e.endDecay.val) :
    e.notePhase t = .decay := by
  simp [Envelope.notePhase, hssg, not_lt.mpr h, hd]

theorem notePhase_sustain (h : e.endAttack.val ≤ (t.val : EReal)) (hd : e.endDecay.val ≤ (t.val : EReal))
    (hs : (t.val : EReal) < e.endSustain.val) : e.notePhase t = .sustain := by
  simp [Envelope.notePhase, hssg, not_lt.mpr h, not_lt.mpr hd, hs]

theorem notePhase_ended (h : e.endAttack.val ≤ (t.val : EReal)) (hd : e.endDecay.val ≤ (t.val : EReal))
    (hs : e.endSustain.val ≤ (t.val : EReal)) : e.notePhase t = .ended := by
  simp [Envelope.notePhase, hssg, not_lt.mpr h, not_lt.mpr hd, not_lt.mpr hs]

end

section

variable (hssg : e.snapSSG = true) (ha : e.endAttack = .fin a) (hat : a.val ≤ t.val)
include hssg ha hat

theorem notePhase_endless (hq : e.endSustain = .inf) : e.notePhase t = .cycle 0 := by
  simp [Envelope.notePhase, hssg, ha, hq, ETime.lt, not_lt.mpr hat]

theorem notePhase_hold (hq : e.endSustain = .fin q) (hloop : e.snapLoop = false) (hqt : q.val ≤ t.val) :
    e.notePhase t = .hold := by
  simp [Envelope.notePhase, hssg, ha, hq, ETime.lt, not_lt.mpr hat, hloop, not_lt.mpr hqt]

theorem notePhase_cycle (hq : e.endSustain = .fin q) (h : e.snapLoop = true ∨ t.val < q.val) :
    e.notePhase t = .cycle ⌊(t.val - a.val) / (q.val - a.val)⌋ := by
  have hcycling : (!e.snapLoop && !ExReal.lt t q) = false := by
    obtain hloop | hlt := h
    · simp [hloop]
    · simp [hlt]
  simp [Envelope.notePhase, hssg, ha, hq, ETime.lt, not_lt.mpr hat, hcycling, cycleNumber_eq]

end

/-! ### The order of the phases of a plain note -/

/-- The rank of the phase of a plain note: how many of the three ends, taken in order, `t` has passed. -/
def Envelope.plainRank (e : Envelope) (t : ExReal) : Nat :=
  if ETime.lt (.fin t) e.endAttack then 0
  else if ETime.lt (.fin t) e.endDecay then 1
  else if ETime.lt (.fin t) e.endSustain then 2
  else 3

theorem notePhase_rank (hssg : e.snapSSG = false) : (e.notePhase t).rank = some (e.plainRank t) := by
  simp only [Envelope.notePhase, Envelope.plainRank, hssg, Bool.false_eq_true, if_false]
  split
  · rfl
  · split
    · rfl
    · split <;> rfl

/-- An end that is still ahead of a time is ahead of every earlier one. -/
theorem time_lt_of_later_lt (htu : t.val ≤ u.val) {x : ETime} (h : ETime.lt (.fin u) x = true) :
    ETime.lt (.fin t) x = true := by
  rw [ETime.lt_iff] at h ⊢
  exact (EReal.coe_le_coe_iff.mpr htu).trans_lt h

theorem plainRank_mono (htu : t.val ≤ u.val) : e.plainRank t ≤ e.plainRank u := by
  have hearlier : ∀ x, ETime.lt (.fin u) x = true → ETime.lt (.fin t) x = true := fun _ => time_lt_of_later_lt htu
  unfold Envelope.plainRank
  split
  · exact Nat.zero_le _
  · next hattack =>
    rw [if_neg (mt (hearlier _) hattack)]
    split
    · split
      · exact le_rfl
      · split <;> decide
    · next hdecay =>
      rw [if_neg (mt (hearlier _) hdecay)]
      split
      · split <;> decide
      · next hsustain => rw [if_neg (mt (hearlier _) hsustain)]

end Sys2Proof.Machine

namespace Sys2Proof.Proofs

open Sys2Proof Sys2Proof.Machine

/-- Settles O34: one equation of the phase for each interval; and the later of two times has passed the ends that the
earlier one has. -/
theorem phasesComeInOrder : Obligations.PhasesComeInOrder := by
  refine ⟨fun e t he => ⟨fun hkey => ?_, phase_of_release, phase_of_silent, fun hreads => ?_⟩,
    fun e t u hkey hssg hbegin htu => ?_⟩
  · rw [Envelope.phase, hkey]
  · rw [phase_of_readsNote he hreads]
    refine ⟨fun h => congrArg some (notePhase_attack h), fun hssg => ⟨fun ha hd => ?_, fun hd hs => ?_, fun hs => ?_⟩,
      fun hssg a ha hat => ⟨fun hq => ?_, fun q hq => ⟨fun hloop hqt => ?_, fun hcycling => ?_⟩⟩⟩
    · rw [notePhase_decay hssg ha hd]
    · rw [notePhase_sustain hssg (he.decay_end.trans hd) hd hs]
    · have hd := he.sustain_end.trans hs
      rw [notePhase_ended hssg (he.decay_end.trans hd) hd hs]
    · rw [notePhase_endless hssg ha hat hq]
    · rw [notePhase_hold hssg ha hat hq hloop hqt]
    · rw [notePhase_cycle hssg ha hat hq hcycling]
  · have hphase : ∀ v : ExReal, e.beginAttack.val ≤ v.val → e.phase v = some (e.notePhase v) := fun v hv => by
      simp [Envelope.phase, hkey, hv]
    exact ⟨_, _, _, _, hphase t hbegin, hphase u (hbegin.trans htu), notePhase_rank hssg, notePhase_rank hssg,
      plainRank_mono htu⟩

end Sys2Proof.Proofs
end

section
/-!
LEMMAS. The phase ends that a key-on computes, test by test (rules R123 to R125), and the level of the note that it leaves.
-/

namespace Sys2Proof.Machine

open Sys2Proof

/-! ### The attack (rule R123) -/

section

variable {cfg : Cfg} {e : Envelope} {kc : BitVec 5} {tag : BitVec 8} {t b u : ExReal}

theorem keyOn_attack_of_inverted (hinv : e.inverted = true) :
    (e.keyOn cfg tag kc t b).hasAttack = false ∧ (e.keyOn cfg tag kc t b).prevAttackRate = 0 ∧
      (e.keyOn cfg tag kc t b).endAttack = .fin t := by
  simp [Envelope.keyOn, attackPlan, hinv]

theorem keyOn_attack_of_no_rate (hinv : e.inverted = false) (hrate : e.attackRate = 0) :
    (e.keyOn cfg tag kc t b).hasAttack = true ∧ (e.keyOn cfg tag kc t b).prevAttackRate = 0 ∧
      (e.keyOn cfg tag kc t b).endAttack = .inf := by
  simp [Envelope.keyOn, attackPlan, hinv, hrate]

theorem keyOn_attack_of_rate (hinv : e.inverted = false) (hrate : e.attackRate ≠ 0) :
    (e.keyOn cfg tag kc t b).hasAttack = true ∧
      (e.keyOn cfg tag kc t b).prevAttackRate = rateCode e.attackRate (rateAdjust kc e.rateScaling) 0 ∧
      (e.keyOn cfg tag kc t b).endAttack =
        .fin (approachEnd cfg t b (rateCode e.attackRate (rateAdjust kc e.rateScaling) 0)) := by
  have hplan : attackPlan cfg t b e.attackRate e.inverted (rateAdjust kc e.rateScaling) =
      ⟨true, rateCode e.attackRate (rateAdjust kc e.rateScaling) 0,
        .fin (approachEnd cfg t b (rateCode e.attackRate (rateAdjust kc e.rateScaling) 0))⟩ := by
    rw [attackPlan, hinv, if_neg Bool.false_ne_true, if_neg hrate, approachEnd]
  exact ⟨congrArg AttackPlan.hasAttack hplan, congrArg AttackPlan.prevAttackRate hplan,
    congrArg AttackPlan.endAttack hplan⟩

/-- A rate that is not 0 has a code of at least 2, whatever the key scaling adds. -/
theorem two_le_rateCode {r : BitVec 5} (hr : r ≠ 0) (adj off : Nat) : 2 ≤ (rateCode r adj off).toNat := by
  have hpos : 0 < r.toNat := Nat.pos_of_ne_zero fun h => hr (BitVec.eq_of_toNat_eq h)
  rw [rateCode, BitVec.toNat_ofNat]
  omega

/-- The approach takes time unless it begins at 1023. -/
theorem approachEnd_le_and_eq_iff (code : BitVec 6) (hb : b.val ≤ 1023) :
    t.val ≤ (approachEnd cfg t b code).val ∧ ((approachEnd cfg t b code).val = t.val ↔ b.val = 1023) := by
  have hg := Laws.attackTarget_gt cfg code
  have htau := Laws.tau_pos cfg code
  have hgap : 0 < (cfg.data.attackTarget code).val - 1023 := by linarith
  rw [approachEnd_val]
  obtain hlt | heq := hb.lt_or_eq
  · have hratio : 1 < ((cfg.data.attackTarget code).val - b.val) / ((cfg.data.attackTarget code).val - 1023) :=
      (one_lt_div hgap).mpr (by linarith)
    have hdelay := mul_pos htau (Real.log_pos hratio)
    exact ⟨by linarith, fun h => absurd h (by linarith), fun h => absurd h hlt.ne⟩
  · rw [heq, div_self hgap.ne']
    simp

/-- While it lasts, an approach from a level is not clamped: `attackLevel_of_approach`, of an envelope whose begin level
alone is known to be in range. -/
theorem attackLevel_before_approachEnd (hrate : e.prevAttackRate ≠ 0) (hbegin : InLevelRange e.beginLevel)
    (htu : e.beginAttack.val ≤ u.val)
    (hend : u.val ≤ (approachEnd cfg e.beginAttack e.beginLevel e.prevAttackRate).val) :
    (e.attackLevel cfg u).val = approachAt (cfg.data.attackTarget e.prevAttackRate).val e.beginLevel.val
      (tau cfg e.prevAttackRate).val (u.val - e.beginAttack.val) := by
  obtain ⟨hzero, hfull⟩ := hbegin
  rw [approachEnd_val] at hend
  obtain ⟨hlow, hhigh⟩ := approachAt_mem hfull (Laws.attackTarget_gt cfg e.prevAttackRate)
    (Laws.tau_pos cfg e.prevAttackRate) (sub_nonneg.mpr htu) (by linarith)
  rw [attackLevel_val hrate, min_eq_right hhigh, max_eq_right (hzero.trans hlow)]

end

/-! ### The decay and the sustain (rules R124, R125) -/

section

variable {cfg : Cfg} {x : ETime} {a d : ExReal} {r : BitVec 5} {sl : BitVec 10} {adj : Nat}

theorem decayEnd_of_no_rate (hr : r = 0) : decayEnd cfg x r sl adj = .inf := by
  cases x <;> simp [decayEnd, hr]

theorem decayEnd_of_full (hr : r ≠ 0) (hsl : sl = 1023#10) : decayEnd cfg (.fin a) r sl adj = .fin a := by
  rw [decayEnd, if_neg hr, if_pos hsl]

theorem decayEnd_of_no_slope (hsl : sl ≠ 1023#10) (hslope : incPerSec cfg (rateCode r adj 0) = 0) :
    decayEnd cfg (.fin a) r sl adj = .inf := by
  by_cases hr : r = 0
  · exact decayEnd_of_no_rate hr
  · simp only [decayEnd, hslope, if_neg hr, if_neg hsl, if_true]

theorem decayEnd_of_slope (hr : r ≠ 0) (hsl : sl ≠ 1023#10) (hslope : incPerSec cfg (rateCode r adj 0) ≠ 0) :
    decayEnd cfg (.fin a) r sl adj =
      .fin (ExReal.plus a (.rat ((1023 - sl.toNat) / incPerSec cfg (rateCode r adj 0)))) := by
  simp only [decayEnd, if_neg hr, if_neg hsl, if_neg hslope]

theorem sustainEnd_of_zero (hsl : sl = 0) : sustainEnd cfg (.fin d) r sl adj = .fin d := by
  simp [sustainEnd, hsl]

theorem sustainEnd_of_no_slope (hsl : sl ≠ 0) (h : r = 0 ∨ incPerSec cfg (rateCode r adj 0) = 0) :
    sustainEnd cfg (.fin d) r sl adj = .inf := by
  by_cases hr : r = 0
  · rw [sustainEnd, if_neg hsl, if_pos hr]
  · simp only [sustainEnd, if_neg hsl, if_neg hr, h.resolve_left hr, if_true]

theorem sustainEnd_of_slope (hsl : sl ≠ 0) (hr : r ≠ 0) (hslope : incPerSec cfg (rateCode r adj 0) ≠ 0) :
    sustainEnd cfg (.fin d) r sl adj =
      .fin (ExReal.plus d (.rat (sl.toNat / incPerSec cfg (rateCode r adj 0)))) := by
  simp only [sustainEnd, if_neg hsl, if_neg hr, if_neg hslope]

end

/-! ### The registers and the level of the new note -/

section

variable {cfg : Cfg} {e : Envelope} {kc : BitVec 5} {tag : BitVec 8} {t b u a : ExReal}

theorem keyOn_endDecay {x : ETime} (ha : (e.keyOn cfg tag kc t b).endAttack = x) :
    (e.keyOn cfg tag kc t b).endDecay =
      decayEnd cfg x e.decayRate e.sustainLevel (rateAdjust kc e.rateScaling) := by
  rw [← ha]
  rfl

theorem keyOn_endSustain {x : ETime} (hd : (e.keyOn cfg tag kc t b).endDecay = x) :
    (e.keyOn cfg tag kc t b).endSustain =
      sustainEnd cfg x e.sustainRate e.sustainLevel (rateAdjust kc e.rateScaling) := by
  rw [← hd]
  rfl

/-- A decay that ends follows an attack that ends. -/
theorem keyOn_endAttack_of_decayed {d : ExReal} (hd : (e.keyOn cfg tag kc t b).endDecay = .fin d) :
    ∃ a, (e.keyOn cfg tag kc t b).endAttack = .fin a := by
  cases ha : (e.keyOn cfg tag kc t b).endAttack with
  | inf => exact absurd ((keyOn_endDecay ha).symm.trans hd) (by simp [decayEnd])
  | fin a => exact ⟨a, rfl⟩

/-- After its attack a note keyed on without SSG and inversion has the level of its base profile. -/
theorem keyOn_noteLevel_of_plain (hssg : e.ssgEnabled = false) (hinv : e.inverted = false)
    (ha : (e.keyOn cfg tag kc t b).endAttack = .fin a) (hau : a.val ≤ u.val) :
    ((e.keyOn cfg tag kc t b).noteLevel cfg u).val =
      (e.keyOn cfg tag kc t b).profile a.val (u.val - a.val) := by
  have hsnap : (e.keyOn cfg tag kc t b).snapInv = false := hinv
  rw [noteLevel_after_attack ha hau, hsnap, post_of_plain hssg, baseProfile_val, ExReal.val_minus]
  rfl

end

end Sys2Proof.Machine

namespace Sys2Proof.Proofs

open Sys2Proof Sys2Proof.Machine

/-- Settles O18: the three cases of `attackPlan`; the third is an approach that ends at 1023, and the clamp of rule R131
does nothing until then. -/
theorem attackEndsAsComputed : Obligations.AttackEndsAsComputed := by
  intro s c o tv tag kc t b hready horder hlevel hb0 hb
  refine ⟨_, exec_egKeyon_of hready horder hlevel tag kc, ?_⟩
  rw [env_keyedOn_respond]
  refine ⟨keyOn_attack_of_inverted, fun hinv hrate => ?_, fun hinv hrate => ?_⟩
  · obtain ⟨hhas, hprev, hend⟩ :=
      keyOn_attack_of_no_rate (cfg := Config.cfg) (tag := tag) (kc := kc) (t := t) (b := b) hinv hrate
    refine ⟨hhas, hprev, hend, fun u htu => ?_⟩
    rw [level_keyedOn_respond tag kc htu, noteLevel_of_endless hend, attackLevel_of_no_rate hprev]
    rfl
  · obtain ⟨hhas, hprev, hend⟩ :=
      keyOn_attack_of_rate (cfg := Config.cfg) (tag := tag) (kc := kc) (t := t) (b := b) hinv hrate
    simp only [← rateCode_rateAdjust_zero, ← tau_val]
    obtain ⟨hle, heq⟩ := approachEnd_le_and_eq_iff (cfg := Config.cfg) (t := t)
      (rateCode (s.env c o).attackRate (rateAdjust kc (s.env c o).rateScaling) 0) hb
    refine ⟨hhas, hprev, two_le_rateCode hrate _ _, _, hend, approachEnd_val .., hle, heq, fun u htu hua =>
      ⟨_, level_keyedOn_respond tag kc htu, ?_⟩⟩
    rw [noteLevel_in_attack hend hua, attackLevel_before_approachEnd, hprev]
    · rfl
    · rw [hprev]
      exact rateCode_ne_zero hrate _ _
    · exact ⟨hb0, hb⟩
    · exact htu
    · rw [hprev]
      exact hua.le

/-- Settles O19: the tests of `decayEnd`, and the base profile before its end. -/
theorem decayEndsAsComputed : Obligations.DecayEndsAsComputed := by
  intro s c o tv tag kc t b hready horder hlevel
  refine ⟨_, exec_egKeyon_of hready horder hlevel tag kc, ?_⟩
  rw [env_keyedOn_respond]
  simp only [← rateCode_rateAdjust_zero]
  refine ⟨fun ha => keyOn_endDecay ha, decayEnd_of_no_rate, fun a u ha hd hssg hinv htu hau =>
    ⟨_, level_keyedOn_respond tag kc htu, ?_⟩, fun a ha hrate => ?_⟩
  · rw [keyOn_noteLevel_of_plain hssg hinv ha hau, profile_of_endless hd]
  · have hend := keyOn_endDecay ha
    refine ⟨fun hsl => hend.trans (decayEnd_of_full hrate hsl),
      fun hsl hslope => hend.trans (decayEnd_of_no_slope hsl hslope), fun hsl hslope => ?_⟩
    have hd := hend.trans (decayEnd_of_slope hrate hsl hslope)
    refine ⟨_, hd, by simp, fun hssg hinv u htu hau hud => ⟨_, level_keyedOn_respond tag kc htu, ?_⟩⟩
    rw [keyOn_noteLevel_of_plain hssg hinv ha hau, profile_in_decay hd (sub_lt_sub_right hud _)]
    rfl

/-- Settles O20: the tests of `sustainEnd`, and the base profile from the end of the decay on. -/
theorem sustainEndsAsComputed : Obligations.SustainEndsAsComputed := by
  intro s c o tv tag kc t b hready horder hlevel
  refine ⟨_, exec_egKeyon_of hready horder hlevel tag kc, ?_⟩
  rw [env_keyedOn_respond]
  simp only [← rateCode_rateAdjust_zero]
  refine ⟨fun hd => keyOn_endSustain hd, fun d u hd hq hssg hinv htu hau hdu => ⟨_, level_keyedOn_respond tag kc htu, ?_⟩,
    fun d hd => ?_⟩
  · obtain ⟨a, ha⟩ := keyOn_endAttack_of_decayed hd
    rw [ha, ETime.val_fin, EReal.coe_le_coe_iff] at hau
    rw [keyOn_noteLevel_of_plain hssg hinv ha hau, profile_held hd hq (sub_le_sub_right hdu _)]
    rfl
  · have hend := keyOn_endSustain hd
    refine ⟨fun hsl => hend.trans (sustainEnd_of_zero hsl),
      fun hsl hstill => hend.trans (sustainEnd_of_no_slope hsl hstill), fun hsl hrate hslope => ?_⟩
    have hq := hend.trans (sustainEnd_of_slope hsl hrate hslope)
    refine ⟨_, hq, by simp, fun hssg hinv u htu hau hdu huq => ⟨_, level_keyedOn_respond tag kc htu, ?_⟩⟩
    obtain ⟨a, ha⟩ := keyOn_endAttack_of_decayed hd
    rw [ha, ETime.val_fin, EReal.coe_le_coe_iff] at hau
    rw [keyOn_noteLevel_of_plain hssg hinv ha hau,
      profile_in_sustain hd hq (sub_le_sub_right hdu _) (sub_lt_sub_right huq _), sub_sub_sub_cancel_right]
    rfl

end Sys2Proof.Proofs
end

section
/-!
LEMMAS. The silence of a note (rule R127) and the events of EG.KEYON as real numbers (rule R128).
-/

namespace Sys2Proof.Machine

open Sys2Proof

/-! ### The time of silence -/

section

variable {cfg : Cfg} {e : Envelope} {a q u : ExReal}

/-- The three notes that fall silent, at `q`: a plain note, and an SSG note of one cycle that then holds 0 or, inverted,
1023. -/
theorem stopTime_eq_fin (h : e.stopTime = .fin q) :
    e.endSustain = .fin q ∧ (e.snapSSG = false ∨ e.snapSSG = true ∧ e.snapLoop = false ∧ e.snapJmp = e.snapInv) := by
  unfold Envelope.stopTime at h
  split at h
  · cases h
  · next q' hq =>
    cases hssg : e.snapSSG with
    | false =>
      obtain rfl : q' = q := by simpa [hssg] using h
      exact ⟨hq, .inl rfl⟩
    | true =>
      cases hloop : e.snapLoop with
      | true => simp [hssg, hloop] at h
      | false =>
        by_cases hheld : e.snapJmp = e.snapInv
        · obtain rfl : q' = q := by simpa [hssg, hloop, hheld] using h
          exact ⟨hq, .inr ⟨rfl, rfl, hheld⟩⟩
        · simp [hssg, hloop, hheld] at h

/-- The silence time in the words of rule R127: the level held after the cycle is 0. -/
theorem stopTime_eq (e : Envelope) :
    e.stopTime =
      if e.endSustain = .inf then .inf
      else if e.snapSSG = false then e.endSustain
      else if e.snapLoop then .inf
      else if (if e.snapInv then 1023 - (if e.snapJmp then 1023 else 0) else if e.snapJmp then 1023 else 0 : Int) = 0 then
        e.endSustain
      else .inf := by
  cases hq : e.endSustain with
  | inf => simp [Envelope.stopTime, hq]
  | fin q =>
    cases hssg : e.snapSSG with
    | false => simp [Envelope.stopTime, hq, hssg]
    | true =>
      cases hloop : e.snapLoop with
      | true => simp [Envelope.stopTime, hq, hssg, hloop]
      | false => cases hinv : e.snapInv <;> cases hjump : e.snapJmp <;> simp [Envelope.stopTime, *]

theorem beginAttack_le_stopTime (he : e.Inv) (h : e.stopTime = .fin q) : e.beginAttack.val ≤ q.val := by
  have hle := he.attack_end.trans (he.decay_end.trans he.sustain_end)
  rwa [(stopTime_eq_fin h).1, ETime.val_fin, EReal.coe_le_coe_iff] at hle

theorem beginRelease_le_endRelease (he : e.Inv) (h : e.endRelease = .fin q) : e.beginRelease.val ≤ q.val := by
  have hle := he.release_end
  rwa [h, ETime.val_fin, EReal.coe_le_coe_iff] at hle

/-- From the end of its sustain on the base profile of a note is 0. -/
theorem profile_after_sustain (he : e.Inv) (hq : e.endSustain = .fin q) {x s : ℝ} (hs : q.val - x ≤ s) :
    e.profile x s = 0 := by
  obtain ⟨d, hd, hdq⟩ := exists_fin_of_val_le (he.sustain_end.trans_eq (congrArg ETime.val hq))
  exact profile_ended hd hq (by linarith) hs

/-- From its silence time on the level of a note is 0. -/
theorem noteLevel_after_stopTime (he : e.Inv) (h : e.stopTime = .fin q) (hqu : q.val ≤ u.val) :
    (e.noteLevel cfg u).val = 0 := by
  obtain ⟨hq, hkind⟩ := stopTime_eq_fin h
  obtain ⟨a, ha, haq⟩ :=
    exists_fin_of_val_le ((he.decay_end.trans he.sustain_end).trans_eq (congrArg ETime.val hq))
  have hau := haq.trans hqu
  have hended : e.profile a.val (u.val - a.val) = 0 := profile_after_sustain he hq (sub_le_sub_right hqu _)
  obtain hssg | ⟨hssg, hloop, hheld⟩ := hkind
  · rw [noteLevel_of_plain he hssg ha hau, hended]
  · rw [noteLevel_after_attack ha hau, ← hheld]
    cases hjump : e.snapJmp with
    | false =>
      rw [post_once hssg hq hloop hjump, baseProfile_val, ExReal.val_minus, hended, if_neg Bool.false_ne_true]
    | true =>
      rw [post_once_jump hssg hq hloop hjump, ExReal.val_minus, if_neg (not_lt.mpr (sub_le_sub_right hqu _)),
        if_pos rfl, sub_self]

/-- From its end on the level of a release is 0. -/
theorem releaseAt_after_end (hend : e.endRelease = .fin q) (hqu : q.val ≤ u.val) : (e.releaseAt u).val = 0 := by
  rw [releaseAt_val hend, if_pos hqu]

end

/-! ### The events of a key-on -/

section

variable {cfg : Cfg} {c : Fin 16} {o : Fin 4} {e : Envelope} {p : Param} {t : ExReal}

/-- The events of a key-on that are on no parameter are its STOP. -/
theorem keyOnEvents_stops (free : Nat) :
    ((keyOnEvents cfg c o t free e).filter fun ev => ev.param = none) = stopEvents c o e.srcTag e.stopTime := by
  have hattack : ((attackEvents cfg (.gain c o) t e).filter fun ev => ev.param = none) = [] :=
    List.filter_eq_nil_iff.mpr fun ev hev => by simp [attackEvents_param hev]
  have hafter : ((afterAttackEvents c o free e).filter fun ev => ev.param = none) = [] :=
    List.filter_eq_nil_iff.mpr fun ev hev => by simp [afterAttackEvents_param hev]
  have hstop : ((stopEvents c o e.srcTag e.stopTime).filter fun ev => ev.param = none) =
      stopEvents c o e.srcTag e.stopTime :=
    List.filter_eq_self.mpr fun ev hev => by simp [stopEvents_param hev]
  simp only [keyOnEvents, List.filter_append, hattack, hafter, hstop]
  rfl

/-- Event group (3) of rule R128 over the reals. -/
noncomputable def attackGroup (cfg : Cfg) (p : Param) (t : ℝ) (e : Envelope) : List RealEvent :=
  match e.endAttack with
  | .fin a =>
    if e.prevAttackRate ≠ 0 ∧ t < a.val then
      [.target p ((cfg.data.attackTarget e.prevAttackRate).val / 1023) t
        ((cfg.data.attackConstant e.prevAttackRate).val * cfg.data.envTick), .set p 1 a.val]
    else []
  | .inf => []

/-- Event group (4) of rule R128 over the reals. -/
noncomputable def decayGroup (p : Param) (e : Envelope) : List RealEvent :=
  match e.endAttack, e.endDecay with
  | .fin a, .fin d => if a.val < d.val then [.linRamp p (e.snapSL.toNat / 1023) d.val] else []
  | _, _ => []

/-- Event group (5) of rule R128 over the reals. -/
noncomputable def sustainGroup (p : Param) (e : Envelope) : List RealEvent :=
  match e.endDecay, e.endSustain with
  | .fin d, .fin q => if d.val < q.val then [.linRamp p 0 q.val] else []
  | _, _ => []

theorem map_real_attackEvents : (attackEvents cfg p t e).map Event.real = attackGroup cfg p t.val e := by
  cases ha : e.endAttack with
  | inf => simp [attackEvents, attackGroup, ha]
  | fin a =>
    by_cases h : e.prevAttackRate ≠ 0 ∧ t.val < a.val
    · obtain ⟨hrate, hlt⟩ := h
      rw [attackEvents_of_approach hrate ha hlt]
      simp only [attackGroup, ha, if_pos (And.intro hrate hlt)]
      simp [Event.real, tau_val]
    · simp only [attackEvents, attackGroup, ha, ExReal.lt_iff, if_neg h, List.map_nil]

theorem map_real_sustainEvents {d : ExReal} (hd : e.endDecay = .fin d) :
    (sustainEvents p d e).map Event.real = sustainGroup p e := by
  cases hq : e.endSustain with
  | inf => simp [sustainEvents, sustainGroup, hd, hq]
  | fin q => by_cases h : d.val < q.val <;> simp [sustainEvents, sustainGroup, hd, hq, h, Event.real]

/-- The ramps of a plain note, whose decay ends only where its attack does. -/
theorem map_real_rampEvents (hdecay : ∀ d, e.endDecay = .fin d → ∃ a, e.endAttack = .fin a) :
    (rampEvents p e).map Event.real = decayGroup p e ++ sustainGroup p e := by
  cases hd : e.endDecay with
  | inf => cases ha : e.endAttack <;> simp [rampEvents, decayGroup, sustainGroup, ha, hd]
  | fin d =>
    obtain ⟨a, ha⟩ := hdecay d hd
    rw [rampEvents_of_decay ha hd, List.map_append, map_real_sustainEvents hd]
    by_cases h : a.val < d.val <;> simp [decayGroup, ha, hd, h, Event.real]

theorem map_real_keyOnEvents (free : Nat) :
    (keyOnEvents cfg c o t free e).map Event.real =
      [.cancelHold (.gain c o) t.val, .set (.gain c o) ((e.noteLevel cfg t).val / 1023) t.val] ++
        attackGroup cfg (.gain c o) t.val e ++ (afterAttackEvents c o free e).map Event.real ++
        realStop c o e.srcTag e.stopTime := by
  simp [keyOnEvents, map_real_attackEvents, Event.real]

/-- The events after the attack of an SSG note are on its gain, later than `endAttack`. -/
theorem mem_afterAttackEvents_ssg (hssg : e.snapSSG = true) {free : Nat} {ev : Event}
    (h : ev ∈ afterAttackEvents c o free e) :
    ev.param = some (.gain c o) ∧ e.endAttack.val < (ev.time.val : EReal) := by
  refine ⟨afterAttackEvents_param h, ?_⟩
  unfold afterAttackEvents at h
  rw [if_pos hssg] at h
  cases ha : e.endAttack with
  | inf => simp [ha] at h
  | fin a =>
    simp only [ha] at h
    exact EReal.coe_lt_coe_iff.mpr (lt_time_of_mem_tail a _ ev h)

end

end Sys2Proof.Machine

namespace Sys2Proof.Proofs

open Sys2Proof Sys2Proof.Machine

/-- Settles O21: `silentAt` is the new note's `stopTime`, and the STOP of the event list is the one at that time. -/
theorem silenceIsDetectedAtKeyOn : Obligations.SilenceIsDetectedAtKeyOn := by
  intro s c o tv tag kc t b hready horder hlevel
  refine ⟨_, exec_egKeyon_of hready horder hlevel tag kc, ?_⟩
  rw [env_keyedOn_respond, newEvents_of_append ((respond_events ..).trans (keyedOn_events ..)), keyOnEvents_stops]
  exact ⟨stopTime_eq _, congrArg (stopEvents c o tag) (stopTime_eq _)⟩

/-- Settles O22: a key-on names the silence time of its note, a key-off the end of its release. -/
theorem levelIsZeroFromStop : Obligations.LevelIsZeroFromStop := by
  rintro s s' c o tv tag kc t q u hs hready (h | h) hsilent hqu
  · obtain ⟨v, hv, rfl⟩ := withChecks_finish_next hready h
    obtain ⟨b, horder, hlevel, rfl⟩ := keyOnEnvelope_ok hv
    have he := (hs.env c o).keyOn (cfg := Config.cfg) horder (level_inLevelRange _ (hs.env c o) hlevel) tag kc
    rw [env_keyedOn_respond] at hsilent
    exact ⟨_, level_keyedOn_respond tag kc ((beginAttack_le_stopTime he hsilent).trans hqu),
      noteLevel_after_stopTime he hsilent hqu⟩
  · obtain ⟨v, hv, rfl⟩ := withChecks_finish_next hready h
    obtain ⟨l, horder, hlevel, rfl⟩ := keyOffEnvelope_ok hv
    have he := (hs.env c o).keyOff (cfg := Config.cfg) horder (level_inLevelRange _ (hs.env c o) hlevel) tag kc
    rw [respond_env, emit_env, env_putEnv_same] at hsilent
    have hend : ((s.env c o).keyOff Config.cfg tag kc t l).endRelease = .fin q := hsilent
    refine ⟨_, ?_, releaseAt_after_end hend hqu⟩
    rw [State.level, respond_env, emit_env, env_putEnv_same]
    exact level_of_release rfl ((beginRelease_le_endRelease he hend).trans hqu)

/-- Settles O23: the groups of rule R128 one by one; the tail of an SSG note is what `afterAttackEvents` takes from the
free list. -/
theorem keyOnEmitsItsEvents : Obligations.KeyOnEmitsItsEvents := by
  intro s c o tv tag kc t b hready horder hlevel _ _
  refine ⟨_, _, _, exec_egKeyon_of hready horder hlevel tag kc, keyedOn_answered tag kc,
    level_keyedOn_respond tag kc le_rfl, ?_⟩
  rw [env_keyedOn_respond, map_real_keyOnEvents]
  refine ⟨fun hssg => ?_, fun hssg => ⟨_, rfl, fun ev => mem_afterAttackEvents_ssg hssg⟩⟩
  have hplain : afterAttackEvents c o (s.freeCount c) ((s.env c o).keyOn Config.cfg tag kc t b) =
      rampEvents (.gain c o) ((s.env c o).keyOn Config.cfg tag kc t b) :=
    if_neg (Bool.eq_false_iff.mp hssg)
  rw [hplain, map_real_rampEvents fun _ => keyOn_endAttack_of_decayed, ← List.append_assoc]
  rfl

end Sys2Proof.Proofs
end

section
/-!
LEMMAS. Frequency arithmetic: the key code, the detune delta and the full frequency number as numbers (rules R151, R153,
R155), and the least block that holds a full frequency number (rules R156, R157).
-/

namespace Sys2Proof.Machine

open Sys2Proof

/-! ### Key code and detune -/

theorem calcKeyCode_toNat (cfg : Cfg) (block : BitVec 3) (fn : BitVec 11) :
    (calcKeyCode cfg block fn).toNat = 4 * block.toNat + (cfg.data.keycodeLow fn).toNat := by
  have hblock := block.isLt
  have hlow := (cfg.data.keycodeLow fn).isLt
  rw [calcKeyCode, BitVec.toNat_ofNat]
  omega

/-- The sign of a setting is 0 where its magnitude is, and row 0 of DETUNE_TABLE is 0 too (rule R8). -/
theorem detuneDelta_eq_sign_mul (cfg : Cfg) (dt : Detune) (kc : BitVec 5) :
    detuneDelta cfg dt kc = dt.value.sign * (cfg.data.detuneTable dt.mag kc : Int) := by
  unfold detuneDelta
  split
  · next hzero => rw [hzero, Laws.detuneTable_zero, Int.natCast_zero, mul_zero]
  · next hmag =>
    have hpos : 0 < (dt.mag.toNat : Int) :=
      Int.natCast_pos.mpr (Nat.pos_of_ne_zero fun h => hmag (BitVec.eq_of_toNat_eq h))
    split
    · next hneg => simp [Detune.value, hneg, Int.sign_eq_one_of_pos hpos]
    · next hpositive => simp [Detune.value, hpositive, Int.sign_eq_one_of_pos hpos]

/-- Minus zero is stored as zero (rule R159). -/
theorem detuneOperand_zero (sign : Bool) : detuneOperand sign 0 = ⟨false, 0⟩ := by
  simp [detuneOperand]

theorem detuneOperand_value (sign : Bool) (mag : BitVec 2) :
    (detuneOperand sign mag).value = (if sign then -1 else 1) * (mag.toNat : Int) := by
  by_cases hzero : mag = 0
  · rw [hzero, detuneOperand_zero]
    simp [Detune.value]
  · cases sign with
    | false => simp [detuneOperand, Detune.value]
    | true => simpa [detuneOperand, Detune.value] using fun h => absurd h hzero

/-! ### The full frequency number -/

section

variable {block : BitVec 3} {fn : BitVec 11}

theorem componentsToFullFreq_eq_floor (block : BitVec 3) (fn : BitVec 11) :
    (componentsToFullFreq block fn : Int) = ⌊(fn.toNat * 2 ^ block.toNat / 2 : ℚ)⌋ := by
  have hfloor := Rat.floor_natCast_div_natCast (fn.toNat * 2 ^ block.toNat) 2
  push_cast at hfloor
  rw [hfloor, componentsToFullFreq]
  push_cast
  rfl

@[simp] theorem componentsToFullFreq_zero (fn : BitVec 11) : componentsToFullFreq 0 fn = fn.toNat / 2 := by
  simp [componentsToFullFreq]

/-- 2047 at block 7 is the largest pair. -/
theorem componentsToFullFreq_le (block : BitVec 3) (fn : BitVec 11) : componentsToFullFreq block fn ≤ 131008 := by
  have hpow : 2 ^ block.toNat ≤ 2 ^ 7 := Nat.pow_le_pow_right two_pos (Nat.le_of_lt_succ block.isLt)
  have hmul : fn.toNat * 2 ^ block.toNat ≤ 2047 * 2 ^ 7 := Nat.mul_le_mul (Nat.le_of_lt_succ fn.isLt) hpow
  exact Nat.div_le_div_right hmul

/-- Nothing is lost by the halving from block 1 on. -/
theorem two_mul_componentsToFullFreq (hblock : 1 ≤ block.toNat) :
    2 * componentsToFullFreq block fn = fn.toNat * 2 ^ block.toNat :=
  Nat.mul_div_cancel' ((dvd_pow_self 2 (Nat.one_le_iff_ne_zero.mp hblock)).mul_left _)

theorem componentsToFullFreq_of_one_le (hblock : 1 ≤ block.toNat) :
    componentsToFullFreq block fn = fn.toNat * 2 ^ (block.toNat - 1) := by
  have htwice := two_mul_componentsToFullFreq (fn := fn) hblock
  rw [← mul_pow_sub_one (Nat.one_le_iff_ne_zero.mp hblock)] at htwice
  linarith

/-- A pair whose product is twice a number has that number as its full frequency number. -/
theorem componentsToFullFreq_of_mul_pow {m : Nat} (h : fn.toNat * 2 ^ block.toNat = 2 * m) :
    componentsToFullFreq block fn = m := by
  rw [componentsToFullFreq, h, Nat.mul_div_cancel_left m two_pos]

end

/-! ### The least block -/

section

variable {f : ExReal}

/-- Block `k` holds `f`: the frequency number rounds to at most 2047. -/
def FitsBlock (f : ExReal) (k : Nat) : Prop := f.val * (2 / 2 ^ k) < 2047.5

/-- The test of `leastBlock`. -/
theorem lt_scale_iff_fitsBlock (f : ExReal) (k : Nat) :
    ExReal.lt (ExReal.scale (2 / 2 ^ k) f) (.rat (4095 / 2)) = true ↔ FitsBlock f k := by
  rw [ExReal.lt_iff, ExReal.val_scale, FitsBlock, mul_comm]
  norm_num

theorem leastBlock_eq_some_iff {b : Nat} :
    leastBlock f = some b ↔ FitsBlock f b ∧ b < 8 ∧ ∀ k, k < b → ¬FitsBlock f k := by
  simp only [leastBlock, List.find?_range_eq_some, List.mem_range, lt_scale_iff_fitsBlock, Bool.not_eq_true',
    ← Bool.not_eq_true]

theorem leastBlock_eq_none_iff : leastBlock f = none ↔ ∀ k, k < 8 → ¬FitsBlock f k := by
  simp only [leastBlock, List.find?_range_eq_none, lt_scale_iff_fitsBlock, Bool.not_eq_true', ← Bool.not_eq_true]

/-- The larger the block, the more it holds. -/
theorem FitsBlock.mono {j k : Nat} (h0 : 0 ≤ f.val) (hjk : j ≤ k) (h : FitsBlock f j) : FitsBlock f k := by
  have hpow : (2 : ℝ) ^ j ≤ 2 ^ k := pow_le_pow_right₀ one_le_two hjk
  have hdiv : (2 : ℝ) / 2 ^ k ≤ 2 / 2 ^ j := div_le_div_of_nonneg_left zero_le_two (by positivity) hpow
  exact (mul_le_mul_of_nonneg_left hdiv h0).trans_lt h

/-- Block 7 holds what is below 131040 (rule R156). -/
theorem fitsBlock_seven_iff : FitsBlock f 7 ↔ f.val < 131040 := by
  rw [FitsBlock, ← lt_div_iff₀ (by norm_num)]
  norm_num

theorem leastBlock_eq_none (h0 : 0 ≤ f.val) (h : 131040 ≤ f.val) : leastBlock f = none :=
  leastBlock_eq_none_iff.mpr fun _ hk hfits =>
    h.not_gt (fitsBlock_seven_iff.mp (hfits.mono h0 (Nat.le_of_lt_succ hk)))

theorem exists_leastBlock (h : f.val < 131040) : ∃ b, leastBlock f = some b :=
  Option.ne_none_iff_exists'.mp fun hnone =>
    leastBlock_eq_none_iff.mp hnone 7 (by decide) (fitsBlock_seven_iff.mpr h)

theorem fullFreqToComponents_of_nonneg (h0 : 0 ≤ f.val) :
    fullFreqToComponents f = (leastBlock f).map fun b =>
      (BitVec.ofNat 3 b, BitVec.ofNat 11 ⌊f.val * (2 / 2 ^ b) + 1 / 2⌋.toNat) := by
  have hnonneg : ¬ExReal.lt f (.rat 0) = true := by simpa using h0
  rw [fullFreqToComponents, if_neg hnonneg]
  simp [mul_comm]

/-- What a block holds rounds to an 11-bit frequency number. -/
theorem FitsBlock.toNat_round {b : Nat} (h0 : 0 ≤ f.val) (h : FitsBlock f b) :
    ((BitVec.ofNat 11 ⌊f.val * (2 / 2 ^ b) + 1 / 2⌋.toNat).toNat : Int) = ⌊f.val * (2 / 2 ^ b) + 1 / 2⌋ := by
  have hnonneg : 0 ≤ ⌊f.val * (2 / 2 ^ b) + 1 / 2⌋ := Int.floor_nonneg.mpr (by positivity)
  have hlt : ⌊f.val * (2 / 2 ^ b) + 1 / 2⌋ < 2048 := by
    rw [Int.floor_lt]
    unfold FitsBlock at h
    norm_num at h ⊢
    linarith
  rw [BitVec.toNat_ofNat]
  omega

/-- The pair that `fullFreqToComponents` gives a number that some block holds. -/
theorem exists_fullFreqToComponents (h0 : 0 ≤ f.val) (h : f.val < 131040) :
    ∃ (b : BitVec 3) (n : BitVec 11), fullFreqToComponents f = some (b, n) ∧ FitsBlock f b.toNat ∧
      (∀ k, k < b.toNat → ¬FitsBlock f k) ∧ (n.toNat : Int) = ⌊f.val * (2 / 2 ^ b.toNat) + 1 / 2⌋ := by
  obtain ⟨b, hb⟩ := exists_leastBlock h
  obtain ⟨hfits, hlt, hleast⟩ := leastBlock_eq_some_iff.mp hb
  have htoNat : (BitVec.ofNat 3 b).toNat = b := by rw [BitVec.toNat_ofNat, Nat.mod_eq_of_lt hlt]
  refine ⟨BitVec.ofNat 3 b, _, by rw [fullFreqToComponents_of_nonneg h0, hb, Option.map_some], ?_⟩
  rw [htoNat]
  exact ⟨hfits, hleast, hfits.toNat_round h0⟩

/-! ### The round trip (rule R157) -/

/-- Whether a block holds a whole number, without division. -/
theorem fitsBlock_natCast_iff (m k : Nat) : FitsBlock (.rat m) k ↔ 2 * (2 * m) < 4095 * 2 ^ k := by
  have hpow : (0 : ℝ) < 2 ^ k := by positivity
  have hdouble : 2 * ((m : ℝ) * 2) < 2 * (2047.5 * 2 ^ k) ↔ 2 * (2 * m) < 4095 * 2 ^ k := by
    rw [← Nat.cast_lt (α := ℝ)]
    push_cast
    ring_nf
  rw [FitsBlock, ExReal.val_rat, Rat.cast_natCast, ← mul_div_assoc, div_lt_iff₀ hpow, ← hdouble,
    mul_lt_mul_iff_right₀ two_pos]

/-- A whole frequency number is not changed by rounding. -/
theorem floor_natCast_mul_add_half {m k n : Nat} (h : 2 * m = n * 2 ^ k) :
    ⌊(ExReal.rat m).val * (2 / 2 ^ k) + 1 / 2⌋ = n := by
  have hpow : (2 : ℝ) ^ k ≠ 0 := by positivity
  have hreal : (2 : ℝ) * m = n * 2 ^ k := by exact_mod_cast h
  have hquot : (ExReal.rat m).val * (2 / 2 ^ k) = n := by
    rw [ExReal.val_rat, ← mul_div_assoc, div_eq_iff hpow]
    push_cast
    linarith
  rw [hquot, Int.floor_natCast_add]
  norm_num

variable {block b : BitVec 3} {fn : BitVec 11}

/-- The block of a pair holds the pair's full frequency number. -/
theorem fitsBlock_componentsToFullFreq (block : BitVec 3) (fn : BitVec 11) :
    FitsBlock (.rat (componentsToFullFreq block fn)) block.toNat := by
  rw [fitsBlock_natCast_iff]
  have htwice : 2 * componentsToFullFreq block fn ≤ fn.toNat * 2 ^ block.toNat := Nat.mul_div_le ..
  have hfn : fn.toNat * 2 ^ block.toNat ≤ 2047 * 2 ^ block.toNat :=
    Nat.mul_le_mul_right _ (Nat.le_of_lt_succ fn.isLt)
  have hpow : 0 < 2 ^ block.toNat := by positivity
  omega

/-- A frequency number below 1024 leaves room for a smaller block. -/
theorem fitsBlock_pred (hblock : 1 ≤ block.toNat) (hfn : fn.toNat < 1024) :
    FitsBlock (.rat (componentsToFullFreq block fn)) (block.toNat - 1) := by
  rw [fitsBlock_natCast_iff, componentsToFullFreq_of_one_le hblock]
  have hprod : fn.toNat * 2 ^ (block.toNat - 1) ≤ 1023 * 2 ^ (block.toNat - 1) :=
    Nat.mul_le_mul_right _ (Nat.le_of_lt_succ hfn)
  have hpow : 0 < 2 ^ (block.toNat - 1) := by positivity
  omega

/-- A frequency number from 1024 on leaves none: in a smaller block it would not be an 11-bit number. -/
theorem eq_of_mul_pow_eq {j k : Nat} {n : BitVec 11} (hjk : j ≤ k) (hfn : 1024 ≤ fn.toNat)
    (hmul : n.toNat * 2 ^ j = fn.toNat * 2 ^ k) : j = k := by
  refine hjk.antisymm (not_lt.mp fun hlt => ?_)
  have hlower : 1024 * 2 ^ (j + 1) ≤ n.toNat * 2 ^ j :=
    hmul ▸ Nat.mul_le_mul hfn (Nat.pow_le_pow_right two_pos hlt)
  have hupper : n.toNat * 2 ^ j ≤ 2047 * 2 ^ j := Nat.mul_le_mul_right _ (Nat.le_of_lt_succ n.isLt)
  have hpow : 0 < 2 ^ j := by positivity
  omega

/-- In a block no larger than its own, a full frequency number has a whole frequency number. -/
theorem two_pow_dvd_two_mul_componentsToFullFreq (fn : BitVec 11) (h : b.toNat ≤ block.toNat) :
    2 ^ b.toNat ∣ 2 * componentsToFullFreq block fn := by
  rcases Nat.eq_zero_or_pos block.toNat with hzero | hpos
  · have hb : b.toNat = 0 := Nat.le_zero.mp (hzero ▸ h)
    rw [hb, pow_zero]
    exact one_dvd _
  · rw [two_mul_componentsToFullFreq hpos]
    exact (pow_dvd_pow 2 h).mul_left _

/-- The pair that `fullFreqToComponents` gives a representable number: the least block that holds it, with nothing
rounded. -/
theorem exists_fullFreqToComponents_natCast (block : BitVec 3) (fn : BitVec 11) :
    ∃ (b : BitVec 3) (n : BitVec 11), fullFreqToComponents (.rat (componentsToFullFreq block fn)) = some (b, n) ∧
      b.toNat ≤ block.toNat ∧ (∀ k, k < b.toNat → ¬FitsBlock (.rat (componentsToFullFreq block fn)) k) ∧
      n.toNat * 2 ^ b.toNat = 2 * componentsToFullFreq block fn := by
  have hbound : componentsToFullFreq block fn < 131040 := (componentsToFullFreq_le block fn).trans_lt (by norm_num)
  obtain ⟨b, n, hpair, -, hleast, hround⟩ := exists_fullFreqToComponents
    (f := .rat (componentsToFullFreq block fn)) (by simp) (by simpa using hbound)
  have hle : b.toNat ≤ block.toNat :=
    not_lt.mp fun h => hleast _ h (fitsBlock_componentsToFullFreq block fn)
  obtain ⟨q, hq⟩ := exists_eq_mul_left_of_dvd (two_pow_dvd_two_mul_componentsToFullFreq fn hle)
  rw [floor_natCast_mul_add_half hq, Nat.cast_inj] at hround
  exact ⟨b, n, hpair, hle, hleast, by rw [hround, hq]⟩

end

end Sys2Proof.Machine

namespace Sys2Proof.Proofs

open Sys2Proof Sys2Proof.Machine

/-- Settles O36: the equations of the three functions, one by one. -/
theorem frequencyArithmetic : Obligations.FrequencyArithmetic := fun cfg block fn dt kc =>
  ⟨calcKeyCode_toNat cfg block fn, detuneDelta_eq_sign_mul cfg dt kc, componentsToFullFreq_eq_floor block fn,
    componentsToFullFreq_le block fn, componentsToFullFreq_of_one_le⟩

/-- Settles O37: block 7 holds exactly what is below 131040, and the search takes the least block. -/
theorem fullFrequencyTakesLeastBlock : Obligations.FullFrequencyTakesLeastBlock := by
  refine fun f h0 => ⟨fun h => ?_, fun h => ?_⟩
  · rw [fullFreqToComponents_of_nonneg h0, leastBlock_eq_none h0 h, Option.map_none]
  · obtain ⟨b, n, hpair, hfits, hleast, hround⟩ := exists_fullFreqToComponents h0 h
    exact ⟨b, n, hpair, hfits, fun k hk => not_lt.mp (hleast k hk), hround⟩

/-- Settles O38: nothing is rounded, so the pair's product is that of the pair put in, and the block says the rest. -/
theorem fullFrequencyRoundTrip : Obligations.FullFrequencyRoundTrip := by
  intro block fn
  obtain ⟨b, n, hpair, hle, hleast, hmul⟩ := exists_fullFreqToComponents_natCast block fn
  refine ⟨b, n, hpair, componentsToFullFreq_of_mul_pow hmul, fun hblock hfn => ?_, ?_, fun hblock hfn => ?_⟩
  · rw [two_mul_componentsToFullFreq hblock] at hmul
    have hb := eq_of_mul_pow_eq hle hfn hmul
    rw [hb] at hmul
    exact ⟨BitVec.eq_of_toNat_eq hb, BitVec.eq_of_toNat_eq (Nat.eq_of_mul_eq_mul_right (by positivity) hmul)⟩
  · rintro rfl
    have hb : b.toNat = 0 := Nat.le_zero.mp hle
    refine ⟨BitVec.eq_of_toNat_eq hb, ?_⟩
    rw [hb, pow_zero, mul_one, componentsToFullFreq_zero] at hmul
    omega
  · exact not_le.mp fun hge => hleast _ (by omega) (fitsBlock_pred hblock hfn)

end Sys2Proof.Proofs
end

section
/-!
LEMMAS. The operator's commands: OP.SETFREQ and OP.SETDT as one write of an operator (rules R158, R159), OP.KEYON and
OP.KEYOFF as the envelope's commands (rules R160, R161).
-/

namespace Sys2Proof.Machine

open Sys2Proof

section

variable {c : Fin 16} {o : Fin 4} {tv : Bool} {t : ExReal} {s : State} {mult : PosRat}

theorem sameControl_putOpr (s : State) (c c' : Fin 16) (o : Fin 4) (q : Operator) :
    Channel.sameControl (s.chan c') ((s.putOpr c o q).chan c') := by
  rw [chan_putOpr]
  split
  · next hc => subst hc; exact Channel.sameControl_refl _
  · exact Channel.sameControl_refl _

theorem onlyOperator_putOpr (s : State) (c : Fin 16) (o : Fin 4) (q : Operator) : OnlyOperator s (s.putOpr c o q) c o :=
  ⟨fun _ _ => env_putOpr .., fun _ _ => opr_putOpr_other s c _ o _ q, fun c' => sameControl_putOpr s c c' o q⟩

theorem exec_opSetfreq_of_no_ratio (hready : Ready s c tv t) (hratio : s.ports.ratio = none) (m : Method)
    (block : BitVec 3) (fn : BitVec 11) :
    exec (.opSetfreq c o tv m block fn) s = .next (s.respond .missingOperand (.rat 0)) := by
  refine (hready.withChecks_eq _).trans ?_
  simp only [hratio, missingOperand]

theorem exec_opSetfreq_of_disorder (hready : Ready s c tv t) (hratio : s.ports.ratio = some mult)
    (hdisorder : t.val < (s.opr c o).freqLastTime.val) (m : Method) (block : BitVec 3) (fn : BitVec 11) :
    exec (.opSetfreq c o tv m block fn) s = .refused .undefinedTimeOrder := by
  refine (hready.withChecks_eq _).trans ?_
  simp only [hratio, timeOrdered_iff, hdisorder.not_ge, if_false]

theorem exec_opSetfreq_of (hready : Ready s c tv t) (hratio : s.ports.ratio = some mult)
    (horder : (s.opr c o).freqLastTime.val ≤ t.val) (m : Method) (block : BitVec 3) (fn : BitVec 11) :
    exec (.opSetfreq c o tv m block fn) s =
      .next (((s.putOpr c o ((s.opr c o).setFreq Config.cfg block fn mult t)).emit
        [methodEvent m (.freq c o) (.rat (scheduledHz Config.cfg (s.opr c o).detune block fn mult)) t]).respond
          .ok (.rat 0)) := by
  refine (hready.withChecks_eq _).trans ?_
  simp only [hratio, timeOrdered_iff, horder, if_true, answerOk]

/-- OP.SETDT takes no time, so it is performed wherever its channel is. -/
theorem exec_opSetdt_of (hc : Config.cfg.hasChannel c = true) (hstopped : (s.chan c).stopped = false) (sign : Bool)
    (mag : BitVec 2) :
    exec (.opSetdt c o sign mag) s =
      .next ((s.putOpr c o { s.opr c o with detune := detuneOperand sign mag }).respond .ok (.rat 0)) :=
  withChecks_pass hc rfl (commandTime_now s.ports) hstopped

theorem exec_opKeyon (c : Fin 16) (o : Fin 4) (tv : Bool) (tag : BitVec 8) (s : State) :
    exec (.opKeyon c o tv tag) s = exec (.egKeyon c o tv tag (s.opr c o).keyCode) s :=
  rfl

theorem exec_opKeyoff (c : Fin 16) (o : Fin 4) (tv : Bool) (tag : BitVec 8) (s : State) :
    exec (.opKeyoff c o tv tag) s = exec (.egKeyoff c o tv tag (s.opr c o).keyCode) s :=
  rfl

end

end Sys2Proof.Machine

namespace Sys2Proof.Proofs

open Sys2Proof Sys2Proof.Machine

/-- Settles O39: the three outcomes of the command; the detune delta is the signed table entry. -/
theorem setFreqSchedulesFrequency : Obligations.SetFreqSchedulesFrequency := by
  intro s c o tv m block fn t mult hready
  refine ⟨fun hratio => ⟨_, exec_opSetfreq_of_no_ratio hready hratio m block fn, ⟨rfl, by simp, rfl, rfl⟩, rfl⟩,
    fun hratio hdisorder => exec_opSetfreq_of_disorder hready hratio hdisorder m block fn, fun hratio horder => ?_⟩
  simp only [← detuneDelta_eq_sign_mul]
  refine ⟨_, exec_opSetfreq_of hready hratio horder m block fn, ⟨⟨rfl, ?_, rfl, rfl⟩, rfl⟩, onlyOperator_putOpr .., ?_⟩
  · cases m <;> rfl
  · exact opr_putOpr_same ..

/-- Settles O40: one register of one operator is replaced, by the value of the operand. -/
theorem setDtStoresDetune : Obligations.SetDtStoresDetune := by
  intro s c o sign mag hc hstopped
  refine ⟨_, detuneOperand sign mag, exec_opSetdt_of hc hstopped sign mag, ⟨⟨rfl, by simp, rfl, rfl⟩, rfl⟩,
    onlyOperator_putOpr .., opr_putOpr_same .., detuneOperand_value sign mag, ?_⟩
  rintro rfl
  exact detuneOperand_zero sign

/-- Settles O41: the commands are the envelope's own, so what those leave is what these leave. -/
theorem operatorKeysUseStoredKeyCode : Obligations.OperatorKeysUseStoredKeyCode := by
  refine fun s c o tv tag => ⟨exec_opKeyon c o tv tag s, exec_opKeyoff c o tv tag s, fun t b hready horder hlevel => ?_⟩
  rw [exec_opKeyon, exec_opKeyoff]
  refine ⟨⟨_, _, exec_egKeyon_of hready horder hlevel tag _, keyedOn_answered tag _,
    onlyEnvelope_of_chan fun _ => keyedOn_chan .., ?_⟩, ⟨_, _, exec_egKeyoff_of hready horder hlevel tag _,
    ⟨rfl, rfl, rfl, rfl⟩, onlyEnvelope_of_chan fun _ => rfl, ?_⟩⟩
  · rw [env_keyedOn_respond]
    exact ⟨rfl, rfl, rfl, rfl⟩
  · rw [respond_env, emit_env, env_putEnv_same]
    exact ⟨rfl, rfl, rfl, rfl⟩

end Sys2Proof.Proofs
end

section
/-!
LEMMAS. The slot function (rule R170), the lifecycle (rule R190), and the routing commands as one write of a channel's
control registers (rules R174, R178, R180).
-/

namespace Sys2Proof.Machine

open Sys2Proof

/-! ### The slot function -/

theorem slot_of_backward {m k : Nat} (h : k < m) : slot m k = none := by
  have hne : m ≠ k := h.ne'
  have hnot : ¬(1 ≤ m ∧ m < k ∧ k ≤ 4) := fun hfwd => hfwd.2.1.not_gt h
  rw [slot, if_neg hne, if_neg hnot]

/-- The formula of a forward pair stays within the eight slots. -/
theorem forwardSlot_lt {m k : Nat} (hm : 1 ≤ m) (hmk : m < k) (hk : k ≤ 4) :
    2 + (m - 1) * (8 - m) / 2 + (k - m - 1) < 8 := by
  have hm3 : m ≤ 3 := by omega
  interval_cases m <;> omega

theorem slot_of_forward {m k : Nat} (hm : 1 ≤ m) (hmk : m < k) (hk : k ≤ 4) :
    slot m k = some ⟨2 + (m - 1) * (8 - m) / 2 + (k - m - 1), forwardSlot_lt hm hmk hk⟩ := by
  rw [slot, if_neg hmk.ne, if_pos ⟨hm, hmk, hk⟩]
  exact congrArg some (Fin.ext (Nat.mod_eq_of_lt (forwardSlot_lt hm hmk hk)))

/-! ### The routing commands -/

section

variable {c : Fin 16} {tv form : Bool} {t : ExReal} {s : State} {ch : Channel} {evs : List Event}

/-- A ready command whose operands are in range is its body at the command's time. -/
theorem Ready.withChecks_form_eq (hready : Ready s c tv t) (hform : form = true) (body : ExReal → Result) :
    withChecks Config.cfg c tv form s body = body t := by
  obtain ⟨hc, ht, hstopped⟩ := hready
  exact withChecks_pass hc hform ht hstopped

theorem routed_of_disorder (hdisorder : t.val < (s.chan c).routeLastTime.val) :
    routed s c t ch evs = .refused .undefinedTimeOrder := by
  simp only [routed, timeOrdered_iff, hdisorder.not_ge, if_false]

theorem onlyControl_putChan (s : State) (c : Fin 16) (henvs : ch.envs = (s.chan c).envs)
    (hoprs : ch.oprs = (s.chan c).oprs) : OnlyControl s (s.putChan c ch) c := by
  refine ⟨fun c' o' => ?_, fun c' o' => ?_, fun c' hne => chan_putChan_other s c c' ch hne⟩ <;>
    by_cases hc : c' = c
  · subst hc; simp [State.env, henvs]
  · simp [State.env, hc]
  · subst hc; simp [State.opr, hoprs]
  · simp [State.opr, hc]

/-- What a routing command that is performed puts out. -/
theorem performed_routed (s : State) (c : Fin 16) (ch : Channel) (evs : List Event) :
    Performed s (((s.putChan c ch).emit evs).respond .ok (.rat 0)) evs :=
  ⟨⟨rfl, rfl, rfl, rfl⟩, rfl⟩

theorem chan_routed (s : State) (c : Fin 16) (ch : Channel) (evs : List Event) :
    (((s.putChan c ch).emit evs).respond .ok (.rat 0)).chan c = ch :=
  chan_putChan_same s c ch

theorem exec_chUsealg_four_of (hready : Ready s c tv t) (horder : (s.chan c).routeLastTime.val ≤ t.val) {n : BitVec 4}
    (hn : n.toNat < 8) :
    exec (.chUsealg c tv .four n) s =
      .next (((s.putChan c ((s.chan c).useAlg4 n (Config.cfg.data.alg4 ⟨n.toNat, hn⟩) t)).emit
        (alg4Events c (Config.cfg.data.alg4 ⟨n.toNat, hn⟩) t)).respond .ok (.rat 0)) := by
  have hindex : Fin.ofNat 8 n.toNat = ⟨n.toNat, hn⟩ := Fin.ext (Nat.mod_eq_of_lt hn)
  refine (hready.withChecks_form_eq (decide_eq_true hn) _).trans ?_
  simp only [hindex]
  exact routed_of _ _ horder

/-- View 1 is the operand `two0`, view 2 is `two1` (rule R171). -/
theorem exec_chUsealg_two_of (hready : Ready s c tv t) (horder : (s.chan c).routeLastTime.val ≤ t.val) (v : Fin 2)
    {n : BitVec 4} (hn : n.toNat < 2) :
    exec (.chUsealg c tv (if v = 0 then .two0 else .two1) n) s =
      .next (((s.putChan c ((s.chan c).useAlg2 v n (Config.cfg.data.alg2 ⟨n.toNat, hn⟩) t)).emit
        (alg2Events c v (Config.cfg.data.alg2 ⟨n.toNat, hn⟩) t)).respond .ok (.rat 0)) := by
  have hindex : Fin.ofNat 2 n.toNat = ⟨n.toNat, hn⟩ := Fin.ext (Nat.mod_eq_of_lt hn)
  have hbody : exec (.chUsealg c tv (if v = 0 then .two0 else .two1) n) s = useTwoOperators Config.cfg c v n t s := by
    fin_cases v <;> exact hready.withChecks_form_eq (decide_eq_true hn) _
  rw [hbody, useTwoOperators, hindex]
  exact routed_of _ _ horder

theorem feedbackSlot_of_odd (o : Fin 4) (ho : o = 1 ∨ o = 3) : feedbackSlot o = none := by
  obtain rfl | rfl := ho <;> rfl

theorem feedbackSlot_two_mul (k : Fin 2) : feedbackSlot ⟨2 * k.val, by omega⟩ = some k := by
  fin_cases k <;> rfl

theorem exec_chSetfb_of_no_slot (hready : Ready s c tv t) {o : Fin 4} (ho : feedbackSlot o = none) (m : Method)
    (amount : BitVec 3) : exec (.chSetfb c o tv m amount) s = .refused .undefinedOperatorNumber := by
  refine (hready.withChecks_eq _).trans ?_
  simp only [ho]

/-- CH.SETFB on an operator that has a feedback slot is a routing command. -/
theorem exec_chSetfb_eq_routed (hready : Ready s c tv t) {o : Fin 4} {k : Fin 2} (ho : feedbackSlot o = some k)
    (m : Method) (amount : BitVec 3) :
    exec (.chSetfb c o tv m amount) s =
      routed s c t ((s.chan c).setFeedback k amount (Config.cfg.data.feedbackDepth amount) t)
        [methodEvent m (.mod c (k.castLE (by decide))) (.rat (Config.cfg.data.feedbackDepth amount)) t] := by
  refine (hready.withChecks_eq _).trans ?_
  simp only [ho]

theorem exec_chSetpan_eq_routed (hready : Ready s c tv t) (m : Method) {p : BitVec 8} (hp : p ≠ 0x80#8) :
    exec (.chSetpan c tv m p) s =
      routed s c t { s.chan c with pan := p, routeLastTime := t } [methodEvent m (.pan c) (.rat (panValue p)) t] :=
  hready.withChecks_form_eq (bne_iff_ne.mpr hp) _

end

/-! ### The registers they write -/

@[simp] theorem viewFirst_val (v : Fin 2) : (viewFirst v).val = 2 * v.val := by
  fin_cases v <;> rfl

@[simp] theorem viewSecond_val (v : Fin 2) : (viewSecond v).val = 2 * v.val + 1 := by
  fin_cases v <;> rfl

section

variable (ch : Channel) (v : Fin 2) (n : BitVec 4) (t : ExReal)

/-- A four-operator selection writes the six slots past the feedback slots (rule R174). -/
theorem useAlg4_g_past (a : Alg4) (i : Fin 6) : (ch.useAlg4 n a t).g[i.val + 2] = a.d[i.val] := by
  fin_cases i <;> rfl

theorem useAlg2_g (a : Alg2) (i : Fin 8) :
    (ch.useAlg2 v n a t).g[i.val] = if i = viewSlot v then a.d else ch.g[i.val] := by
  simp only [Channel.useAlg2, Vector.getElem_set, Fin.ext_iff, eq_comm]

theorem useAlg2_outLevel (a : Alg2) (o : Fin 4) :
    (ch.useAlg2 v n a t).outLevel[o.val] =
      if o.val = 2 * v.val then a.out[0] else if o.val = 2 * v.val + 1 then a.out[1] else ch.outLevel[o.val] := by
  simp only [Channel.useAlg2, Vector.getElem_set, viewFirst_val, viewSecond_val, eq_comm (b := o.val)]
  by_cases hfirst : o.val = 2 * v.val
  · simp [hfirst]
  · simp [hfirst]

theorem useAlg2_alg2_toNat (a : Alg2) (hn : n.toNat < 2) (w : Fin 2) :
    ((ch.useAlg2 v n a t).alg2[w.val]).toNat = if w = v then n.toNat else (ch.alg2[w.val]).toNat := by
  simp only [Channel.useAlg2, Vector.getElem_set, Fin.ext_iff, eq_comm (a := v.val)]
  split
  · exact Nat.mod_eq_of_lt hn
  · rfl

theorem setFeedback_g (k : Fin 2) (amount : BitVec 3) (depth : Rat) (i : Fin 8) :
    (ch.setFeedback k amount depth t).g[i.val] = if i.val = k.val then depth else ch.g[i.val] := by
  simp only [Channel.setFeedback, Vector.getElem_set, eq_comm]

theorem setFeedback_fbCode (k : Fin 2) (amount : BitVec 3) (depth : Rat) (w : Fin 2) :
    (ch.setFeedback k amount depth t).fbCode[w.val] = if w = k then amount else ch.fbCode[w.val] := by
  simp only [Channel.setFeedback, Vector.getElem_set, Fin.ext_iff, eq_comm]

end

/-! ### The pan value (rule R89) -/

theorem toInt_eq_signed (p : BitVec 8) :
    p.toInt = if p.toNat < 128 then (p.toNat : Int) else (p.toNat : Int) - 256 := by
  rw [BitVec.toInt_eq_toNat_cond]
  split <;> split <;> omega

theorem panValue_eq (p : BitVec 8) :
    panValue p = ((if p.toNat < 128 then (p.toNat : Int) else (p.toNat : Int) - 256 : Int) : Rat) / 127 := by
  rw [panValue, toInt_eq_signed]

/-- The pattern 0x80 is the one operand below -127. -/
theorem panValue_mem {p : BitVec 8} (hp : p ≠ 0x80#8) : -1 ≤ panValue p ∧ panValue p ≤ 1 := by
  have hne : p.toNat ≠ 128 := fun h => hp (BitVec.eq_of_toNat_eq h)
  have hlt := p.isLt
  have hrange : -127 ≤ p.toInt ∧ p.toInt ≤ 127 := by
    rw [toInt_eq_signed]
    split <;> omega
  have hlow : (-127 : Rat) ≤ p.toInt := by exact_mod_cast hrange.1
  have hhigh : (p.toInt : Rat) ≤ 127 := by exact_mod_cast hrange.2
  rw [panValue, le_div_iff₀ (by norm_num), div_le_iff₀ (by norm_num)]
  exact ⟨by linarith, by linarith⟩

end Sys2Proof.Machine

namespace Sys2Proof.Proofs

open Sys2Proof Sys2Proof.Machine

/-- Settles O42: the eight pairs are computed, and a forward pair has the slot of the formula. -/
theorem slotFunction : Obligations.SlotFunction := by
  refine ⟨by decide, by decide, by decide, by decide, by decide, by decide, by decide, by decide,
    fun m k => slot_of_backward, by decide, by decide, fun m k hm hmk hk i hi => ?_⟩
  rw [slot_of_forward hm hmk hk] at hi
  exact congrArg Fin.val (Option.some.inj hi).symm

/-- Settles O35: each clause meets exactly one of the rule's tests. -/
theorem lifeIsComputed : Obligations.LifeIsComputed := by
  intro s c o t e
  refine ⟨fun hoff => ?_, fun hon hidle => ?_, fun hon hkeyed hsilent => ?_, fun hon hsound hkey => ?_,
    fun hon hsound hkey => ?_⟩
  · simp [State.life, hoff]
  · simp [State.life, hon, e, hidle]
  · simp [State.life, hon, e, hkeyed, hsilent]
  · simp [State.life, hon, e, hkey, hsound.not_ge]
  · simp [State.life, hon, e, hkey, hsound.not_ge]

/-- Settles O43: the table's row goes to slots 2 to 7 and the output levels, and the feedback slots are kept. -/
theorem useAlgWritesFourOperatorTable : Obligations.UseAlgWritesFourOperatorTable := by
  intro s c tv n t hn hready horder a ch
  refine ⟨_, exec_chUsealg_four_of hready horder hn, performed_routed s c _ (alg4Events c a t),
    onlyControl_putChan s c rfl rfl, ?_⟩
  rw [chan_routed]
  exact ⟨useAlg4_g_past ch n t a, rfl, rfl, rfl, rfl, rfl, rfl, rfl, rfl, rfl⟩

/-- Settles O44: the view's slot, output levels and algorithm number are the ones written. -/
theorem useAlgWritesTwoOperatorTable : Obligations.UseAlgWritesTwoOperatorTable := by
  intro s c tv v n t hn hready horder a ch view own
  have hevents : alg2Events c v a t = [.set (.mod c own) (.rat a.d) t,
      .set (.out c ⟨2 * v.val, by omega⟩) (.rat a.out[0]) t,
      .set (.out c ⟨2 * v.val + 1, by omega⟩) (.rat a.out[1]) t] := by
    fin_cases v <;> rfl
  rw [← hevents]
  refine ⟨_, exec_chUsealg_two_of hready horder v hn, performed_routed .., onlyControl_putChan s c rfl rfl, ?_⟩
  rw [chan_routed]
  exact ⟨useAlg2_g ch v n t a, useAlg2_outLevel ch v n t a, useAlg2_alg2_toNat ch v n t a hn, rfl, rfl, rfl, rfl, rfl⟩

/-- Settles O45: operator index `2k` has feedback slot `k`, and the command is then a routing command. -/
theorem setFbWritesFeedbackSlot : Obligations.SetFbWritesFeedbackSlot := by
  intro s c tv m amount t hready
  refine ⟨fun o ho => exec_chSetfb_of_no_slot hready (feedbackSlot_of_odd o ho) m amount, fun k hdisorder => ?_,
    fun k horder => ?_⟩
  · rw [exec_chSetfb_eq_routed hready (feedbackSlot_two_mul k), routed_of_disorder hdisorder]
  · intro depth ch p ev
    have hev : methodEvent m p (.rat depth) t = ev := by cases m <;> rfl
    rw [exec_chSetfb_eq_routed hready (feedbackSlot_two_mul k), ← hev]
    refine ⟨_, routed_of _ _ horder, performed_routed .., onlyControl_putChan s c rfl rfl, ?_⟩
    rw [chan_routed]
    refine ⟨setFeedback_g ch t k amount depth, setFeedback_fbCode ch t k amount depth, rfl, rfl, rfl, rfl, rfl, rfl, ?_⟩
    rintro rfl
    exact Laws.feedbackDepth_zero Config.cfg

/-- Settles O46: the command is a routing command whose value is the signed operand over 127. -/
theorem setPanWritesPan : Obligations.SetPanWritesPan := by
  intro s c tv m p t hready hp
  rw [exec_chSetpan_eq_routed hready m hp]
  refine ⟨routed_of_disorder, fun horder => ?_⟩
  intro signed v ch ev
  have hv : panValue p = v := panValue_eq p
  have hev : methodEvent m (.pan c) (.rat (panValue p)) t = ev := by rw [hv]; cases m <;> rfl
  obtain ⟨-, -, hothers⟩ := onlyControl_putChan s c (ch := { ch with pan := p, routeLastTime := t }) rfl rfl
  rw [← hev, ← hv]
  exact ⟨_, routed_of _ _ horder, performed_routed .., chan_routed .., hothers, panValue_mem hp⟩

end Sys2Proof.Proofs
end

section
/-!
LEMMAS. The composite commands of a channel (rules R183 to R187): a command performed inside another one, and the loop
over the four operators, each of which is written in its own turn and read as it was at the start.
-/

namespace Sys2Proof.Machine

open Sys2Proof

section

variable {c : Fin 16} {o : Fin 4} {tv : Bool} {t : ExReal} {i : Instr} {s u v : State}

/-! ### A command performed inside another one -/

/-- A command that is performed leaves what it leaves before it answers. -/
theorem performs_of_exec {st : Status} {x : ExReal} (h : exec i s = .next (u.respond st x))
    (hresponses : u.responses = s.responses) : Performs i s u :=
  ⟨_, h, by simp only [State.respond, ← hresponses]⟩

theorem Performs.ports (h : Performs i s u) : u.ports = s.ports := by
  obtain ⟨w, hw, rfl⟩ := h
  obtain ⟨x, st, y, hx, rfl, -⟩ := exec_answers hw
  exact hx.ports

theorem PerformsIf.ports {b : Bool} (h : PerformsIf b i s u) : u.ports = s.ports := by
  cases b with
  | true => exact Performs.ports h
  | false => exact congrArg State.ports h

/-! ### The registers that a write of envelopes leaves alone -/

theorem WritesEnvelope.env_other {R : Envelope → Envelope → Prop} (h : WritesEnvelope R c o s u) {o' : Fin 4}
    (hne : o' ≠ o) : u.env c o' = s.env c o' := by
  obtain ⟨e, -, hchan⟩ := h
  rw [← env_putEnv_other s c c o o' e fun hsame => hne hsame.2]
  simp only [State.env, hchan]

theorem WritesEnvelope.oprs {R : Envelope → Envelope → Prop} (h : WritesEnvelope R c o s u) :
    (u.chan c).oprs = (s.chan c).oprs := by
  obtain ⟨e, -, hchan⟩ := h
  rw [hchan, chan_putEnv, if_pos rfl]

theorem WritesEnvelope.stopped {R : Envelope → Envelope → Prop} (h : WritesEnvelope R c o s u) :
    (u.chan c).stopped = (s.chan c).stopped := by
  obtain ⟨e, -, hchan⟩ := h
  rw [hchan, stopped_putEnv]

namespace WritesEnvelopes

variable {R : Fin 4 → Envelope → Envelope → Prop}

theorem env (h : WritesEnvelopes R c s u) (o : Fin 4) : R o (s.env c o) (u.env c o) := by
  obtain ⟨envs, hr, hchan⟩ := h
  have henv : u.env c o = envs[o.val] := by rw [State.env, hchan, chan_putChan_same]
  rw [henv]
  exact hr o

theorem onlyChannel (h : WritesEnvelopes R c s u) : OnlyChannel s u c := by
  obtain ⟨envs, -, hchan⟩ := h
  exact fun c' hne => (hchan c').trans (chan_putChan_other s c c' _ hne)

theorem oprs (h : WritesEnvelopes R c s u) : (u.chan c).oprs = (s.chan c).oprs := by
  obtain ⟨envs, -, hchan⟩ := h
  rw [hchan, chan_putChan_same]

theorem opr (h : WritesEnvelopes R c s u) (c' : Fin 16) (o : Fin 4) : u.opr c' o = s.opr c' o := by
  by_cases hc : c' = c
  · subst hc
    rw [State.opr, h.oprs, State.opr]
  · rw [State.opr, h.onlyChannel c' hc, State.opr]

theorem sameControl (h : WritesEnvelopes R c s u) : Channel.sameControl (s.chan c) (u.chan c) := by
  obtain ⟨envs, -, hchan⟩ := h
  rw [hchan, chan_putChan_same]
  exact Channel.sameControl_refl _

end WritesEnvelopes

/-! ### The loop over the operators -/

/-- `v` is a state of a loop over the operators of channel c that began in `s`, when operators `n`, `n + 1`, ... have
not had their turn: what the loop reads of them, and of the channel, is as at the start. -/
structure BeforeTurn (c : Fin 16) (n : Nat) (s v : State) : Prop where
  envs : ∀ o : Fin 4, n ≤ o.val → v.env c o = s.env c o
  oprs : (v.chan c).oprs = (s.chan c).oprs
  stopped : (v.chan c).stopped = (s.chan c).stopped
  ports : v.ports = s.ports

theorem BeforeTurn.refl (c : Fin 16) (s : State) : BeforeTurn c 0 s s := ⟨fun _ _ => rfl, rfl, rfl, rfl⟩

theorem BeforeTurn.next {R : Envelope → Envelope → Prop} (h : BeforeTurn c o.val s u) (hw : WritesEnvelope R c o u v)
    (hports : v.ports = u.ports) : BeforeTurn c (o.val + 1) s v where
  envs o' hlt := (hw.env_other (Fin.ne_of_gt hlt)).trans (h.envs o' (Nat.le_of_succ_le hlt))
  oprs := hw.oprs.trans h.oprs
  stopped := hw.stopped.trans h.stopped
  ports := hports.trans h.ports

theorem BeforeTurn.env (h : BeforeTurn c o.val s v) : v.env c o = s.env c o := h.envs o le_rfl

theorem BeforeTurn.opr {n : Nat} (h : BeforeTurn c n s v) (o : Fin 4) : v.opr c o = s.opr c o := by
  rw [State.opr, h.oprs, State.opr]

theorem BeforeTurn.ready {n : Nat} (h : BeforeTurn c n s v) (hready : Ready s c tv t) : Ready v c tv t := by
  obtain ⟨hc, ht, hstopped⟩ := hready
  exact ⟨hc, by rw [h.ports, ht], by rw [h.stopped, hstopped]⟩

/-- The loop in which each operator's turn is a performed command that writes the operator's envelope. -/
theorem exists_forOperators {f : Fin 4 → State → Except Refusal State} {on : Fin 4 → Bool} {i : Fin 4 → Instr}
    {R : Fin 4 → Envelope → Envelope → Prop}
    (hturn : ∀ o v, BeforeTurn c o.val s v →
      ∃ v', f o v = .ok v' ∧ PerformsIf (on o) (i o) v v' ∧ WritesEnvelope (R o) c o v v') :
    ∃ u, forOperators f s = .ok u ∧ PerformsEach on i s u ∧ WritesEnvelopes R c s u := by
  have h0 := BeforeTurn.refl c s
  obtain ⟨s1, hf0, hp0, hw0⟩ := hturn 0 s h0
  have h1 := h0.next (o := 0) hw0 hp0.ports
  obtain ⟨s2, hf1, hp1, hw1⟩ := hturn 1 s1 h1
  have h2 := h1.next (o := 1) hw1 hp1.ports
  obtain ⟨s3, hf2, hp2, hw2⟩ := hturn 2 s2 h2
  have h3 := h2.next (o := 2) hw2 hp2.ports
  obtain ⟨u, hf3, hp3, hw3⟩ := hturn 3 s3 h3
  exact ⟨u, forOperators_of_steps hf0 hf1 hf2 hf3, ⟨s1, s2, s3, hp0, hp1, hp2, hp3⟩,
    writesEnvelopes_of_four hw0 hw1 hw2 hw3⟩

/-- A loop that succeeds has given every operator its turn. -/
theorem forOperators_turn {f : Fin 4 → State → Except Refusal State} {R : Fin 4 → Envelope → Envelope → Prop}
    (hw : ∀ o v v', f o v = .ok v' → WritesEnvelope (R o) c o v v' ∧ v'.ports = v.ports)
    (h : forOperators f s = .ok u) (o : Fin 4) : ∃ v v', BeforeTurn c o.val s v ∧ f o v = .ok v' := by
  obtain ⟨s1, s2, s3, hf0, hf1, hf2, hf3⟩ := forOperators_ok h
  have h0 := BeforeTurn.refl c s
  have h1 := h0.next (o := 0) (hw _ _ _ hf0).1 (hw _ _ _ hf0).2
  have h2 := h1.next (o := 1) (hw _ _ _ hf1).1 (hw _ _ _ hf1).2
  have h3 := h2.next (o := 2) (hw _ _ _ hf2).1 (hw _ _ _ hf2).2
  fin_cases o
  · exact ⟨s, s1, h0, hf0⟩
  · exact ⟨s1, s2, h1, hf1⟩
  · exact ⟨s2, s3, h2, hf2⟩
  · exact ⟨s3, u, h3, hf3⟩

theorem foldlM_error {f : Fin 4 → State → Except Refusal State} {r : Refusal} {l : List (Fin 4)}
    (h : l.foldlM (fun v o => f o v) s = .error r) : ∃ o v, f o v = .error r := by
  induction l generalizing s with
  | nil => cases h
  | cons o l ih =>
    cases hf : f o s with
    | error r' =>
      simp only [List.foldlM_cons, hf, bind, Except.bind] at h
      exact ⟨o, s, hf.trans h⟩
    | ok v =>
      simp only [List.foldlM_cons, hf, bind, Except.bind] at h
      exact ih h

theorem forOperators_error {f : Fin 4 → State → Except Refusal State} {r : Refusal}
    (h : forOperators f s = .error r) : ∃ o v, f o v = .error r :=
  foldlM_error h

end

end Sys2Proof.Machine
end

section
/-!
LEMMAS. The channel's lifecycle and keying commands (rules R182 to R187): CH.KEYON and CH.KEYOFF as one loop over the
enabled operators, CH.SOUNDOFF as a loop over all four, CH.DISOP and CH.STOP.
-/

namespace Sys2Proof.Machine

open Sys2Proof

/-! ### CH.KEYON and CH.KEYOFF: the loop over the enabled operators -/

section

variable {c : Fin 16} {o : Fin 4} {tv : Bool} {tag : BitVec 8} {kc : BitVec 5} {t : ExReal} {s u v : State}

/-- A key operation at `t` can be performed on an operator: its time is in order and its level defined. -/
def CanKey (c : Fin 16) (t : ExReal) (s : State) (o : Fin 4) : Prop :=
  (s.env c o).lastTime.val ≤ t.val ∧ (s.level c o t).isSome = true

theorem not_canKey_iff : ¬CanKey c t s o ↔ t.val < (s.env c o).lastTime.val ∨ s.level c o t = none := by
  rw [CanKey, not_and_or, not_le, Bool.not_eq_true, Option.isSome_eq_false_iff, Option.isNone_iff_eq_none]

theorem BeforeTurn.canKey_iff (h : BeforeTurn c o.val s v) : CanKey c t v o ↔ CanKey c t s o := by
  rw [CanKey, CanKey, State.level, State.level, h.env]

/-- The operation `key` of one operator, with its key code, performed on the operator where it is enabled. -/
def ifEnabled (c : Fin 16) (key : Fin 4 → BitVec 5 → State → Except Refusal State) (o : Fin 4) (s : State) :
    Except Refusal State :=
  if (s.opr c o).enabled then key o (s.opr c o).keyCode s else .ok s

theorem keyOnIfEnabled_eq (cfg : Cfg) (c : Fin 16) (tag : BitVec 8) (t : ExReal) :
    keyOnIfEnabled cfg c tag t = ifEnabled c fun o kc => keyOnEnvelope cfg c o tag kc t :=
  rfl

theorem keyOffIfEnabled_eq (cfg : Cfg) (c : Fin 16) (tag : BitVec 8) (t : ExReal) :
    keyOffIfEnabled cfg c tag t = ifEnabled c fun o kc => keyOffEnvelope cfg c o tag kc t :=
  rfl

/-- The operation `key` of one operator is the body of command `i`, is performed exactly where `CanKey` says, and writes
the operator's envelope as `R` says. -/
structure KeysAsCommand (c : Fin 16) (tv : Bool) (t : ExReal) (key : Fin 4 → BitVec 5 → State → Except Refusal State)
    (i : Fin 4 → BitVec 5 → Instr) (R : Envelope → Envelope → Prop) : Prop where
  exec_eq : ∀ {o kc v}, Ready v c tv t → exec (i o kc) v = finish (key o kc v)
  ok_iff : ∀ {o kc v}, (∃ v', key o kc v = .ok v') ↔ CanKey c t v o
  writes : ∀ {o kc v v'}, key o kc v = .ok v' → WritesEnvelope R c o v v'
  unanswered : ∀ {o kc v v'}, key o kc v = .ok v' → Unanswered v v'

/-- An envelope is written as `R` says where its operator is enabled, and is left as it was where not. -/
def WrittenIf (R : Envelope → Envelope → Prop) (enabled : Bool) (e e' : Envelope) : Prop :=
  (enabled = false → e' = e) ∧ (enabled = true → R e e')

theorem writesEnvelope_of_same {R : Envelope → Envelope → Prop} (h : R (s.env c o) (s.env c o)) :
    WritesEnvelope R c o s s := by
  refine ⟨s.env c o, h, fun c' => ?_⟩
  rw [chan_putEnv]
  split
  · next hc => subst hc; simp [State.env]
  · rfl

namespace KeysAsCommand

variable {key : Fin 4 → BitVec 5 → State → Except Refusal State} {i : Fin 4 → BitVec 5 → Instr}
  {R : Envelope → Envelope → Prop}

theorem performs (hk : KeysAsCommand c tv t key i R) (hready : Ready s c tv t) (h : key o kc s = .ok u) :
    Performs (i o kc) s u :=
  performs_of_exec ((hk.exec_eq hready).trans (congrArg finish h)) (hk.unanswered h).responses

theorem ifEnabled_writes (hk : KeysAsCommand c tv t key i R) (h : ifEnabled c key o s = .ok u) :
    WritesEnvelope (WrittenIf R (s.opr c o).enabled) c o s u := by
  cases hon : (s.opr c o).enabled with
  | false =>
    simp only [ifEnabled, hon, Bool.false_eq_true, if_false, Except.ok.injEq] at h
    subst h
    exact writesEnvelope_of_same ⟨fun _ => rfl, by simp⟩
  | true =>
    simp only [ifEnabled, hon, if_true] at h
    obtain ⟨e, hr, hchan⟩ := hk.writes h
    exact ⟨e, ⟨by simp, fun _ => hr⟩, hchan⟩

theorem ifEnabled_performs (hk : KeysAsCommand c tv t key i R) (hready : Ready s c tv t)
    (h : ifEnabled c key o s = .ok u) : PerformsIf (s.opr c o).enabled (i o (s.opr c o).keyCode) s u := by
  cases hon : (s.opr c o).enabled with
  | false => simpa [ifEnabled, hon, eq_comm, PerformsIf] using h
  | true => exact hk.performs hready (by simpa [ifEnabled, hon] using h)

theorem ifEnabled_ports (hk : KeysAsCommand c tv t key i R) (h : ifEnabled c key o s = .ok u) : u.ports = s.ports := by
  unfold ifEnabled at h
  split at h
  · exact (hk.unanswered h).ports
  · cases h; rfl

theorem ifEnabled_ok_iff (hk : KeysAsCommand c tv t key i R) :
    (∃ u, ifEnabled c key o s = .ok u) ↔ ((s.opr c o).enabled = true → CanKey c t s o) := by
  unfold ifEnabled
  split
  · next hon => simp [hk.ok_iff, hon]
  · next hoff => simp [hoff]

/-- The loop over the enabled operators is performed where each of them can be keyed. -/
theorem exists_forEnabled (hk : KeysAsCommand c tv t key i R) (hready : Ready s c tv t)
    (hcan : ∀ o, (s.opr c o).enabled = true → CanKey c t s o) :
    ∃ u, forOperators (ifEnabled c key) s = .ok u ∧
      PerformsEach (fun o => (s.opr c o).enabled) (fun o => i o (s.opr c o).keyCode) s u ∧
      WritesEnvelopes (fun o => WrittenIf R (s.opr c o).enabled) c s u := by
  refine exists_forOperators fun o v hv => ?_
  obtain ⟨v', hv'⟩ := hk.ifEnabled_ok_iff.mpr fun hon => hv.canKey_iff.mpr (hcan o (hv.opr o ▸ hon))
  rw [← hv.opr o]
  exact ⟨v', hv', hk.ifEnabled_performs (hv.ready hready) hv', hk.ifEnabled_writes hv'⟩

/-- Where an enabled operator cannot be keyed the loop has no outcome (rule R184: nothing is partly performed). -/
theorem forEnabled_refused (hk : KeysAsCommand c tv t key i R)
    (hbad : ∃ o, (s.opr c o).enabled = true ∧ ¬CanKey c t s o) :
    ∃ r, forOperators (ifEnabled c key) s = .error r := by
  obtain ⟨o, hon, hcannot⟩ := hbad
  cases hloop : forOperators (ifEnabled c key) s with
  | error r => exact ⟨r, rfl⟩
  | ok u =>
    obtain ⟨v, v', hv, hv'⟩ := forOperators_turn (R := fun _ _ _ => True)
      (fun _ _ _ h => ⟨(hk.ifEnabled_writes h).imp fun _ hw => ⟨trivial, hw.2⟩, hk.ifEnabled_ports h⟩) hloop o
    exact absurd (hv.canKey_iff.mp (hk.ifEnabled_ok_iff.mp ⟨v', hv'⟩ (hv.opr o ▸ hon))) hcannot

/-- A command whose body is the loop over the enabled operators (rules R184, R185). -/
theorem finish_forEnabled (hk : KeysAsCommand c tv t key i R) (hready : Ready s c tv t) :
    ((∃ o, (s.opr c o).enabled = true ∧ (t.val < (s.env c o).lastTime.val ∨ s.level c o t = none)) →
      ∃ r, finish (forOperators (ifEnabled c key) s) = .refused r) ∧
    ((∀ o, (s.opr c o).enabled = true → CanKey c t s o) →
      ∃ s' u, finish (forOperators (ifEnabled c key) s) = .next s' ∧
        PerformsEach (fun o => (s.opr c o).enabled) (fun o => i o (s.opr c o).keyCode) s u ∧
        s' = u.respond .ok (.rat 0) ∧
        (∀ o, (s.opr c o).enabled = false → s'.env c o = s.env c o) ∧
        (∀ o, (s.opr c o).enabled = true → R (s.env c o) (s'.env c o)) ∧
        (∀ c' o', s'.opr c' o' = s.opr c' o') ∧ OnlyChannel s s' c ∧ Channel.sameControl (s.chan c) (s'.chan c)) := by
  refine ⟨fun ⟨o, hon, hbad⟩ => ?_, fun hcan => ?_⟩
  · obtain ⟨r, hr⟩ := hk.forEnabled_refused ⟨o, hon, not_canKey_iff.mpr hbad⟩
    exact ⟨r, by rw [hr, finish_error]⟩
  · obtain ⟨u, hu, hperforms, hw⟩ := hk.exists_forEnabled hready hcan
    rw [hu]
    exact ⟨_, u, finish_ok u, hperforms, rfl, fun o => (hw.env o).1, fun o => (hw.env o).2, hw.opr, hw.onlyChannel,
      hw.sameControl⟩

end KeysAsCommand

/-- What a key-on at `t` leaves of an envelope. -/
def KeyedOnAt (tag : BitVec 8) (t : ExReal) (e e' : Envelope) : Prop :=
  e'.egKey = .on ∧ e'.srcTag = tag ∧ e'.beginAttack = t ∧ some e'.beginLevel = e.level Config.cfg t

/-- What a key-off at `t` leaves of an envelope. -/
def KeyedOffAt (tag : BitVec 8) (t : ExReal) (e e' : Envelope) : Prop :=
  e'.egKey = .off ∧ e'.srcTag = tag ∧ e'.beginRelease = t ∧ some e'.releaseLevel = e.level Config.cfg t

theorem keyOnEnvelope_keysAsCommand (c : Fin 16) (tv : Bool) (tag : BitVec 8) (t : ExReal) :
    KeysAsCommand c tv t (fun o kc => keyOnEnvelope Config.cfg c o tag kc t) (fun o kc => .egKeyon c o tv tag kc)
      (KeyedOnAt tag t) where
  exec_eq hready := hready.withChecks_eq _
  ok_iff := by
    refine ⟨fun ⟨v', h⟩ => ?_, fun ⟨horder, hlevel⟩ => ?_⟩
    · obtain ⟨b, horder, hlevel, -⟩ := keyOnEnvelope_ok h
      exact ⟨horder, Option.isSome_of_eq_some hlevel⟩
    · obtain ⟨b, hb⟩ := Option.isSome_iff_exists.mp hlevel
      exact ⟨_, keyOnEnvelope_of tag _ horder hb⟩
  writes h := by
    obtain ⟨b, -, hlevel, rfl⟩ := keyOnEnvelope_ok h
    exact ⟨_, ⟨rfl, rfl, rfl, hlevel.symm⟩, fun _ => keyedOn_chan ..⟩
  unanswered := keyOnEnvelope_unanswered

theorem keyOffEnvelope_keysAsCommand (c : Fin 16) (tv : Bool) (tag : BitVec 8) (t : ExReal) :
    KeysAsCommand c tv t (fun o kc => keyOffEnvelope Config.cfg c o tag kc t) (fun o kc => .egKeyoff c o tv tag kc)
      (KeyedOffAt tag t) where
  exec_eq hready := hready.withChecks_eq _
  ok_iff := by
    refine ⟨fun ⟨v', h⟩ => ?_, fun ⟨horder, hlevel⟩ => ?_⟩
    · obtain ⟨l, horder, hlevel, -⟩ := keyOffEnvelope_ok h
      exact ⟨horder, Option.isSome_of_eq_some hlevel⟩
    · obtain ⟨l, hl⟩ := Option.isSome_iff_exists.mp hlevel
      exact ⟨_, keyOffEnvelope_of tag _ horder hl⟩
  writes h := by
    obtain ⟨l, -, hlevel, rfl⟩ := keyOffEnvelope_ok h
    exact ⟨_, ⟨rfl, rfl, rfl, hlevel.symm⟩, fun _ => rfl⟩
  unanswered := keyOffEnvelope_unanswered

/-! ### CH.ENOP and CH.DISOP -/

theorem Channel.sameControl.trans {a b d : Channel} (h : Channel.sameControl a b) (h' : Channel.sameControl b d) :
    Channel.sameControl a d := by
  obtain ⟨hg, hout, halg, halg2, hfb, hpan, hstopped, hlast⟩ := h'
  rw [Channel.sameControl, hg, hout, halg, halg2, hfb, hpan, hstopped, hlast]
  exact h

theorem exec_chEnop_of (hc : Config.cfg.hasChannel c = true) (hstopped : (s.chan c).stopped = false) :
    exec (.chEnop c o) s = .next ((s.setEnabled c o true).respond .ok (.rat 0)) :=
  withChecks_pass hc rfl (commandTime_now s.ports) hstopped

theorem soundOffEnvelope_of_disorder (hdisorder : t.val < (s.env c o).lastTime.val) :
    soundOffEnvelope c o t s = .error .undefinedTimeOrder := by
  simp only [soundOffEnvelope, timeOrdered_iff, hdisorder.not_ge, if_false]

theorem exec_chDisop_of_disorder (hready : Ready s c tv t) (hdisorder : t.val < (s.env c o).lastTime.val) :
    exec (.chDisop c o tv) s = .refused .undefinedTimeOrder := by
  refine (hready.withChecks_eq _).trans ?_
  rw [soundOffEnvelope_of_disorder hdisorder, Except.map, finish_error]

theorem exec_chDisop_of (hready : Ready s c tv t) (h : soundOffEnvelope c o t s = .ok u) :
    exec (.chDisop c o tv) s = .next ((u.setEnabled c o false).respond .ok (.rat 0)) := by
  refine (hready.withChecks_eq _).trans ?_
  rw [h, Except.map, finish_ok]

/-! ### CH.SOUNDOFF -/

theorem soundOffEnvelope_error {r : Refusal} (h : soundOffEnvelope c o t s = .error r) : r = .undefinedTimeOrder := by
  unfold soundOffEnvelope at h
  simp only at h
  split at h
  · cases h
  · cases h; rfl

theorem soundOffEnvelope_writesEnvelope (h : soundOffEnvelope c o t s = .ok u) :
    WritesEnvelope (fun e e' => e' = e.soundOff t) c o s u := by
  obtain ⟨-, rfl⟩ := soundOffEnvelope_ok h
  exact ⟨_, rfl, fun _ => rfl⟩

theorem soundOffEnvelope_performs (hready : Ready s c tv t) (h : soundOffEnvelope c o t s = .ok u) :
    Performs (.egSoundoff c o tv) s u :=
  performs_of_exec ((hready.withChecks_eq _).trans (congrArg finish h)) (soundOffEnvelope_unanswered h).responses

theorem exec_chSoundoff_eq (hready : Ready s c tv t) :
    exec (.chSoundoff c tv) s = finish (forOperators (fun o => soundOffEnvelope c o t) s) :=
  hready.withChecks_eq _

/-- A sound-off loop fails only by the time order. -/
theorem forOperators_soundOff_of_disorder (hdisorder : ∃ o, t.val < (s.env c o).lastTime.val) :
    forOperators (fun o => soundOffEnvelope c o t) s = .error .undefinedTimeOrder := by
  obtain ⟨o, ho⟩ := hdisorder
  cases hloop : forOperators (fun o => soundOffEnvelope c o t) s with
  | error r =>
    obtain ⟨o', v, hv⟩ := forOperators_error hloop
    rw [soundOffEnvelope_error hv]
  | ok u =>
    obtain ⟨v, v', hv, hv'⟩ := forOperators_turn
      (fun _ _ _ h => ⟨soundOffEnvelope_writesEnvelope h, (soundOffEnvelope_unanswered h).ports⟩) hloop o
    obtain ⟨horder, -⟩ := soundOffEnvelope_ok hv'
    rw [hv.env] at horder
    exact absurd ho horder.not_gt

theorem exists_forOperators_soundOff (hready : Ready s c tv t) (horder : ∀ o, (s.env c o).lastTime.val ≤ t.val) :
    ∃ u, forOperators (fun o => soundOffEnvelope c o t) s = .ok u ∧
      PerformsEach (fun _ => true) (fun o => .egSoundoff c o tv) s u ∧
      WritesEnvelopes (fun _ e e' => e' = e.soundOff t) c s u := by
  refine exists_forOperators fun o v hv => ?_
  have hv' : soundOffEnvelope c o t v = .ok _ := soundOffEnvelope_of (by rw [hv.env]; exact horder o)
  exact ⟨_, hv', soundOffEnvelope_performs (hv.ready hready) hv', soundOffEnvelope_writesEnvelope hv'⟩

/-- The loop's events are those of the four sound-offs, in order, and it takes no free value. -/
theorem performed_forOperators_soundOff (h : forOperators (fun o => soundOffEnvelope c o t) s = .ok u) :
    Performed s (u.respond .ok (.rat 0)) ((List.finRange 4).flatMap fun o => soundOffEvents c o t) := by
  obtain ⟨s1, s2, s3, h0, h1, h2, h3⟩ := forOperators_ok h
  obtain ⟨-, rfl⟩ := soundOffEnvelope_ok h0
  obtain ⟨-, rfl⟩ := soundOffEnvelope_ok h1
  obtain ⟨-, rfl⟩ := soundOffEnvelope_ok h2
  obtain ⟨-, rfl⟩ := soundOffEnvelope_ok h3
  refine ⟨⟨rfl, ?_, rfl, rfl⟩, rfl⟩
  simp [List.finRange_succ]

/-! ### CH.STOP -/

/-- The four STOPs of CH.STOP, in order (rule R186). -/
def stopOperators (c : Fin 16) (t : ExReal) (s : State) : State :=
  stopOperator c t 3 (stopOperator c t 2 (stopOperator c t 1 (stopOperator c t 0 s)))

theorem exec_chStop_of (hready : Ready s c tv t) :
    exec (.chStop c tv) s =
      .next (((stopOperators c t s).putChan c { (stopOperators c t s).chan c with stopped := true }).respond
        .ok (.rat 0)) :=
  hready.withChecks_eq _

theorem stopOperators_writesEnvelopes (c : Fin 16) (t : ExReal) (s : State) :
    WritesEnvelopes (fun _ e e' => e' = { e with silentAt := ETime.min e.silentAt (.fin t) }) c s
      (stopOperators c t s) := by
  have hone : ∀ o v, WritesEnvelope (fun e e' => e' = { e with silentAt := ETime.min e.silentAt (.fin t) }) c o v
      (stopOperator c t o v) := fun o v => ⟨_, rfl, fun _ => rfl⟩
  exact writesEnvelopes_of_four (hone ..) (hone ..) (hone ..) (hone ..)

theorem stopOperators_events (c : Fin 16) (t : ExReal) (s : State) :
    (stopOperators c t s).events =
      s.events ++ (List.finRange 4).map fun o => Event.stop c o (s.env c o).srcTag t := by
  simp [stopOperators, stopOperator, env_putEnv, List.finRange_succ]

/-- A command of a channel that exists, with its operands in range, is refused where the channel is stopped. -/
theorem withChecks_of_stopped {form : Bool} {body : ExReal → Result} (hc : Config.cfg.hasChannel c = true)
    (hform : form = true) (ht : (commandTime s.ports tv).isSome = true) (hstopped : (s.chan c).stopped = true) :
    withChecks Config.cfg c tv form s body = .refused .undefinedStopped := by
  rw [withChecks, (commonChecks_stopped ..).mpr ⟨hc, hform, ht, hstopped⟩]

end

end Sys2Proof.Machine

namespace Sys2Proof.Proofs

open Sys2Proof Sys2Proof.Machine

/-- Settles O48: the command is the loop of EG.KEYON over the enabled operators. -/
theorem channelKeyOnKeysEnabledOperators : Obligations.ChannelKeyOnKeysEnabledOperators := by
  intro s c tv tag t hready
  have hkeys := keyOnEnvelope_keysAsCommand c tv tag t
  have hexec : exec (.chKeyon c tv tag) s = finish (forOperators (keyOnIfEnabled Config.cfg c tag t) s) :=
    hready.withChecks_eq _
  rw [hexec, keyOnIfEnabled_eq]
  exact hkeys.finish_forEnabled hready

/-- Settles O49: the command is the loop of EG.KEYOFF over the enabled operators. -/
theorem channelKeyOffReleasesEnabledOperators : Obligations.ChannelKeyOffReleasesEnabledOperators := by
  intro s c tv tag t hready
  have hkeys := keyOffEnvelope_keysAsCommand c tv tag t
  have hexec : exec (.chKeyoff c tv tag) s = finish (forOperators (keyOffIfEnabled Config.cfg c tag t) s) :=
    hready.withChecks_eq _
  rw [hexec, keyOffIfEnabled_eq]
  exact hkeys.finish_forEnabled hready

/-- Settles O47: CH.DISOP is the sound-off of its operator and then one write of the operator's bit. -/
theorem lifecycleBitIsSetAndCleared : Obligations.LifecycleBitIsSetAndCleared := by
  intro s c o
  refine ⟨fun hc hstopped => ⟨_, exec_chEnop_of hc hstopped, ⟨⟨rfl, by simp [State.setEnabled], rfl, rfl⟩, rfl⟩,
      opr_putOpr_same .., onlyOperator_putOpr ..⟩,
    fun tv t => exec_chDisop_of_disorder, fun tv t hready horder => ?_⟩
  have hoff := soundOffEnvelope_of horder
  refine ⟨_, _, exec_chDisop_of hready hoff, soundOffEnvelope_performs hready hoff, ⟨⟨rfl, rfl, rfl, rfl⟩, rfl⟩, ?_⟩
  obtain ⟨henv, hopr, hcontrol⟩ := onlyEnvelope_putEnv s c o ((s.env c o).soundOff t)
  exact ⟨fun _ _ => env_putOpr .., fun c' o' hne => (env_putOpr ..).trans (henv c' o' hne),
    (opr_putOpr_same ..).trans (by rw [emit_opr, opr_putEnv]),
    fun c' o' hne => (opr_putOpr_other _ c c' o o' _ hne).trans (hopr c' o'),
    fun c' => (hcontrol c').trans (sameControl_putOpr _ c c' o _)⟩

/-- Settles O50: the command is the loop of EG.SOUNDOFF over the four operators. -/
theorem channelSoundOffSilencesAllOperators : Obligations.ChannelSoundOffSilencesAllOperators := by
  intro s c tv t hready
  rw [exec_chSoundoff_eq hready]
  refine ⟨fun hdisorder => ?_, fun horder => ?_⟩
  · rw [forOperators_soundOff_of_disorder hdisorder, finish_error]
  · obtain ⟨u, hu, hperforms, hw⟩ := exists_forOperators_soundOff hready horder
    rw [hu]
    refine ⟨_, u, finish_ok u, hperforms, rfl, performed_forOperators_soundOff hu, fun o => ?_, hw.opr, hw.onlyChannel,
      hw.sameControl⟩
    rw [respond_env, hw.env o]
    exact ⟨rfl, rfl⟩

/-- Settles O51: the four STOPs write one register of each envelope, and the bit is then set. -/
theorem channelStopTearsDown : Obligations.ChannelStopTearsDown := by
  intro s c tv t hready
  have hw := stopOperators_writesEnvelopes c t s
  obtain ⟨hg, hout, halg, halg2, hfb, hpan, -, hlast⟩ := hw.sameControl
  refine ⟨_, exec_chStop_of hready, ⟨⟨rfl, stopOperators_events c t s, rfl, rfl⟩, rfl⟩, fun o => ?_, ?_⟩
  · refine ⟨ETime.min (s.env c o).silentAt (.fin t), ?_, by simp⟩
    rw [respond_env, State.env, chan_putChan_same]
    exact hw.env o
  · rw [respond_chan, chan_putChan_same]
    refine ⟨rfl, hw.oprs, hg, hout, halg, halg2, hfb, hpan, hlast, fun c' hne => ?_, fun tv' ht => ?_⟩
    · exact (chan_putChan_other _ c c' _ hne).trans (hw.onlyChannel c' hne)
    · exact withChecks_of_stopped hready.1 rfl ht (by simp)

end Sys2Proof.Proofs
end

section
/-!
LEMMAS. Locality of the commands (rule R189): a command run side by side on two states that agree on its channel does
the same to both, and what it writes and emits lies on that channel.
-/

namespace Sys2Proof.Machine

open Sys2Proof

/-! ### The channel of an event -/

section

variable {c : Fin 16} {o : Fin 4} {t : ExReal} {e : Envelope} {ev : Event}

theorem Event.chan_of_param {p : Param} (h : ev.param = some p) : ev.chan = p.chan := by
  cases ev with
  | stop c o tag t => cases h
  | _ => cases h; rfl

@[simp] theorem methodEvent_chan (m : Method) (p : Param) (v t : ExReal) : (methodEvent m p v t).chan = p.chan :=
  Event.chan_of_param (methodEvent_param ..)

theorem stopEvents_chan {tag : BitVec 8} {x : ETime} (h : ev ∈ stopEvents c o tag x) : ev.chan = c := by
  cases x with
  | inf => cases h
  | fin x => rw [List.mem_singleton.mp h]; rfl

/-- An event on no parameter is one of the STOPs of its key-on. -/
theorem keyOnEvents_chan {cfg : Cfg} {free : Nat} (h : ev ∈ keyOnEvents cfg c o t free e) : ev.chan = c := by
  cases hparam : ev.param with
  | some p =>
    rw [Event.chan_of_param hparam, keyOnEvents_param ev h p hparam]
    rfl
  | none =>
    simp only [keyOnEvents, List.mem_append, List.mem_cons, List.not_mem_nil, or_false] at h
    obtain (((rfl | rfl) | h) | h) | h := h
    · cases hparam
    · cases hparam
    · cases (attackEvents_param h).symm.trans hparam
    · cases (afterAttackEvents_param h).symm.trans hparam
    · exact stopEvents_chan h

theorem keyOffEvents_chan (h : ev ∈ keyOffEvents c o t e) : ev.chan = c := by
  cases hparam : ev.param with
  | some p =>
    rw [Event.chan_of_param hparam, keyOffEvents_param ev h p hparam]
    rfl
  | none =>
    simp only [keyOffEvents, List.mem_append, List.mem_cons, List.not_mem_nil, or_false] at h
    obtain ((rfl | rfl) | h) | h := h
    · cases hparam
    · cases hparam
    · split at h
      · split at h
        · rw [List.mem_singleton.mp h] at hparam; cases hparam
        · cases h
      · cases h
    · exact stopEvents_chan h

theorem soundOffEvents_chan (h : ev ∈ soundOffEvents c o t) : ev.chan = c := by
  simp only [soundOffEvents, List.mem_cons, List.not_mem_nil, or_false] at h
  obtain rfl | rfl := h <;> rfl

end

/-! ### Two runs side by side -/

/-- From `s₀` to `s` and from `u₀` to `u` the same has been done to channel c, which is now the same in both: the same
events have been emitted, all on the channel, and the same answers given. The first run has left the other channels
alone. -/
structure Lockstep (c : Fin 16) (s₀ u₀ s u : State) : Prop where
  chan : s.chan c = u.chan c
  freeCount : s.freeCount c = u.freeCount c
  ports : s.ports = u.ports
  others : ∀ c', c' ≠ c → s.chan c' = s₀.chan c' ∧ s.freeCount c' = s₀.freeCount c'
  events : ∃ evs, (∀ ev ∈ evs, ev.chan = c) ∧ s.events = s₀.events ++ evs ∧ u.events = u₀.events ++ evs
  responses : ∃ rs, s.responses = s₀.responses ++ rs ∧ u.responses = u₀.responses ++ rs

/-- Two operations that may have no outcome: both have one, and `R` holds of the outcomes, or both are refused alike. -/
inductive BothOk (R : State → State → Prop) : Except Refusal State → Except Refusal State → Prop
  | ok {s u : State} (h : R s u) : BothOk R (.ok s) (.ok u)
  | error (r : Refusal) : BothOk R (.error r) (.error r)

/-- Two results: both are next states of which `R` holds, or both are refused alike. -/
inductive BothNext (R : State → State → Prop) : Result → Result → Prop
  | next {s u : State} (h : R s u) : BothNext R (.next s) (.next u)
  | refused (r : Refusal) : BothNext R (.refused r) (.refused r)

section

variable {R : State → State → Prop} {a b : Except Refusal State}

theorem BothOk.bind (h : BothOk R a b) {f : State → Except Refusal State}
    (hf : ∀ s u, R s u → BothOk R (f s) (f u)) : BothOk R (a >>= f) (b >>= f) := by
  cases h with
  | ok h => exact hf _ _ h
  | error r => exact .error r

theorem BothOk.map (h : BothOk R a b) {f : State → State} (hf : ∀ s u, R s u → R (f s) (f u)) :
    BothOk R (a.map f) (b.map f) := by
  cases h with
  | ok h => exact .ok (hf _ _ h)
  | error r => exact .error r

/-- A loop of operations that run side by side runs side by side. -/
theorem bothOk_forOperators {f : Fin 4 → State → Except Refusal State}
    (hf : ∀ o s u, R s u → BothOk R (f o s) (f o u)) {s u : State} (h : R s u) :
    BothOk R (forOperators f s) (forOperators f u) := by
  unfold forOperators
  induction [(0 : Fin 4), 1, 2, 3] generalizing s u with
  | nil => exact .ok h
  | cons o l ih =>
    simp only [List.foldlM_cons]
    exact (hf o s u h).bind fun _ _ => ih

end

namespace Lockstep

variable {c : Fin 16} {o : Fin 4} {tv form : Bool} {t : ExReal} {s₀ u₀ s u : State}

theorem start (hchan : s.chan c = u.chan c) (hfree : s.freeCount c = u.freeCount c) (hports : s.ports = u.ports) :
    Lockstep c s u s u :=
  ⟨hchan, hfree, hports, fun _ _ => ⟨rfl, rfl⟩, ⟨[], by simp⟩, ⟨[], by simp⟩⟩

theorem env (h : Lockstep c s₀ u₀ s u) (o : Fin 4) : s.env c o = u.env c o := by
  rw [State.env, h.chan, State.env]

theorem opr (h : Lockstep c s₀ u₀ s u) (o : Fin 4) : s.opr c o = u.opr c o := by
  rw [State.opr, h.chan, State.opr]

theorem putChan (h : Lockstep c s₀ u₀ s u) (ch : Channel) : Lockstep c s₀ u₀ (s.putChan c ch) (u.putChan c ch) :=
  { h with
    chan := by rw [chan_putChan_same, chan_putChan_same]
    others := fun c' hne => by rw [chan_putChan_other _ _ _ _ hne, putChan_freeCount]; exact h.others c' hne }

theorem putEnv (h : Lockstep c s₀ u₀ s u) (o : Fin 4) (e : Envelope) :
    Lockstep c s₀ u₀ (s.putEnv c o e) (u.putEnv c o e) := by
  rw [State.putEnv, State.putEnv, h.chan]
  exact h.putChan _

theorem putOpr (h : Lockstep c s₀ u₀ s u) (o : Fin 4) (q : Operator) :
    Lockstep c s₀ u₀ (s.putOpr c o q) (u.putOpr c o q) := by
  rw [State.putOpr, State.putOpr, h.chan]
  exact h.putChan _

theorem setEnabled (h : Lockstep c s₀ u₀ s u) (o : Fin 4) (b : Bool) :
    Lockstep c s₀ u₀ (s.setEnabled c o b) (u.setEnabled c o b) := by
  rw [State.setEnabled, State.setEnabled, h.opr]
  exact h.putOpr ..

theorem useFree (h : Lockstep c s₀ u₀ s u) : Lockstep c s₀ u₀ (s.useFree c) (u.useFree c) :=
  { h with
    freeCount := by rw [useFree_freeCount, useFree_freeCount, if_pos rfl, if_pos rfl, h.freeCount]
    others := fun c' hne => by rw [useFree_freeCount, if_neg hne]; exact h.others c' hne }

theorem emit (h : Lockstep c s₀ u₀ s u) {evs : List Event} (hevs : ∀ ev ∈ evs, ev.chan = c) :
    Lockstep c s₀ u₀ (s.emit evs) (u.emit evs) := by
  obtain ⟨before, hbefore, hs, hu⟩ := h.events
  refine { h with events := ⟨before ++ evs, fun ev hev => ?_, ?_, ?_⟩ }
  · exact (List.mem_append.mp hev).elim (hbefore ev) (hevs ev)
  · rw [emit_events, hs, List.append_assoc]
  · rw [emit_events, hu, List.append_assoc]

theorem respond (h : Lockstep c s₀ u₀ s u) (st : Status) (v : ExReal) :
    Lockstep c s₀ u₀ (s.respond st v) (u.respond st v) := by
  obtain ⟨before, hs, hu⟩ := h.responses
  refine { h with responses := ⟨before ++ [⟨st, v⟩], ?_, ?_⟩ }
  · rw [respond_responses, hs, List.append_assoc]
  · rw [respond_responses, hu, List.append_assoc]

/-! ### The keying operations -/

theorem keyOnEnvelope (h : Lockstep c s₀ u₀ s u) (cfg : Cfg) (tag : BitVec 8) (kc : BitVec 5) :
    BothOk (Lockstep c s₀ u₀) (keyOnEnvelope cfg c o tag kc t s) (keyOnEnvelope cfg c o tag kc t u) := by
  simp only [Machine.keyOnEnvelope, h.env, h.freeCount]
  split
  · split
    · exact .error _
    · have hkeyed := fun e => (h.putEnv o e).emit fun ev (hev : ev ∈ keyOnEvents cfg c o t (u.freeCount c) e) =>
        keyOnEvents_chan hev
      split
      · exact .ok (hkeyed _).useFree
      · exact .ok (hkeyed _)
  · exact .error _

theorem keyOffEnvelope (h : Lockstep c s₀ u₀ s u) (cfg : Cfg) (tag : BitVec 8) (kc : BitVec 5) :
    BothOk (Lockstep c s₀ u₀) (keyOffEnvelope cfg c o tag kc t s) (keyOffEnvelope cfg c o tag kc t u) := by
  simp only [Machine.keyOffEnvelope, h.env]
  split
  · split
    · exact .error _
    · exact .ok ((h.putEnv ..).emit fun _ => keyOffEvents_chan)
  · exact .error _

theorem soundOffEnvelope (h : Lockstep c s₀ u₀ s u) :
    BothOk (Lockstep c s₀ u₀) (soundOffEnvelope c o t s) (soundOffEnvelope c o t u) := by
  simp only [Machine.soundOffEnvelope, h.env]
  split
  · exact .ok ((h.putEnv ..).emit fun _ => soundOffEvents_chan)
  · exact .error _

theorem keyOnIfEnabled (h : Lockstep c s₀ u₀ s u) (cfg : Cfg) (tag : BitVec 8) :
    BothOk (Lockstep c s₀ u₀) (keyOnIfEnabled cfg c tag t o s) (keyOnIfEnabled cfg c tag t o u) := by
  simp only [Machine.keyOnIfEnabled, h.opr]
  split
  · exact h.keyOnEnvelope ..
  · exact .ok h

theorem keyOffIfEnabled (h : Lockstep c s₀ u₀ s u) (cfg : Cfg) (tag : BitVec 8) :
    BothOk (Lockstep c s₀ u₀) (keyOffIfEnabled cfg c tag t o s) (keyOffIfEnabled cfg c tag t o u) := by
  simp only [Machine.keyOffIfEnabled, h.opr]
  split
  · exact h.keyOffEnvelope ..
  · exact .ok h

theorem stopOperator (h : Lockstep c s₀ u₀ s u) (o : Fin 4) :
    Lockstep c s₀ u₀ (stopOperator c t o s) (stopOperator c t o u) := by
  simp only [Machine.stopOperator, h.env]
  exact (h.putEnv ..).emit fun ev hev => by rw [List.mem_singleton.mp hev]; rfl

/-! ### The commands -/

theorem answer (h : Lockstep c s₀ u₀ s u) (st : Status) (v : ExReal) :
    BothNext (Lockstep c s₀ u₀) (.next (s.respond st v)) (.next (u.respond st v)) :=
  .next (h.respond st v)

theorem bothNext_finish {a b : Except Refusal State} (h : BothOk (Lockstep c s₀ u₀) a b) :
    BothNext (Lockstep c s₀ u₀) (finish a) (finish b) := by
  cases h with
  | ok h => exact h.answer ..
  | error r => exact .refused r

/-- The checks read the ports and the channel's bit `stopped` (rule R203). -/
theorem withChecks (h : Lockstep c s₀ u₀ s u) (cfg : Cfg) {a b : ExReal → Result}
    (hbody : ∀ t, BothNext (Lockstep c s₀ u₀) (a t) (b t)) :
    BothNext (Lockstep c s₀ u₀) (withChecks cfg c tv form s a) (withChecks cfg c tv form u b) := by
  have hchecks : commonChecks cfg c tv form s = commonChecks cfg c tv form u := by
    rw [commonChecks, h.ports, h.chan, commonChecks]
  rw [Machine.withChecks, Machine.withChecks, hchecks]
  cases commonChecks cfg c tv form u with
  | illegal => exact h.answer ..
  | stopped => exact .refused _
  | time t => exact hbody t

theorem setEnvelope (h : Lockstep c s₀ u₀ s u) (cfg : Cfg) (f : Envelope → Envelope) :
    BothNext (Lockstep c s₀ u₀) (setEnvelope cfg c o f s) (setEnvelope cfg c o f u) :=
  h.withChecks cfg fun _ => by
    rw [h.env]
    exact (h.putEnv ..).answer ..

theorem egKeyon (h : Lockstep c s₀ u₀ s u) (cfg : Cfg) (tag : BitVec 8) (kc : BitVec 5) :
    BothNext (Lockstep c s₀ u₀) (egKeyon cfg c o tv tag kc s) (egKeyon cfg c o tv tag kc u) :=
  h.withChecks cfg fun _ => bothNext_finish (h.keyOnEnvelope cfg tag kc)

theorem egKeyoff (h : Lockstep c s₀ u₀ s u) (cfg : Cfg) (tag : BitVec 8) (kc : BitVec 5) :
    BothNext (Lockstep c s₀ u₀) (egKeyoff cfg c o tv tag kc s) (egKeyoff cfg c o tv tag kc u) :=
  h.withChecks cfg fun _ => bothNext_finish (h.keyOffEnvelope cfg tag kc)

theorem egLevel (h : Lockstep c s₀ u₀ s u) (cfg : Cfg) :
    BothNext (Lockstep c s₀ u₀) (egLevel cfg c o tv s) (egLevel cfg c o tv u) :=
  h.withChecks cfg fun t => by
    rw [h.env]
    cases (u.env c o).level cfg t with
    | some v => exact h.answer ..
    | none => exact .refused _

theorem opSetfreq (h : Lockstep c s₀ u₀ s u) (cfg : Cfg) (m : Method) (block : BitVec 3) (fn : BitVec 11) :
    BothNext (Lockstep c s₀ u₀) (opSetfreq cfg c o tv m block fn s) (opSetfreq cfg c o tv m block fn u) :=
  h.withChecks cfg fun t => by
    rw [h.ports, h.opr]
    cases u.ports.ratio with
    | none => exact h.answer ..
    | some mult =>
      simp only
      split
      · exact ((h.putOpr ..).emit (by simp [Param.chan])).answer ..
      · exact .refused _

theorem execOpSetdt (h : Lockstep c s₀ u₀ s u) (sign : Bool) (mag : BitVec 2) :
    BothNext (Lockstep c s₀ u₀) (execOpSetdt c o sign mag s) (execOpSetdt c o sign mag u) :=
  h.withChecks Config.cfg fun _ => by
    rw [h.opr]
    exact (h.putOpr ..).answer ..

theorem execOpKeyon (h : Lockstep c s₀ u₀ s u) (tag : BitVec 8) :
    BothNext (Lockstep c s₀ u₀) (execOpKeyon c o tv tag s) (execOpKeyon c o tv tag u) := by
  rw [Machine.execOpKeyon, h.opr, Machine.execOpKeyon]
  exact h.egKeyon ..

theorem execOpKeyoff (h : Lockstep c s₀ u₀ s u) (tag : BitVec 8) :
    BothNext (Lockstep c s₀ u₀) (execOpKeyoff c o tv tag s) (execOpKeyoff c o tv tag u) := by
  rw [Machine.execOpKeyoff, h.opr, Machine.execOpKeyoff]
  exact h.egKeyoff ..

theorem routed (h : Lockstep c s₀ u₀ s u) {ch : Channel} {evs : List Event} (hevs : ∀ ev ∈ evs, ev.chan = c) :
    BothNext (Lockstep c s₀ u₀) (routed s c t ch evs) (routed u c t ch evs) := by
  rw [Machine.routed, h.chan, Machine.routed]
  split
  · exact ((h.putChan ch).emit hevs).answer ..
  · exact .refused _

theorem useTwoOperators (h : Lockstep c s₀ u₀ s u) (cfg : Cfg) (v : Fin 2) (n : BitVec 4) :
    BothNext (Lockstep c s₀ u₀) (useTwoOperators cfg c v n t s) (useTwoOperators cfg c v n t u) := by
  rw [Machine.useTwoOperators, h.chan, Machine.useTwoOperators]
  exact h.routed (by simp [alg2Events, Event.chan, Param.chan])

theorem chUsealg (h : Lockstep c s₀ u₀ s u) (cfg : Cfg) (view : View) (n : BitVec 4) :
    BothNext (Lockstep c s₀ u₀) (chUsealg cfg c tv view n s) (chUsealg cfg c tv view n u) :=
  h.withChecks cfg fun t => by
    cases view with
    | four =>
      rw [h.chan]
      exact h.routed (by simp [alg4Events, Event.chan, Param.chan])
    | two0 => exact h.useTwoOperators ..
    | two1 => exact h.useTwoOperators ..

theorem chSetfb (h : Lockstep c s₀ u₀ s u) (cfg : Cfg) (m : Method) (amount : BitVec 3) :
    BothNext (Lockstep c s₀ u₀) (chSetfb cfg c o tv m amount s) (chSetfb cfg c o tv m amount u) :=
  h.withChecks cfg fun t => by
    cases feedbackSlot o with
    | none => exact .refused _
    | some k =>
      rw [h.chan]
      exact h.routed (by simp [Param.chan])

theorem execChSetpan (h : Lockstep c s₀ u₀ s u) (m : Method) (p : BitVec 8) :
    BothNext (Lockstep c s₀ u₀) (execChSetpan c tv m p s) (execChSetpan c tv m p u) :=
  h.withChecks Config.cfg fun t => by
    rw [h.chan]
    exact h.routed (by simp [Param.chan])

theorem execChDisop (h : Lockstep c s₀ u₀ s u) :
    BothNext (Lockstep c s₀ u₀) (execChDisop c o tv s) (execChDisop c o tv u) :=
  h.withChecks Config.cfg fun _ => bothNext_finish (h.soundOffEnvelope.map fun _ _ h => h.setEnabled o false)

theorem execChStop (h : Lockstep c s₀ u₀ s u) : BothNext (Lockstep c s₀ u₀) (execChStop c tv s) (execChStop c tv u) :=
  h.withChecks Config.cfg fun t => by
    have hstopped := (((h.stopOperator (t := t) 0).stopOperator (t := t) 1).stopOperator (t := t) 2).stopOperator
      (t := t) 3
    simp only [hstopped.chan]
    exact (hstopped.putChan _).answer ..

end Lockstep

/-- Every command reads and writes its own channel only (rule R189): run on two states in lockstep it keeps them so. -/
theorem exec_lockstep (i : Instr) {s₀ u₀ s u : State} (h : Lockstep i.chan s₀ u₀ s u) :
    BothNext (Lockstep i.chan s₀ u₀) (exec i s) (exec i u) := by
  cases i with
  | egSetar c o rate => exact h.setEnvelope Config.cfg fun e => { e with attackRate := rate }
  | egSetdr c o rate => exact h.setEnvelope Config.cfg fun e => { e with decayRate := rate }
  | egSetsl c o level => exact h.setEnvelope Config.cfg fun e => { e with sustainLevel := level }
  | egSetsr c o rate => exact h.setEnvelope Config.cfg fun e => { e with sustainRate := rate }
  | egSetrr c o rate => exact h.setEnvelope Config.cfg fun e => { e with releaseRate := rate }
  | egSetrs c o scaling => exact h.setEnvelope Config.cfg fun e => { e with rateScaling := scaling }
  | egSetssg c o mode => exact h.setEnvelope Config.cfg (·.setMode (modeFlags Config.cfg mode))
  | egKeyon c o tv tag kc => exact h.egKeyon Config.cfg tag kc
  | egKeyoff c o tv tag kc => exact h.egKeyoff Config.cfg tag kc
  | egSoundoff c o tv => exact h.withChecks Config.cfg fun _ => Lockstep.bothNext_finish h.soundOffEnvelope
  | egLevel c o tv => exact h.egLevel Config.cfg
  | opSetfreq c o tv m block fn => exact h.opSetfreq Config.cfg m block fn
  | opSetdt c o sign mag => exact h.execOpSetdt sign mag
  | opKeyon c o tv tag => exact h.execOpKeyon tag
  | opKeyoff c o tv tag => exact h.execOpKeyoff tag
  | chUsealg c tv view n => exact h.chUsealg Config.cfg view n
  | chSetfb c o tv m amount => exact h.chSetfb Config.cfg m amount
  | chSetpan c tv m p => exact h.execChSetpan m p
  | chEnop c o => exact h.withChecks Config.cfg fun _ => (h.setEnabled o true).answer ..
  | chDisop c o tv => exact h.execChDisop
  | chKeyon c tv tag =>
    exact h.withChecks Config.cfg fun _ => Lockstep.bothNext_finish
      (bothOk_forOperators (fun _ _ _ h => h.keyOnIfEnabled Config.cfg tag) h)
  | chKeyoff c tv tag =>
    exact h.withChecks Config.cfg fun _ => Lockstep.bothNext_finish
      (bothOk_forOperators (fun _ _ _ h => h.keyOffIfEnabled Config.cfg tag) h)
  | chSoundoff c tv =>
    exact h.withChecks Config.cfg fun _ => Lockstep.bothNext_finish
      (bothOk_forOperators (fun _ _ _ h => h.soundOffEnvelope) h)
  | chStop c tv => exact h.execChStop

/-- A command that has a next state goes on alike in every state that agrees with its own on channel and ports. -/
theorem exists_exec_lockstep {i : Instr} {s u s' : State} (hchan : s.chan i.chan = u.chan i.chan)
    (hfree : s.freeCount i.chan = u.freeCount i.chan) (hports : s.ports = u.ports) (h : exec i s = .next s') :
    ∃ u', exec i u = .next u' ∧ Lockstep i.chan s u s' u' := by
  have hboth := exec_lockstep i (.start hchan hfree hports)
  rw [h] at hboth
  generalize exec i u = r at hboth ⊢
  cases hboth with
  | next hlock => exact ⟨_, rfl, hlock⟩

/-- What a command that has a next state leaves alone: it runs in lockstep with itself. -/
theorem exec_lockstep_self {i : Instr} {s s' : State} (h : exec i s = .next s') : Lockstep i.chan s s s' s' := by
  obtain ⟨u', hu', hlock⟩ := exists_exec_lockstep rfl rfl rfl h
  obtain rfl := Host.Outcome.next.inj (h.symm.trans hu')
  exact hlock

/-! ### Two commands on different channels -/

section

variable {i j : Instr} {p q : Ports} {s s1 s2 u1 u2 : State}

/-- The second of two commands on different channels finds its channel as the first found it, and does as it would have
done first. -/
theorem exec_after_other (hij : i.chan ≠ j.chan) (hi : exec i { s with ports := p } = .next s1)
    (hj : exec j { s1 with ports := q } = .next s2) (hu : exec j { s with ports := q } = .next u1) :
    Lockstep j.chan { s with ports := q } { s1 with ports := q } u1 s2 := by
  obtain ⟨hchan, hfree⟩ := (exec_lockstep_self hi).others j.chan hij.symm
  obtain ⟨s2', hs2', hlock⟩ :=
    exists_exec_lockstep (s := { s with ports := q }) (u := { s1 with ports := q }) hchan.symm hfree.symm rfl hu
  obtain rfl := Host.Outcome.next.inj (hj.symm.trans hs2')
  exact hlock

/-- In either order the two commands leave the same channel k. -/
theorem chan_eq_of_commuted (hij : i.chan ≠ j.chan) (hi : exec i { s with ports := p } = .next s1)
    (hj : exec j { s1 with ports := q } = .next s2) (hu : exec j { s with ports := q } = .next u1)
    (hu' : exec i { u1 with ports := p } = .next u2) (k : Fin 16) :
    s2.chan k = u2.chan k ∧ s2.freeCount k = u2.freeCount k := by
  have hfirst := (exec_lockstep_self hi).others
  have hsecond := (exec_lockstep_self hj).others
  have hfirst' := (exec_lockstep_self hu).others
  have hsecond' := (exec_lockstep_self hu').others
  by_cases hkj : k = j.chan
  · subst hkj
    have hlock := exec_after_other hij hi hj hu
    obtain ⟨hchan, hfree⟩ := hsecond' j.chan hij.symm
    exact ⟨hlock.chan.symm.trans hchan.symm, hlock.freeCount.symm.trans hfree.symm⟩
  · obtain ⟨hchan, hfree⟩ := hsecond k hkj
    rw [hchan, hfree]
    by_cases hki : k = i.chan
    · subst hki
      have hlock := exec_after_other hij.symm hu hu' hi
      exact ⟨hlock.chan, hlock.freeCount⟩
    · obtain ⟨hchan1, hfree1⟩ := hfirst k hki
      obtain ⟨hchan2, hfree2⟩ := hfirst' k hkj
      obtain ⟨hchan3, hfree3⟩ := hsecond' k hki
      exact ⟨hchan1.trans (hchan3.trans hchan2).symm, hfree1.trans (hfree3.trans hfree2).symm⟩

theorem filter_chan_eq_nil {evs : List Event} {a c : Fin 16} (hevs : ∀ ev ∈ evs, ev.chan = a) (hne : a ≠ c) :
    evs.filter (fun ev => ev.chan = c) = [] := by
  refine List.filter_eq_nil_iff.mpr fun ev hev => ?_
  rw [hevs ev hev]
  simpa using hne

/-- Events of two channels in either order are the same on every channel. -/
theorem filter_chan_append_comm {xs ys : List Event} {a b : Fin 16} (hab : a ≠ b) (hxs : ∀ ev ∈ xs, ev.chan = a)
    (hys : ∀ ev ∈ ys, ev.chan = b) (c : Fin 16) :
    (xs ++ ys).filter (fun ev => ev.chan = c) = (ys ++ xs).filter (fun ev => ev.chan = c) := by
  rw [List.filter_append, List.filter_append]
  by_cases hac : a = c
  · rw [filter_chan_eq_nil hys (hac ▸ hab.symm), List.append_nil, List.nil_append]
  · rw [filter_chan_eq_nil hxs hac, List.append_nil, List.nil_append]

/-- In either order the two commands add the same events to each channel's stream. -/
theorem newEvents_eq_of_commuted (hij : i.chan ≠ j.chan) (hi : exec i { s with ports := p } = .next s1)
    (hj : exec j { s1 with ports := q } = .next s2) (hu : exec j { s with ports := q } = .next u1)
    (hu' : exec i { u1 with ports := p } = .next u2) (c : Fin 16) :
    (newEvents s s2).filter (fun ev => ev.chan = c) = (newEvents s u2).filter (fun ev => ev.chan = c) := by
  obtain ⟨ys, hys, hu1, hs2⟩ := (exec_after_other hij hi hj hu).events
  obtain ⟨xs, hxs, hs1, hu2⟩ := (exec_after_other hij.symm hu hu' hi).events
  have hs : newEvents s s2 = xs ++ ys := newEvents_of_append (by rw [hs2, hs1, List.append_assoc])
  have hu : newEvents s u2 = ys ++ xs := newEvents_of_append (by rw [hu2, hu1, List.append_assoc])
  rw [hs, hu]
  exact filter_chan_append_comm hij hxs hys c

end

end Sys2Proof.Machine

namespace Sys2Proof.Proofs

open Sys2Proof Sys2Proof.Machine

/-- Settles O52: a command runs in lockstep with itself, which leaves the other channels alone. -/
theorem commandWritesOnlyItsChannel : Obligations.CommandWritesOnlyItsChannel := by
  intro i s s' h
  have hlock := exec_lockstep_self h
  obtain ⟨evs, hevs, happend, -⟩ := hlock.events
  exact ⟨fun c hne => (hlock.others c hne).1, fun c hne => (hlock.others c hne).2, evs, happend, hevs⟩

/-- Settles O53: two states that agree on the channel and the ports are the start of a lockstep. -/
theorem commandReadsOnlyItsChannel : Obligations.CommandReadsOnlyItsChannel := by
  intro i s u s' hchan hfree hports h
  obtain ⟨u', hu', hlock⟩ := exists_exec_lockstep hchan hfree hports h
  obtain ⟨evs, -, hs, hu⟩ := hlock.events
  obtain ⟨rs, hrs, hru⟩ := hlock.responses
  refine ⟨u', hu', hlock.chan.symm, hlock.freeCount.symm, ?_, ?_⟩
  · rw [newEvents_of_append hs, newEvents_of_append hu]
  · rw [hrs, hru, List.drop_left, List.drop_left]

/-- Settles O54: each command does after the other what it does before it, and neither touches the other's channel. -/
theorem differentChannelsCommute : Obligations.DifferentChannelsCommute := by
  intro i j p q s s1 s2 u1 u2 hij hi hj hu hu'
  have hchan := chan_eq_of_commuted hij hi hj hu hu'
  exact ⟨Vector.ext fun k hk => (hchan ⟨k, hk⟩).1, Vector.ext fun k hk => (hchan ⟨k, hk⟩).2,
    newEvents_eq_of_commuted hij hi hj hu hu'⟩

end Sys2Proof.Proofs
end

section
/-!
LEMMAS. What the order of a command's checks (rule R203) gives: the level that a command samples after its time check, and
OP.SETFREQ's missing operand (rule R201), which comes before it.
-/

namespace Sys2Proof.Machine

open Sys2Proof

/-- A time at or after `lastTime` is at or after `beginAttack`, so it is not before the current note (rule R203 (7)). -/
theorem Envelope.Inv.exists_level {e : Envelope} (he : e.Inv) (cfg : Cfg) {t : ExReal} (horder : e.lastTime.val ≤ t.val) :
    ∃ x, e.level cfg t = some x := by
  refine Option.ne_none_iff_exists'.mp fun hnone => ?_
  obtain ⟨-, -, hbefore⟩ := level_eq_none_iff.mp hnone
  exact absurd hbefore (not_lt.mpr (he.attack_past.trans horder))

end Sys2Proof.Machine

namespace Sys2Proof.Proofs

open Sys2Proof Sys2Proof.Machine

/-- Settles O11: without a ratio the command only adds its response, whatever the operator's last time. -/
theorem missingRatioAnswersMissingOperand : Obligations.MissingRatioAnswersMissingOperand := by
  intro s c o tv m block fn t hready hratio
  have hanswered : Answered s (s.respond .missingOperand (.rat 0)) .missingOperand (.rat 0) [] :=
    ⟨rfl, (List.append_nil _).symm, rfl, rfl⟩
  exact ⟨_, exec_opSetfreq_of_no_ratio hready hratio m block fn, hanswered, rfl, rfl, commandTime_now s.ports⟩

/-- Settles O31: every envelope of a state with the invariant has a level at a time in its order. -/
theorem levelIsDefinedInTimeOrder : Obligations.LevelIsDefinedInTimeOrder :=
  fun _ c o _ hs horder => (hs.env c o).exists_level Config.cfg horder

end Sys2Proof.Proofs
end

section
/-!
LEMMAS. The state after reset (rules R220, R221): a state whose channels are those after reset holds every reset value of
the table of rule R34.
-/

namespace Sys2Proof.Machine

open Sys2Proof

theorem holdsResetValues_reset : HoldsResetValues State.reset := by
  intro c
  rw [chan_reset]
  refine ⟨fun o => ?_, rfl, rfl, rfl, rfl, rfl, rfl, rfl, rfl⟩
  rw [env_reset, opr_reset]
  exact ⟨rfl, rfl⟩

/-- The reset values are of the channels alone. -/
theorem HoldsResetValues.of_chans {s s' : State} (h : HoldsResetValues s) (hchans : s'.chans = s.chans) :
    HoldsResetValues s' := by
  have hchan : ∀ c, s'.chan c = s.chan c := fun c => by rw [State.chan, State.chan, hchans]
  intro c
  simp only [State.env, State.opr, hchan]
  exact h c

/-- After reset every envelope is idle and every operator disabled (rules R130 (a), R190). -/
theorem level_life_reset (c : Fin 16) (o : Fin 4) (t : ExReal) :
    State.reset.level c o t = some (.rat 0) ∧ State.reset.life c o t = .disabled := by
  rw [State.level, State.life, env_reset, opr_reset]
  exact ⟨rfl, rfl⟩

end Sys2Proof.Machine

namespace Sys2Proof.Proofs

open Sys2Proof Sys2Proof.Machine

/-- Settles O7: every register of every channel is at its reset value, and the levels and lives are read from these. -/
theorem resetStateReads : Obligations.ResetStateReads := by
  refine ⟨level_life_reset, fun c => ?_, fun c o => ?_, fun c o => ?_, holdsResetValues_reset, rfl⟩
  · rw [chan_reset]
    exact ⟨rfl, rfl, rfl, rfl⟩
  · rw [opr_reset]
    exact ⟨rfl, rfl, rfl, rfl, rfl⟩
  · rw [env_reset]
    exact ⟨rfl, rfl, rfl, rfl, rfl, rfl, rfl, rfl, rfl, rfl, rfl, rfl⟩

/-- Settles O8: the step on the reset input leaves the channels of the state after reset. -/
theorem resetInputRestoresEveryRegister : Obligations.ResetInputRestoresEveryRegister :=
  fun _ _ hinputs => ⟨_, step_of_reset hinputs, holdsResetValues_reset.of_chans rfl, rfl, rfl, rfl, rfl, rfl⟩

end Sys2Proof.Proofs
end

section
/-!
LEMMAS. What makes a command UNDEFINED in every state with the invariant: a stopped channel (rule R231) and a time before
the last-time register that guards it (rule R226), in a loop over the operators too.
-/

namespace Sys2Proof.Machine

open Sys2Proof

/-! ### A stopped channel -/

/-- No write clears `stopped` (rule R231). -/
theorem ControlWrite.keeps_stopped {i : Instr} {c : Fin 16} {ch ch' : Channel} (h : ControlWrite i c ch ch')
    (hstopped : ch.stopped = true) : ch'.stopped = true := by
  cases h with
  | stop => rfl
  | _ => exact hstopped

/-- No command clears `stopped`. -/
theorem exec_keeps_stopped {i : Instr} {s s' : State} (h : exec i s = .next s') (c : Fin 16)
    (hstopped : (s.chan c).stopped = true) : (s'.chan c).stopped = true := by
  obtain ⟨ch, hwrite, hsame⟩ := (exec_writes h c).control
  obtain ⟨-, -, -, -, -, -, heq, -⟩ := hsame
  rw [heq]
  exact hwrite.keeps_stopped hstopped

section

variable {c : Fin 16} {o : Fin 4} {tv : Bool} {tag : BitVec 8} {kc : BitVec 5} {t : ExReal} {s u v : State}

/-! ### The keying of one envelope -/

theorem keyOnEnvelope_of_disorder (hdisorder : t.val < (s.env c o).lastTime.val) :
    keyOnEnvelope Config.cfg c o tag kc t s = .error .undefinedTimeOrder := by
  simp only [keyOnEnvelope, timeOrdered_iff, hdisorder.not_ge, if_false]

theorem keyOffEnvelope_of_disorder (hdisorder : t.val < (s.env c o).lastTime.val) :
    keyOffEnvelope Config.cfg c o tag kc t s = .error .undefinedTimeOrder := by
  simp only [keyOffEnvelope, timeOrdered_iff, hdisorder.not_ge, if_false]

theorem exec_egKeyon_of_disorder (hready : Ready s c tv t) (hdisorder : t.val < (s.env c o).lastTime.val) :
    exec (.egKeyon c o tv tag kc) s = .refused .undefinedTimeOrder := by
  refine (hready.withChecks_eq _).trans ?_
  rw [keyOnEnvelope_of_disorder hdisorder, finish_error]

theorem exec_egKeyoff_of_disorder (hready : Ready s c tv t) (hdisorder : t.val < (s.env c o).lastTime.val) :
    exec (.egKeyoff c o tv tag kc) s = .refused .undefinedTimeOrder := by
  refine (hready.withChecks_eq _).trans ?_
  rw [keyOffEnvelope_of_disorder hdisorder, finish_error]

theorem exec_egSoundoff_of_disorder (hready : Ready s c tv t) (hdisorder : t.val < (s.env c o).lastTime.val) :
    exec (.egSoundoff c o tv) s = .refused .undefinedTimeOrder := by
  refine (hready.withChecks_eq _).trans ?_
  rw [soundOffEnvelope_of_disorder hdisorder, finish_error]

/-! ### The loop over the operators -/

/-- A loop that fails does so in the turn of one operator, which still holds what it held at the start. -/
theorem forOperators_error_turn {f : Fin 4 → State → Except Refusal State} {R : Fin 4 → Envelope → Envelope → Prop}
    {r : Refusal} (hw : ∀ o v v', f o v = .ok v' → WritesEnvelope (R o) c o v v' ∧ v'.ports = v.ports)
    (h : forOperators f s = .error r) : ∃ o v, BeforeTurn c o.val s v ∧ f o v = .error r := by
  simp only [forOperators, List.foldlM, bind, Except.bind, pure, Except.pure] at h
  have h0 := BeforeTurn.refl c s
  rcases hf0 : f 0 s with r0 | s1 <;> simp only [hf0] at h
  · exact ⟨0, s, h0, hf0.trans h⟩
  have h1 := h0.next (o := 0) (hw _ _ _ hf0).1 (hw _ _ _ hf0).2
  rcases hf1 : f 1 s1 with r1 | s2 <;> simp only [hf1] at h
  · exact ⟨1, s1, h1, hf1.trans h⟩
  have h2 := h1.next (o := 1) (hw _ _ _ hf1).1 (hw _ _ _ hf1).2
  rcases hf2 : f 2 s2 with r2 | s3 <;> simp only [hf2] at h
  · exact ⟨2, s2, h2, hf2.trans h⟩
  have h3 := h2.next (o := 2) (hw _ _ _ hf2).1 (hw _ _ _ hf2).2
  rcases hf3 : f 3 s3 with r3 | s4 <;> simp only [hf3] at h
  · exact ⟨3, s3, h3, hf3.trans h⟩
  · cases h

namespace KeysAsCommand

variable {key : Fin 4 → BitVec 5 → State → Except Refusal State} {i : Fin 4 → BitVec 5 → Instr}
  {R : Envelope → Envelope → Prop}

/-- A key operation on an envelope with the invariant fails only by the time order: in order its level is defined (rule
R203 (7)). -/
theorem error_eq (hk : KeysAsCommand c tv t key i R)
    (hrefuses : ∀ {o kc v}, t.val < (v.env c o).lastTime.val → key o kc v = .error .undefinedTimeOrder)
    (he : (s.env c o).Inv) {r : Refusal} (h : key o kc s = .error r) : r = .undefinedTimeOrder := by
  obtain horder | hdisorder := le_or_gt (s.env c o).lastTime.val t.val
  · obtain ⟨b, hb⟩ := he.exists_level Config.cfg horder
    obtain ⟨v, hv⟩ := hk.ok_iff.mpr ⟨horder, Option.isSome_of_eq_some hb⟩
    exact nomatch h.symm.trans hv
  · exact Except.error.inj (h.symm.trans (hrefuses hdisorder))

/-- In a state with the invariant the loop over the enabled operators is refused by the time order where one of them is
out of it (rules R184, R185, R226). -/
theorem forEnabled_of_disorder (hk : KeysAsCommand c tv t key i R)
    (hrefuses : ∀ {o kc v}, t.val < (v.env c o).lastTime.val → key o kc v = .error .undefinedTimeOrder) (hs : s.Inv)
    (hon : (s.opr c o).enabled = true) (hdisorder : t.val < (s.env c o).lastTime.val) :
    finish (forOperators (ifEnabled c key) s) = .refused .undefinedTimeOrder := by
  obtain ⟨r, hloop⟩ := hk.forEnabled_refused ⟨o, hon, not_canKey_iff.mpr (.inl hdisorder)⟩
  obtain ⟨o', v, hv, herror⟩ := forOperators_error_turn (R := fun _ _ _ => True)
    (fun _ _ _ h => ⟨(hk.ifEnabled_writes h).imp fun _ hw => ⟨trivial, hw.2⟩, hk.ifEnabled_ports h⟩) hloop
  rw [hloop, finish_error]
  unfold ifEnabled at herror
  split at herror
  · rw [hk.error_eq hrefuses (hv.env ▸ hs.env c o') herror]
  · cases herror

end KeysAsCommand

theorem exec_chKeyon_of_disorder (hs : s.Inv) (hready : Ready s c tv t) (hon : (s.opr c o).enabled = true)
    (hdisorder : t.val < (s.env c o).lastTime.val) : exec (.chKeyon c tv tag) s = .refused .undefinedTimeOrder :=
  (hready.withChecks_eq _).trans
    ((keyOnEnvelope_keysAsCommand c tv tag t).forEnabled_of_disorder keyOnEnvelope_of_disorder hs hon hdisorder)

theorem exec_chKeyoff_of_disorder (hs : s.Inv) (hready : Ready s c tv t) (hon : (s.opr c o).enabled = true)
    (hdisorder : t.val < (s.env c o).lastTime.val) : exec (.chKeyoff c tv tag) s = .refused .undefinedTimeOrder :=
  (hready.withChecks_eq _).trans
    ((keyOffEnvelope_keysAsCommand c tv tag t).forEnabled_of_disorder keyOffEnvelope_of_disorder hs hon hdisorder)

theorem exec_chSoundoff_of_disorder (hready : Ready s c tv t) (hdisorder : ∃ o, t.val < (s.env c o).lastTime.val) :
    exec (.chSoundoff c tv) s = .refused .undefinedTimeOrder := by
  rw [exec_chSoundoff_eq hready, forOperators_soundOff_of_disorder hdisorder, finish_error]

/-! ### The routing commands -/

theorem exec_chUsealg_of_disorder (hready : Ready s c tv t) (hdisorder : t.val < (s.chan c).routeLastTime.val)
    {view : View} {n : BitVec 4} (hn : algorithmInRange view n = true) :
    exec (.chUsealg c tv view n) s = .refused .undefinedTimeOrder := by
  refine (hready.withChecks_form_eq hn _).trans ?_
  cases view <;> exact routed_of_disorder hdisorder

theorem exec_chSetfb_of_disorder (hready : Ready s c tv t) (hdisorder : t.val < (s.chan c).routeLastTime.val)
    {k : Fin 2} (ho : feedbackSlot o = some k) (m : Method) (amount : BitVec 3) :
    exec (.chSetfb c o tv m amount) s = .refused .undefinedTimeOrder := by
  rw [exec_chSetfb_eq_routed hready ho, routed_of_disorder hdisorder]

theorem exec_chSetpan_of_disorder (hready : Ready s c tv t) (hdisorder : t.val < (s.chan c).routeLastTime.val)
    (m : Method) {p : BitVec 8} (hp : p ≠ 0x80#8) : exec (.chSetpan c tv m p) s = .refused .undefinedTimeOrder := by
  rw [exec_chSetpan_eq_routed hready m hp, routed_of_disorder hdisorder]

theorem exists_feedbackSlot (ho : o = 0 ∨ o = 2) : ∃ k, feedbackSlot o = some k := by
  obtain rfl | rfl := ho
  · exact ⟨0, rfl⟩
  · exact ⟨1, rfl⟩

end

end Sys2Proof.Machine

namespace Sys2Proof.Proofs

open Sys2Proof Sys2Proof.Machine

/-- Settles O10: every command stands behind the check of `stopped`, and no command writes a 0 to it. -/
theorem stoppedChannelRefusesEveryCommand : Obligations.StoppedChannelRefusesEveryCommand := by
  refine ⟨fun i s hc hform ht hstopped => ?_, fun i s s' c h hstopped => exec_keeps_stopped h c hstopped⟩
  obtain ⟨body, hbody⟩ := exec_eq_withChecks i s
  rw [hbody, withChecks_of_stopped hc hform ht hstopped]

/-- Settles O12: the refusal of each command whose guarding register is later than its time; under the invariant the
loops of CH.KEYON and CH.KEYOFF have no other. -/
theorem earlierTimeIsUndefined : Obligations.EarlierTimeIsUndefined := by
  intro s c tv t hs hready
  refine ⟨fun o tag kc hdisorder => ?_, fun o m block fn hratio hdisorder => ?_, fun hdisorder => ?_⟩
  · rw [exec_opKeyon, exec_opKeyoff]
    exact ⟨exec_egKeyon_of_disorder hready hdisorder, exec_egKeyoff_of_disorder hready hdisorder,
      exec_egSoundoff_of_disorder hready hdisorder, exec_egKeyon_of_disorder hready hdisorder,
      exec_egKeyoff_of_disorder hready hdisorder, exec_chDisop_of_disorder hready hdisorder,
      exec_chSoundoff_of_disorder hready ⟨o, hdisorder⟩,
      fun hon => ⟨exec_chKeyon_of_disorder hs hready hon hdisorder, exec_chKeyoff_of_disorder hs hready hon hdisorder⟩⟩
  · obtain ⟨mult, hmult⟩ := Option.isSome_iff_exists.mp hratio
    exact exec_opSetfreq_of_disorder hready hmult hdisorder m block fn
  · refine ⟨fun view n hn => exec_chUsealg_of_disorder hready hdisorder hn, fun o m amount ho => ?_,
      fun m p hp => exec_chSetpan_of_disorder hready hdisorder m hp⟩
    obtain ⟨k, hk⟩ := exists_feedbackSlot ho
    exact exec_chSetfb_of_disorder hready hdisorder hk m amount

end Sys2Proof.Proofs
end

section
/-!
LEMMAS. The level at the time of a key-on and of a key-off (rules R141 (b), (c), R235): that of the note, or of the release,
which the command leaves.
-/

namespace Sys2Proof.Machine

open Sys2Proof

section

variable {e : Envelope} {tag : BitVec 8} {kc : BitVec 5} {t b : ExReal}

theorem approachAt_zero (g b tc : ℝ) : approachAt g b tc 0 = b := by
  simp [approachAt]

/-- A key-on without inversion begins at the level it samples: an approach from it, or, where the approach takes no time,
the full level that it had reached. -/
theorem noteLevel_keyOn_of_upright (he : e.Inv) (horder : e.lastTime.val ≤ t.val) (hb : InLevelRange b)
    (hinv : e.inverted = false) : ((e.keyOn Config.cfg tag kc t b).noteLevel Config.cfg t).val = b.val := by
  by_cases hrate : e.attackRate = 0
  · obtain ⟨-, hcode, hend⟩ := keyOn_attack_of_no_rate (cfg := Config.cfg) (tag := tag) (kc := kc) (t := t) (b := b)
      hinv hrate
    rw [noteLevel_of_endless hend, attackLevel_of_no_rate hcode]
    rfl
  · have hnote := he.keyOn (cfg := Config.cfg) horder hb tag kc
    obtain ⟨-, -, hend⟩ := keyOn_attack_of_rate (cfg := Config.cfg) (tag := tag) (kc := kc) (t := t) (b := b) hinv hrate
    obtain ⟨hle, hfull⟩ := approachEnd_le_and_eq_iff (cfg := Config.cfg) (t := t)
      (rateCode e.attackRate (rateAdjust kc e.rateScaling) 0) hb.2
    obtain hlt | hnow := hle.lt_or_eq
    · refine (noteLevel_of_approach hnote (keyOn_attack ..) hend le_rfl hlt).trans ?_
      rw [show (e.keyOn Config.cfg tag kc t b).beginAttack = t from rfl, sub_self, approachAt_zero]
      rfl
    · refine (noteLevel_at_endAttack hnote (keyOn_rampsMeet ..) hend hnow).trans ?_
      rw [hfull.mp hnow.symm, if_neg]
      exact Bool.eq_false_iff.mp hinv

/-- An inverted key-on skips the attack, so its note begins at 1023 upside down. -/
theorem noteLevel_keyOn_of_inverted (he : e.Inv) (horder : e.lastTime.val ≤ t.val) (hb : InLevelRange b)
    (hinv : e.inverted = true) : ((e.keyOn Config.cfg tag kc t b).noteLevel Config.cfg t).val = 0 := by
  obtain ⟨-, -, hend⟩ := keyOn_attack_of_inverted (cfg := Config.cfg) (tag := tag) (kc := kc) (t := t) (b := b) hinv
  refine (noteLevel_at_endAttack (he.keyOn horder hb tag kc) (keyOn_rampsMeet ..) hend rfl).trans ?_
  exact if_pos hinv

/-- A release begins at the level it samples: a release of no time is one from level 0 (rule R135). -/
theorem releaseAt_keyOff (hb : InLevelRange b) : ((e.keyOff Config.cfg tag kc t b).releaseAt t).val = b.val := by
  cases hend : (e.keyOff Config.cfg tag kc t b).endRelease with
  | inf =>
    rw [releaseAt_of_endless hend]
    rfl
  | fin r =>
    rw [releaseAt_val hend]
    split
    · next hended => exact ((releaseEnd_eq hb.1 hend).resolve_right hended.not_gt).symm
    · next hlasts => exact mul_div_cancel_right₀ b.val (sub_pos.mpr (not_le.mp hlasts)).ne'

end

end Sys2Proof.Machine

namespace Sys2Proof.Proofs

open Sys2Proof Sys2Proof.Machine

/-- Settles O25: the note, or the release, that the command leaves begins at its time and at the sampled level, but an
inverted note at 0. -/
theorem levelAtKeyOnAndKeyOff : Obligations.LevelAtKeyOnAndKeyOff := by
  intro s c o tv tag kc t b hs hready horder hlevel
  have he := hs.env c o
  have hb := level_inLevelRange Config.cfg he hlevel
  refine ⟨⟨_, _, exec_egKeyon_of hready horder hlevel tag kc, level_keyedOn_respond tag kc le_rfl,
    noteLevel_keyOn_of_upright he horder hb, noteLevel_keyOn_of_inverted he horder hb⟩,
    ⟨_, ((s.env c o).keyOff Config.cfg tag kc t b).releaseAt t, exec_egKeyoff_of hready horder hlevel tag kc, ?_,
      releaseAt_keyOff hb⟩⟩
  rw [State.level, respond_env, emit_env, env_putEnv_same]
  exact level_of_release rfl le_rfl

end Sys2Proof.Proofs
end
